-- ==== Sys2Proof/Word.lean ====
section
/-! DEFINITION. The word types of the machine (spec/00_scope.md R8, R10): every value is an unsigned bit vector. -/
namespace Sys2Proof

/-- One byte of IN, OUT, the bit buffer or the rank table. -/
abbrev Byte := BitVec 8

/-- A 32-bit host register, length or address. -/
abbrev Word := BitVec 32

end Sys2Proof
end

