-- ==== Sys2Proof/Config.lean ====
section
/-! DEFINITION. What a model of this hardware takes from outside: the open parameters of spec/00_scope.md R9, the free
values that the spec calls draws, and the identity string of R2. -/
namespace Sys2Proof

/-- `P_REFILL` (R9, R72): when the bit buffer fetches its next byte. -/
inductive Refill where
  | lazy
  | eager
  deriving DecidableEq, Repr

/-- `P_NIBBLE` (R9, R85): which nibble of a length byte belongs to the even symbol. -/
inductive NibbleOrder where
  | highFirst
  | lowFirst
  deriving DecidableEq, Repr

/-- `P_CODES` (R9, R87, R88): where the code words come from. -/
inductive CodeSource where
  | explicit
  | canonical
  deriving DecidableEq, Repr

/-- The open parameters of R9. "A model takes each as an argument": the machine's state carries one such record, which
no step writes (notes/assumptions/1.md). -/
structure Params where
  /-- `P_REFILL`. -/
  refill : Refill
  /-- `AFTER_OFFSET_BYTES` is in `P_EXTRA_RESEED`. -/
  reseedAfterOffset : Bool
  /-- `AFTER_RAW_LITERAL` is in `P_EXTRA_RESEED`. -/
  reseedAfterLiteral : Bool
  /-- `P_NIBBLE`. -/
  nibble : NibbleOrder
  /-- `P_CODES`. -/
  codes : CodeSource
  /-- `P_SHORT_BIT`. -/
  shortBit : Bool
  /-- `P_CTX_BIT`. -/
  ctxBit : Bool
  /-- `P_CTX_TWO_LAYER`: a set of FORMAT values with bit 0 set. -/
  twoLayer : List (BitVec 4)
  deriving DecidableEq, Repr

/-- The reference configuration: the default column of R9. -/
def Params.reference : Params where
  refill := .lazy
  reseedAfterOffset := false
  reseedAfterLiteral := false
  nibble := .highFirst
  codes := .explicit
  shortBit := true
  ctxBit := true
  twoLayer := [1, 3, 5, 7, 9, 11, 13, 15]

/-- `P_CTX_TWO_LAYER` holds FORMAT values with bit 0 set, none twice (R9). -/
abbrev Params.WF (par : Params) : Prop :=
  (∀ f ∈ par.twoLayer, f.getLsbD 0 = true) ∧ par.twoLayer.Nodup

/-- The identity string of R2 (D1): recorded, never branched on. -/
def Config.identity : String := "bit_reader/WBT-LZ-CORE rev 1"

/-- The free values of host reads while BUSY (R32, R33, R53, R151), one for each count of `State.draws`. No body: nothing
is known of it (notes/assumptions/7.md). -/
opaque Config.draw : Nat → Word

/-- The free values of OUT[0..U-1] after a failed decode (R54, R132): the failure's count, then the address. No body:
nothing is known of it (notes/assumptions/6.md). -/
opaque Config.outDraw : Nat → Nat → Byte

end Sys2Proof
end

