-- ==== Sys2Proof/Machine/Memory.lean ====
section
/-! DEFINITION. Sparse maps from a number to a value, in one canonical form, and the byte memories IN and OUT made of them
(spec/20_memory.md R38). The tables LEN, LUT and RT (spec/10_state.md R21 to R23) are sparse maps too. -/
namespace Sys2Proof.Machine

/-- Entries by rising key; a key that is not listed holds the map's default. -/
abbrev Sparse (α : Type) := List (Nat × α)

/-- The value at `a`, `d` where none is listed. -/
def Sparse.get {α : Type} (d : α) : Sparse α → Nat → α
  | [], _ => d
  | (k, v) :: m, a => if a = k then v else Sparse.get d m a

/-- The map without an entry at `a`. -/
def Sparse.erase {α : Type} (m : Sparse α) (a : Nat) : Sparse α :=
  m.filter fun p => decide (p.1 ≠ a)

/-- `(a, v)` put before the first greater key. -/
def Sparse.insert {α : Type} : Sparse α → Nat → α → Sparse α
  | [], a, v => [(a, v)]
  | (k, w) :: m, a, v => if a < k then (a, v) :: (k, w) :: m else (k, w) :: Sparse.insert m a v

/-- The map with `v` at `a`: listed unless `v` is the default. -/
def Sparse.set {α : Type} [DecidableEq α] (d : α) (m : Sparse α) (a : Nat) (v : α) : Sparse α :=
  if v = d then Sparse.erase m a else Sparse.insert (Sparse.erase m a) a v

/-- The canonical form: keys strictly rising, no entry equal to the default. -/
abbrev Sparse.WF {α : Type} (d : α) (m : Sparse α) : Prop :=
  m.Pairwise (fun p q => p.1 < q.1) ∧ ∀ p ∈ m, p.2 ≠ d

/-- A byte memory: IN or OUT. -/
abbrev Memory := List Host.Cell

/-- What a byte that nobody has written reads as (DESIGN CHOICE, unsafe: notes/assumptions/4.md and 5.md). -/
def Memory.unlisted : Byte := 0

/-- `MemRead(M, a, 1)` of R11. -/
def Memory.read (m : Memory) (a : Nat) : Byte := Sparse.get Memory.unlisted m a

/-- `MemWrite(M, a, 1, v)` of R11. -/
def Memory.write (m : Memory) (a : Nat) (v : Byte) : Memory := Sparse.set Memory.unlisted m a v

/-- The memory without its bytes below `n`. -/
def Memory.dropBelow (m : Memory) (n : Nat) : Memory := m.filter fun p => decide (n ≤ p.1)

/-- The memory with `bs` written from address `a` up. -/
def Memory.writeBytes : Memory → Nat → List Byte → Memory
  | m, _, [] => m
  | m, a, b :: bs => Memory.writeBytes (Memory.write m a b) (a + 1) bs

/-- The canonical form of a memory, within the 32-bit address space of R38. -/
abbrev Memory.wf (m : Memory) : Prop :=
  Sparse.WF Memory.unlisted m ∧ ∀ p ∈ m, p.1 < 2 ^ 32

end Sys2Proof.Machine
end

