-- ==== Sys2Proof/Machine/Types.lean ====
section
/-! DEFINITION. The plain data types that the decoder and the state share: failure causes, the latched configuration, the
bit reader's registers, the lookup table's entries. -/
namespace Sys2Proof.Machine

/-- The failure causes of spec/60_exceptions.md R128. -/
inductive Cause where
  /-- A byte of the verbatim part lies at or past IN_LEN. -/
  | prefixByte
  /-- A length byte lies at or past IN_LEN. -/
  | table
  /-- The re-seed byte lies at or past IN_LEN. -/
  | reseed
  /-- A bit is needed, the buffer is empty and `ip >= IN_LEN`. -/
  | refill
  /-- A raw literal or offset byte lies at or past IN_LEN. -/
  | raw
  /-- Image mode with BASE_LEN = 0. -/
  | badParam
  /-- 15 code bits match no table entry. -/
  | noCode
  /-- An explicit match offset is 0. -/
  | offsetZero
  /-- The match offset exceeds `cur`. -/
  | offsetBeforeStart
  /-- The match length exceeds `U - cur`. -/
  | lengthOverrun
  /-- 32 leading zeros in a gamma field. -/
  | gammaOverflow
  /-- The lengths overflow the canonical code. -/
  | kraft
  deriving DecidableEq, Repr

/-- ERR_KIND of a cause (R25, R128): 1 TruncatedStream, 2 CorruptStream. -/
def Cause.kind : Cause → BitVec 2
  | .prefixByte | .table | .reseed | .refill | .raw => 1
  | .badParam | .noCode | .offsetZero | .offsetBeforeStart | .lengthOverrun | .gammaOverflow | .kraft => 2

/-- ERR_CAUSE of a cause (R128). -/
def Cause.code : Cause → BitVec 4
  | .prefixByte => 1
  | .table => 2
  | .reseed => 3
  | .refill => 4
  | .raw => 5
  | .badParam => 8
  | .noCode => 9
  | .offsetZero => 10
  | .offsetBeforeStart => 11
  | .lengthOverrun => 12
  | .gammaOverflow => 13
  | .kraft => 14

/-- The two offset widths of R100. -/
inductive OffsetMode where
  | oneByte
  | twoByte
  deriving DecidableEq, Repr

/-- The latched configuration of R19. Its four derived fields are functions of `fmt` and `image` (R100). -/
structure Latched where
  /-- CONFIG.FORMAT. -/
  fmt : BitVec 4
  /-- CONFIG.IMAGE. -/
  image : Bool
  /-- `B`: BASE_LEN in image mode, 1 in blob mode. -/
  base : Word
  /-- `S`: STRIDE. -/
  stride : Word
  /-- `U`: OUT_LEN. -/
  outLen : Word
  /-- `INLEN`: IN_LEN. -/
  inLen : Word
  deriving DecidableEq, Repr

/-- `offset_mode` (R100): FORMAT bit 0x8. -/
def Latched.offsetMode (c : Latched) : OffsetMode :=
  if c.fmt.getLsbD 3 then .oneByte else .twoByte

/-- `use_rank_transform` (R100): FORMAT bit 0x4. -/
def Latched.useRank (c : Latched) : Bool := c.fmt.getLsbD 2

/-- `use_canonical_code` (R100): FORMAT bit 0x2. -/
def Latched.useCode (c : Latched) : Bool := c.fmt.getLsbD 1

/-- `use_contextual_offset` (R100): FORMAT bit 0x1, in image mode only. -/
def Latched.useCtx (c : Latched) : Bool := c.fmt.getLsbD 0 && c.image

/-- The variant reads the branch bit `K` (R113): FORMAT is in `P_CTX_TWO_LAYER`. -/
def Latched.twoLayer (par : Params) (c : Latched) : Bool := par.twoLayer.contains c.fmt

/-- An entry of LUT (R22): `len` 0 means empty. -/
structure LutEntry where
  len : BitVec 4
  sym : Byte
  deriving DecidableEq, Repr

/-- The empty entry `(0, 0)` that START writes everywhere (R22, R103). -/
def LutEntry.empty : LutEntry := ⟨0, 0⟩

/-- LUT (R22): 2^15 entries. -/
abbrev Lut := Sparse LutEntry

/-- `LUT[i]`. -/
def Lut.get (lut : Lut) (i : BitVec 15) : LutEntry := Sparse.get LutEntry.empty lut i.toNat

/-- `LUT[i] <- e`. -/
def Lut.set (lut : Lut) (i : BitVec 15) (e : LutEntry) : Lut := Sparse.set LutEntry.empty lut i.toNat e

/-- The bit reader's registers: BUF, CNT (R16) and `ip` (R17). -/
structure Reader where
  buf : Byte
  cnt : BitVec 4
  ip : BitVec 33
  deriving DecidableEq, Repr

/-- What the bit reader reads from: IN, the declared length INLEN, and `P_REFILL`. -/
structure Stream where
  mem : Memory
  len : Word
  refill : Refill
  deriving DecidableEq, Repr

end Sys2Proof.Machine
end

