-- ==== Sys2Proof/Machine/BitReader.lean ====
section
/-! DEFINITION. The bit reader of spec/40_bit_reader.md: the only operations that read IN or move `ip` (R78). -/
namespace Sys2Proof.Machine

/-- A read from the stream: it moves the reader's registers and gives a value, or raises a cause with the registers as
they are at the raise (R131). -/
abbrev Fetch (α : Type) := EStateM Cause Reader α

/-- The least multiple of 4 that is at least `n` (R10). -/
def roundup4 (n : Nat) : Nat := (n + 3) / 4 * 4

/-- `MemRead(IN, a, 1)`. -/
def Stream.byteAt (st : Stream) (a : Nat) : Byte := Memory.read st.mem a

/-- A byte is left to fetch: `ip < INLEN` (R39). -/
abbrev Stream.hasByte (st : Stream) (r : Reader) : Prop := r.ip.toNat < st.len.toNat

/-- Fetch the byte at `ip` into the bit buffer: `BUF <- IN[ip]`, `ip <- ip + 1`, `CNT <- 8`. -/
def loadBuf (st : Stream) (r : Reader) : Reader :=
  { buf := st.byteAt r.ip.toNat, cnt := 8, ip := r.ip + 1 }

/-- `read_byte(cause)` (R71). -/
def readByte (st : Stream) (c : Cause) : Fetch Byte := fun r =>
  if st.hasByte r then .ok (st.byteAt r.ip.toNat) { r with ip := r.ip + 1 } else .error c r

/-- The eager refill at the end of R72: it never raises. -/
def eagerRefill (st : Stream) (r : Reader) : Reader :=
  if st.refill = .eager ∧ r.cnt = 0 ∧ st.hasByte r then loadBuf st r else r

/-- Take `BUF[7]` from a buffer that is not empty, and refill under EAGER (R72). -/
def takeBit (st : Stream) (r : Reader) : Bool × Reader :=
  (r.buf.msb, eagerRefill st { r with buf := r.buf <<< 1, cnt := r.cnt - 1 })

/-- `read_bit()` (R72). -/
def readBit (st : Stream) : Fetch Bool := fun r =>
  if r.cnt = 0 then
    if st.hasByte r then
      .ok (takeBit st (loadBuf st r)).1 (takeBit st (loadBuf st r)).2
    else .error .refill r
  else .ok (takeBit st r).1 (takeBit st r).2

/-- Read `n` bits onto `v`: `v <- 2*v + read_bit()`, `n` times. -/
def readBitsOnto (st : Stream) : Nat → Nat → Fetch Nat
  | 0, v => pure v
  | n + 1, v => do
    let b ← readBit st
    readBitsOnto st n (2 * v + b.toNat)

/-- `read_bits(n)` (R73). -/
def readBits (st : Stream) (n : Nat) : Fetch Nat := readBitsOnto st n 0

/-- `reseed()` (R74). -/
def reseed (st : Stream) : Fetch Unit := fun r =>
  if st.hasByte r then .ok () (loadBuf st r) else .error .reseed r

/-- A re-seed point of `P_EXTRA_RESEED` (R75). -/
def reseedIf (p : Bool) (st : Stream) : Fetch Unit := if p then reseed st else pure ()

/-- `align4()` (R76). -/
def align4 (r : Reader) : Reader := { r with ip := BitVec.ofNat 33 (roundup4 r.ip.toNat) }

end Sys2Proof.Machine
end

