-- ==== Sys2Proof/Syntax.lean ====
section
/-! DEFINITION. The instructions: one constructor for each row of spec/opcode_table.json. The tokens of the stream are the
instructions of this hardware (spec/00_scope.md R6), the host's CTRL writes its commands. Operands are those of
spec/30_encoding.md R58 to R64. -/
namespace Sys2Proof

/-- The length part `X` (R60): `E = 1`, or `E = 0` and a gamma field `G` (R61). A field that begins with 32 zeros is an
operand too, an invalid one (R68, R81): the instruction that holds it raises CorruptStream(GAMMA_OVERFLOW). -/
inductive LenPart where
  /-- `E = 1`: no extension. -/
  | base
  /-- `E = 0` and the gamma field of `g`. -/
  | ext (g : Word)
  /-- `E = 0` and 32 zero bits. -/
  | overflow
  deriving DecidableEq, Repr

/-- A code word `W` (R62): `len` bits, left-justified in 15 as the accumulator of R89 holds them. -/
structure CodeWord where
  len : Nat
  bits : BitVec 15
  deriving DecidableEq, Repr

/-- One constructor for each row of spec/opcode_table.json. -/
inductive Instr where
  /-- LIT.RAW (R109): `T=1`, `[raw V]`. -/
  | litRaw (v : Byte)
  /-- LIT.CODE (R110): `T=1`, `W`. -/
  | litCode (w : CodeWord)
  /-- LIT.RANK (R111): `T=1`, `W`. -/
  | litRank (w : CodeWord)
  /-- MATCH.B8 (R115): `T=0`, `[raw O8]`, `X`. -/
  | matchB8 (o : Byte) (x : LenPart)
  /-- MATCH.S (R116): `T=0`, `F=s`, `[raw O8]`, `X`. -/
  | matchS (o : Byte) (x : LenPart)
  /-- MATCH.L (R117): `T=0`, `F=~s`, `[raw LO]`, `[raw HI]`, `X`. -/
  | matchL (o : BitVec 16) (x : LenPart)
  /-- MATCH.CTX in a two-layer variant (R114): `T=0`, `K=c`, `SEL`, `X`. -/
  | matchCtx (sel : BitVec 3) (x : LenPart)
  /-- MATCH.CTX in a single-layer variant (R114): `T=0`, `SEL`, `X`. -/
  | matchCtxSingle (sel : BitVec 3) (x : LenPart)
  /-- MATCH.X.B8 (R115): `T=0`, `K=~c`, `[raw O8]`, `X`. -/
  | matchXB8 (o : Byte) (x : LenPart)
  /-- MATCH.X.S (R116): `T=0`, `K=~c`, `F=s`, `[raw O8]`, `X`. -/
  | matchXS (o : Byte) (x : LenPart)
  /-- MATCH.X.L (R117): `T=0`, `K=~c`, `F=~s`, `[raw LO]`, `[raw HI]`, `X`. -/
  | matchXL (o : BitVec 16) (x : LenPart)
  /-- CMD.START (R122): CTRL bit 0 = 1; bit 1 is ignored, bit 2 is IE. -/
  | cmdStart (clear ie : Bool)
  /-- CMD.CLEAR (R123): CTRL bits 1:0 = 10; bit 2 is IE. -/
  | cmdClear (ie : Bool)
  /-- CMD.NOP (R124): CTRL bits 1:0 = 00; bit 2 is IE. -/
  | cmdNop (ie : Bool)
  deriving DecidableEq, Repr

/-- The host commands are written to CTRL; every other instruction is a token of the stream. -/
def Instr.isCommand : Instr → Bool
  | .cmdStart _ _ => true
  | .cmdClear _ => true
  | .cmdNop _ => true
  | .litRaw _ => false
  | .litCode _ => false
  | .litRank _ => false
  | .matchB8 _ _ => false
  | .matchS _ _ => false
  | .matchL _ _ => false
  | .matchCtx _ _ => false
  | .matchCtxSingle _ _ => false
  | .matchXB8 _ _ => false
  | .matchXS _ _ => false
  | .matchXL _ _ => false

end Sys2Proof
end

