-- ==== Sys2Proof/WellFormed.lean ====
section
/-! DEFINITION. When an instruction is one that the encoding of spec/30_encoding.md can hold: its operands in range
(`Instr.wf`), its row one that the configuration selects (`Instr.selected`), its code word one that the decoder reads with
the lookup table at hand (`Instr.readable`). -/
namespace Sys2Proof

open Machine

/-- A gamma field holds `g` with `g + 1 < 2^32` (R61: at most 31 leading zeros). -/
def LenPart.wf : LenPart → Bool
  | .base => true
  | .ext g => g != BitVec.allOnes 32
  | .overflow => true

/-- A code word has 1 to 15 bits, left-justified: the bits below them are 0 (R62, R86). -/
def CodeWord.wf (w : CodeWord) : Bool :=
  decide (1 ≤ w.len) && decide (w.len ≤ 15) && (w.bits <<< w.len == 0)

/-- The operands are in the range of their fields (R58 to R64). -/
def Instr.wf : Instr → Bool
  | .litRaw _ => true
  | .litCode w => w.wf
  | .litRank w => w.wf
  | .matchB8 _ x => x.wf
  | .matchS _ x => x.wf
  | .matchL _ x => x.wf
  | .matchCtx _ x => x.wf
  | .matchCtxSingle _ x => x.wf
  | .matchXB8 _ x => x.wf
  | .matchXS _ x => x.wf
  | .matchXL _ x => x.wf
  | .cmdStart _ _ => true
  | .cmdClear _ => true
  | .cmdNop _ => true

/-- The first `n` bits of a code word, left-justified (R86, R89). -/
def CodeWord.pre (w : CodeWord) (n : Nat) : BitVec 15 := (w.bits >>> (15 - n)) <<< (15 - n)

/-- R89 stops after exactly `w.len` bits of `w`: no shorter part of it is a stored code word, and it is one itself or is 15
bits long. -/
def CodeWord.readable (lut : Lut) (w : CodeWord) : Bool :=
  ((List.range 15).all fun n =>
    !(decide (1 ≤ n ∧ n < w.len) && (lut.get (w.pre n)).len.toNat == n))
  && ((lut.get w.bits).len.toNat == w.len || w.len == 15)

/-- The decoder reads the instruction's code word, where it has one, with this lookup table. -/
def Instr.readable (lut : Lut) : Instr → Bool
  | .litRaw _ => true
  | .litCode w => w.readable lut
  | .litRank w => w.readable lut
  | .matchB8 _ _ => true
  | .matchS _ _ => true
  | .matchL _ _ => true
  | .matchCtx _ _ => true
  | .matchCtxSingle _ _ => true
  | .matchXB8 _ _ => true
  | .matchXS _ _ => true
  | .matchXL _ _ => true
  | .cmdStart _ _ => true
  | .cmdClear _ => true
  | .cmdNop _ => true

/-- The variant table R66 with R58 and R59: the rows a configuration's tokens come from. A command is no token. -/
def Instr.selected (par : Params) (c : Latched) : Instr → Bool
  | .litRaw _ => !c.useCode
  | .litCode _ => c.useCode && !c.useRank
  | .litRank _ => c.useCode && c.useRank
  | .matchB8 _ _ => !c.useCtx && c.offsetMode == .oneByte
  | .matchS _ _ => !c.useCtx && c.offsetMode == .twoByte
  | .matchL _ _ => !c.useCtx && c.offsetMode == .twoByte
  | .matchCtx _ _ => c.useCtx && c.twoLayer par
  | .matchCtxSingle _ _ => c.useCtx && !c.twoLayer par
  | .matchXB8 _ _ => c.useCtx && c.twoLayer par && c.offsetMode == .oneByte
  | .matchXS _ _ => c.useCtx && c.twoLayer par && c.offsetMode == .twoByte
  | .matchXL _ _ => c.useCtx && c.twoLayer par && c.offsetMode == .twoByte
  | .cmdStart _ _ => false
  | .cmdClear _ => false
  | .cmdNop _ => false

end Sys2Proof
end

