-- ==== Sys2Proof/Decode.lean ====
section
/-! DEFINITION. The decoder: from the stream's bits and raw bytes to a token (spec/30_encoding.md, spec/45_lz_decompressor_fsm.md
R107 to R118), from a CTRL word to a command (R122 to R124), total, rejecting by the cause of a TruncatedStream. All fields
of a token are read before any of its checks (R119, R135), so the decoder reads them all and the meanings of Machine/ check
and write. After it the encoder, from the same tables of R58 to R63. -/
namespace Sys2Proof

open Machine

/-! ## The gamma field and the length part (R80, R118) -/

/-- R80's loop over the zeros before the stop bit, with `n` more allowed: none on the 32nd zero. -/
def countZeros (st : Stream) : Nat → Nat → Fetch (Option Nat)
  | 0, _ => pure none
  | n + 1, z => do
    let b ← readBit st
    if b then pure (some z) else countZeros st n (z + 1)

/-- `gamma()` (R80), as the operand it reads; `overflow` is what R81 turns into GAMMA_OVERFLOW. -/
def gammaField (st : Stream) : Fetch LenPart := do
  match ← countZeros st 32 0 with
  | none => pure .overflow
  | some z => do
    let v ← readBitsOnto st z 1
    pure (.ext (BitVec.ofNat 32 (v - 1)))

/-- The length part `X` (R60, R118): the guard bit `E`, then a gamma field only if `E = 0` (R83). -/
def lengthPart (st : Stream) : Fetch LenPart := do
  let e ← readBit st
  if e then pure .base else gammaField st

/-! ## Code words (R89) -/

/-- R89's loop, `n` bits read into `acc`, at most `fuel` more: it stops at the first length whose entry matches, and after
the 15th bit. -/
def walkCode (st : Stream) (lut : Lut) : Nat → Nat → BitVec 15 → Fetch CodeWord
  | 0, n, acc => pure ⟨n, acc⟩
  | fuel + 1, n, acc => do
    let b ← readBit st
    let acc' := acc ||| (BitVec.ofNat 15 b.toNat <<< (14 - n))
    if (lut.get acc').len.toNat = n + 1 then pure ⟨n + 1, acc'⟩
    else walkCode st lut fuel (n + 1) acc'

/-- The code word that `decode_symbol()` reads (R89). -/
def readCodeWord (st : Stream) (lut : Lut) : Fetch CodeWord := walkCode st lut 15 0 0

/-! ## Tokens (R107 to R117) -/

/-- The explicit offset forms of R115 to R117. -/
inductive ExplicitOffset where
  | b8 (o : Byte)
  | short (o : Byte)
  | long (o : BitVec 16)
  deriving DecidableEq, Repr

/-- The raw offset byte or bytes of `explicit_offset()` (R115, R116, R117), the long form little-endian. -/
def offsetBytes (par : Params) (c : Latched) (st : Stream) : Fetch ExplicitOffset :=
  match c.offsetMode with
  | .oneByte => do
    let o ← readByte st .raw
    pure (.b8 o)
  | .twoByte => do
    let f ← readBit st
    if f = par.shortBit then do
      let o ← readByte st .raw
      pure (.short o)
    else do
      let lo ← readByte st .raw
      let hi ← readByte st .raw
      pure (.long (hi ++ lo))

/-- `explicit_offset()` (R115 to R117), with the extra re-seed point AFTER_OFFSET_BYTES. -/
def explicitOffset (par : Params) (c : Latched) (st : Stream) : Fetch ExplicitOffset := do
  let o ← offsetBytes par c st
  let _ ← reseedIf par.reseedAfterOffset st
  pure o

/-- The match row of an explicit offset when no branch bit was read (R59). -/
def ExplicitOffset.plain : ExplicitOffset → LenPart → Instr
  | .b8 o, x => .matchB8 o x
  | .short o, x => .matchS o x
  | .long o, x => .matchL o x

/-- The match row of an explicit offset after the branch bit `K = ~c` (R59). -/
def ExplicitOffset.branched : ExplicitOffset → LenPart → Instr
  | .b8 o, x => .matchXB8 o x
  | .short o, x => .matchXS o x
  | .long o, x => .matchXL o x

/-- The selector of `ctx_offset()` (R114): three bits, MSB-first. -/
def readSelector (st : Stream) : Fetch (BitVec 3) := do
  let v ← readBits st 3
  pure (BitVec.ofNat 3 v)

/-- The rest of a literal, `T = 1` read (R109 to R111). -/
def decodeLiteral (par : Params) (c : Latched) (lut : Lut) (st : Stream) : Fetch Instr :=
  if c.useCode then do
    let w ← readCodeWord st lut
    pure (if c.useRank then .litRank w else .litCode w)
  else do
    let v ← readByte st .raw
    let _ ← reseedIf par.reseedAfterLiteral st
    pure (.litRaw v)

/-- An explicit match without a branch bit. -/
def decodePlain (par : Params) (c : Latched) (st : Stream) : Fetch Instr := do
  let o ← explicitOffset par c st
  let x ← lengthPart st
  pure (o.plain x)

/-- An explicit match after its branch bit. -/
def decodeBranched (par : Params) (c : Latched) (st : Stream) : Fetch Instr := do
  let o ← explicitOffset par c st
  let x ← lengthPart st
  pure (o.branched x)

/-- A contextual match, `K` read in a two-layer variant. -/
def decodeCtx (two : Bool) (st : Stream) : Fetch Instr := do
  let sel ← readSelector st
  let x ← lengthPart st
  pure (if two then .matchCtx sel x else .matchCtxSingle sel x)

/-- The rest of a match, `T = 0` read (R112, R113). -/
def decodeMatch (par : Params) (c : Latched) (st : Stream) : Fetch Instr :=
  if c.useCtx then
    if c.twoLayer par then do
      let k ← readBit st
      if k = par.ctxBit then decodeCtx true st else decodeBranched par c st
    else decodeCtx false st
  else decodePlain par c st

/-- One token of the stream (R107): the flag `T`, then the fields that the configuration and the bits select. -/
def decodeToken (par : Params) (c : Latched) (lut : Lut) (st : Stream) : Fetch Instr := do
  let t ← readBit st
  if t then decodeLiteral par c lut st else decodeMatch par c st

/-! ## Commands (R122 to R124) -/

/-- The command of a word written to CTRL (R124): START wins over CLEAR, bits 31:3 are ignored. -/
def decodeCtrl (w : Word) : Instr :=
  if w.getLsbD 0 then .cmdStart (w.getLsbD 1) (w.getLsbD 2)
  else if w.getLsbD 1 then .cmdClear (w.getLsbD 2)
  else .cmdNop (w.getLsbD 2)

/-! ## The encoder (R58 to R63) -/

/-- One field of the stream in reading order: a bit of the bit stream, a raw byte, or a re-seed point, where a fresh
bit-buffer byte begins (R55, R56, R58). -/
inductive Field where
  | bit (b : Bool)
  | raw (v : Byte)
  | reseed
  deriving DecidableEq, Repr

/-- The `n` low bits of `v`, most significant first, as fields. -/
def bitFields : Nat → Nat → List Field
  | 0, _ => []
  | n + 1, v => .bit (v.testBit n) :: bitFields n v

/-- The gamma field of `g` (R61): `z` zeros, then the `z + 1` bits of `g + 1`. -/
def gammaFields (g : Nat) : List Field :=
  List.replicate (g + 1).log2 (.bit false) ++ bitFields ((g + 1).log2 + 1) (g + 1)

/-- The length part `X` (R60). -/
def LenPart.fields : LenPart → List Field
  | .base => [.bit true]
  | .ext g => .bit false :: gammaFields g.toNat
  | .overflow => .bit false :: List.replicate 32 (.bit false)

/-- The code word `W` (R62). -/
def CodeWord.fields (w : CodeWord) : List Field :=
  bitFields w.len (w.bits.toNat >>> (15 - w.len))

/-- A re-seed point of `P_EXTRA_RESEED`, where it is one. -/
def reseedFields (p : Bool) : List Field := if p then [.reseed] else []

/-- The layout of R58 and R59, in reading order; a command has no field in the stream. -/
def Instr.fields (par : Params) : Instr → List Field
  | .litRaw v => .bit true :: .raw v :: reseedFields par.reseedAfterLiteral
  | .litCode w => .bit true :: w.fields
  | .litRank w => .bit true :: w.fields
  | .matchB8 o x => .bit false :: .raw o :: reseedFields par.reseedAfterOffset ++ x.fields
  | .matchS o x => .bit false :: .bit par.shortBit :: .raw o :: reseedFields par.reseedAfterOffset ++ x.fields
  | .matchL o x =>
    .bit false :: .bit (!par.shortBit) :: .raw (o.extractLsb' 0 8) :: .raw (o.extractLsb' 8 8)
      :: reseedFields par.reseedAfterOffset ++ x.fields
  | .matchCtx sel x => .bit false :: .bit par.ctxBit :: bitFields 3 sel.toNat ++ x.fields
  | .matchCtxSingle sel x => .bit false :: bitFields 3 sel.toNat ++ x.fields
  | .matchXB8 o x => .bit false :: .bit (!par.ctxBit) :: .raw o :: reseedFields par.reseedAfterOffset ++ x.fields
  | .matchXS o x =>
    .bit false :: .bit (!par.ctxBit) :: .bit par.shortBit :: .raw o :: reseedFields par.reseedAfterOffset ++ x.fields
  | .matchXL o x =>
    .bit false :: .bit (!par.ctxBit) :: .bit (!par.shortBit) :: .raw (o.extractLsb' 0 8) :: .raw (o.extractLsb' 8 8)
      :: reseedFields par.reseedAfterOffset ++ x.fields
  | .cmdStart _ _ => []
  | .cmdClear _ => []
  | .cmdNop _ => []

/-- The next `n` bits of the bit stream, up to a re-seed point. -/
def nextBits : Nat → List Field → List Bool
  | 0, _ => []
  | _ + 1, [] => []
  | _ + 1, .reseed :: _ => []
  | n + 1, .raw _ :: fs => nextBits (n + 1) fs
  | n + 1, .bit b :: fs => b :: nextBits n fs

/-- `n` bits as a number, most significant first, zeros where bits are missing. -/
def packBits : Nat → List Bool → Nat
  | 0, _ => 0
  | _ + 1, [] => 0
  | n + 1, b :: bs => b.toNat * 2 ^ n + packBits n bs

/-- The bit-buffer byte that holds the next bits of `fs` (R41: the first bit read is bit 7). -/
def bitByte (fs : List Field) : Byte := BitVec.ofNat 8 (packBits 8 (nextBits 8 fs))

/-- The bytes of IN that hold the fields, `n` bits being left in the byte under way (R56). Under LAZY a bit-buffer byte
stands where its first bit is needed; under EAGER it follows at once when the byte before it is used up. -/
def layOut (p : Refill) : Nat → List Field → List Byte
  | _, [] => []
  | 0, .bit b :: fs => bitByte (.bit b :: fs) :: layOut p 7 fs
  | n + 1, .bit _ :: fs =>
    if p = .eager ∧ n = 0 then bitByte fs :: layOut p 8 fs else layOut p n fs
  | n, .raw v :: fs => v :: layOut p n fs
  | _, .reseed :: fs => bitByte fs :: layOut p 8 fs

/-- The word that a host writes to CTRL for a command; a token has none. -/
def encodeCtrl : Instr → Option Word
  | .cmdStart clear ie => some (BitVec.ofNat 32 (1 + 2 * clear.toNat + 4 * ie.toNat))
  | .cmdClear ie => some (BitVec.ofNat 32 (2 + 4 * ie.toNat))
  | .cmdNop ie => some (BitVec.ofNat 32 (4 * ie.toNat))
  | .litRaw _ => none
  | .litCode _ => none
  | .litRank _ => none
  | .matchB8 _ _ => none
  | .matchS _ _ => none
  | .matchL _ _ => none
  | .matchCtx _ _ => none
  | .matchCtxSingle _ _ => none
  | .matchXB8 _ _ => none
  | .matchXS _ _ => none
  | .matchXL _ _ => none

/-- What an instruction is written as: bytes of IN for a token read from an empty bit buffer, a CTRL word for a command. -/
inductive Code where
  | stream (bs : List Byte)
  | ctrl (w : Word)
  deriving DecidableEq, Repr

/-- The encoder. -/
def encode (par : Params) (i : Instr) : Code :=
  match encodeCtrl i with
  | some w => .ctrl w
  | none => .stream (layOut par.refill 0 (i.fields par))

/-! ## The opcode table's words -/

/-- How many bytes a table word is laid out in: more than the longest token takes. -/
def tableLength : Nat := 16

/-- How many of a table word's bits are its row's pattern (R67): the row's own 1 to 3 bits where `nbits` is that count; a word
given in whole bytes does not say, and is read as a row of one bit (notes/assumptions/14.md). -/
def patternBits (nbits : Nat) : Nat := if nbits = 2 ∨ nbits = 3 then nbits else 1

/-- The configuration under which a token word of the table is read, chosen by the length of its pattern (R67;
notes/assumptions/14.md): FORMAT 0x8 blob for one bit, FORMAT 0x0 blob for two, FORMAT 0x1 image (two-layer) for three. -/
def tableLatched (nbits : Nat) : Latched where
  fmt := if patternBits nbits = 1 then 8 else if patternBits nbits = 2 then 0 else 1
  image := patternBits nbits == 3
  base := 1
  stride := 0
  outLen := BitVec.allOnes 32
  inLen := BitVec.ofNat 32 tableLength

/-- Bit `k` in reading order of a table word: the pattern from its most significant bit down, "the first bit read is bit
`prefix_bits - 1`" (R67), then the bits above the pattern from the lowest up, zeros after its `nbits`. -/
def tableBit (nbits w k : Nat) : Bool :=
  if k < patternBits nbits then w.testBit (patternBits nbits - 1 - k) else (w % 2 ^ nbits).testBit k

/-- The bytes of a table word: its bits in the order the bit reader takes them. -/
def tableBytes (nbits w : Nat) : List Byte :=
  (List.range tableLength).map fun k =>
    BitVec.ofNat 8 (packBits 8 ((List.range 8).map fun j => tableBit nbits w (8 * k + j)))

/-- The decoder's answer for a word of spec/opcode_table.json, bits numbered as the table numbers them: a row of 32 bits is
a CTRL word, a shorter one the first bits of a token. -/
def decodeTableWord (nbits w : Nat) : Option Instr :=
  if 32 ≤ nbits then some (decodeCtrl (BitVec.ofNat 32 w))
  else
    match decodeToken Params.reference (tableLatched nbits) []
        ⟨Memory.writeBytes [] 0 (tableBytes nbits w), (tableLatched nbits).inLen, .lazy⟩ ⟨0, 0, 0⟩ with
    | .ok i _ => some i
    | .error _ _ => none

end Sys2Proof
end

