-- ==== Sys2Proof/Machine/State.lean ====
section
/-! DEFINITION. The machine's state (spec/10_state.md), as plain data, the reasons a step can stop, and the state after
hardware reset (R36). -/
namespace Sys2Proof.Machine

/-- The FSM phase (R20). -/
inductive Phase where
  | idle
  | init
  | prefixCopy
  | align
  | table
  | build
  | token
  | done
  | error
  deriving DecidableEq, Repr

/-- What the host does between two block steps (R7, R145). The model's own form of the outside world
(notes/assumptions/8.md). -/
inductive HostMove where
  /-- The host does nothing; the block takes the step. -/
  | pass
  /-- The host waits until STATE is not BUSY (R145 step 7); the block takes the steps. -/
  | await
  /-- A read of REG at an offset, `size` bytes wide (R27, R43). -/
  | read (off : BitVec 8) (size : Nat)
  /-- A write of REG at an offset, `size` bytes wide (R27, R43). -/
  | write (off : BitVec 8) (size : Nat) (data : Word)
  /-- A read of a byte of IN. -/
  | readIn (a : Word)
  /-- A write of a byte of IN (R145 step 2). -/
  | writeIn (a : Word) (v : Byte)
  /-- A read of a byte of OUT (R145 step 8). -/
  | readOut (a : Word)
  /-- A write of a byte of OUT. -/
  | writeOut (a : Word) (v : Byte)
  /-- Hardware reset is asserted (R143). -/
  | reset
  deriving DecidableEq, Repr

/-- OUT addresses `lo` to `hi - 1` whose bytes a failed decode left unspecified (R54, R132); `draw` names the failure. -/
structure DrawnRange where
  lo : Nat
  hi : Nat
  draw : Nat
  deriving DecidableEq, Repr

/-- Everything the spec gives the machine, and the model's own fields below. -/
structure State where
  /-- BUF, CNT (R16) and `ip` (R17). -/
  rd : Reader
  /-- The output cursor (R18). -/
  cur : Word
  /-- The latched configuration (R19). -/
  cfg : Latched
  /-- The FSM phase (R20). -/
  phase : Phase
  /-- `LEN[0..255]` (R21). -/
  lens : Sparse (BitVec 4)
  /-- `LUT[0..32767]` (R22). -/
  lut : Lut
  /-- `RT`, one row of 256 bytes for each context (R23). -/
  rt : Sparse (List Byte)
  /-- `OCT[0..7]` (R24). -/
  oct : Vector Nat 8
  /-- ERR_KIND and ERR_CAUSE (R25): none for 0 and 0. -/
  err : Option Cause
  /-- CTRL.IE (R26). -/
  ie : Bool
  /-- CONFIG.FORMAT (R30). -/
  format : BitVec 4
  /-- CONFIG.IMAGE (R30). -/
  image : Bool
  /-- BASE_LEN (R29). -/
  baseLen : Word
  /-- STRIDE (R29). -/
  stride : Word
  /-- IN_LEN (R29). -/
  inLen : Word
  /-- OUT_LEN (R29). -/
  outLen : Word
  /-- IN (R38). -/
  inMem : Memory
  /-- OUT (R38): the bytes that are known. -/
  outMem : Memory
  /-- OUT: the bytes that are free values since a failed decode (R54). The model's own form. -/
  outDrawn : List DrawnRange
  /-- The count of the table build's loop under way (R84, R87, R88). The model's own. -/
  tix : Nat
  /-- `code` of R88. The model's own. -/
  code : Nat
  /-- The open parameters of R9; no step writes them. The model's own. -/
  par : Params
  /-- The host's moves to come. The model's own. -/
  host : List HostMove
  /-- What the last host read returned. The model's own. -/
  rdata : Word
  /-- How many free values have been drawn. The model's own. -/
  draws : Nat
  deriving DecidableEq, Repr

/-- Why a step stops. Both are reads or writes that the spec calls impossible (R37: "a model fault. It is unreachable"). -/
inductive Fault where
  /-- A literal's byte would go to OUT at or above U. Raised by the three literals; safe (R40, R47: never reached). -/
  | outPastEnd
  /-- A rank context would lie before OUT[0]. Raised by LIT.RANK; safe (R94: never reached). -/
  | contextBeforeStart
  deriving DecidableEq, Repr

/-- Why a step is refused. -/
inductive Refusal where
  /-- No meaning yet. Raised by no arm of exec; safe. -/
  | notModelled (mnemonic : String)
  /-- The host wrote IN while BUSY (R52, R142, U22: outside the model's domain). Raised by the host's move; safe. -/
  | hostWroteInWhileBusy
  /-- The host wrote OUT while BUSY (R53, R142, U22). Raised by the host's move; safe. -/
  | hostWroteOutWhileBusy
  deriving DecidableEq, Repr

/-- The machine right after hardware reset (R36), with the named values of notes/assumptions/2.md, 3.md and 10.md where R36
says "unspecified", the reference parameters of R9, and memories with nothing listed. -/
def State.reset : State where
  rd := ⟨0, 0, 0⟩
  cur := 0
  cfg := ⟨0, false, 0, 0, 0, 0⟩
  phase := .idle
  lens := []
  lut := []
  rt := []
  oct := #v[0, 0, 0, 0, 0, 0, 0, 0]
  err := none
  ie := false
  format := 0
  image := false
  baseLen := 0
  stride := 0
  inLen := 0
  outLen := 0
  inMem := []
  outMem := []
  outDrawn := []
  tix := 0
  code := 0
  par := Params.reference
  host := []
  rdata := 0
  draws := 0

end Sys2Proof.Machine
end

