-- ==== Sys2Proof/Machine/Ops.lean ====
section
/-! DEFINITION. The named operations over state: OUT and its free bytes, the cursors, the failure entry (R131) and the ways
out of it (R123, R133), the tables' operations, the START initialisation (R103), the copy of a match (R120). -/
namespace Sys2Proof.Machine

/-! ## Outcomes -/

/-- Do `f` to the next state of an outcome. -/
def mapNext (f : State → State) : Host.Outcome State Fault Refusal → Host.Outcome State Fault Refusal
  | .next s => .next (f s)
  | .fault r => .fault r
  | .refused r => .refused r

/-! ## Phases -/

/-- The host sees BUSY (R20, R31). -/
def Phase.busy : Phase → Bool
  | .init => true
  | .prefixCopy => true
  | .align => true
  | .table => true
  | .build => true
  | .token => true
  | .idle => false
  | .done => false
  | .error => false

/-- STATE = BUSY. -/
def State.busy (s : State) : Bool := s.phase.busy

/-- The FSM goes to a phase. -/
def State.goto (s : State) (p : Phase) : State := { s with phase := p }

/-! ## IN -/

/-- What the bit reader reads from in this state. -/
def State.stream (s : State) : Stream := ⟨s.inMem, s.cfg.inLen, s.par.refill⟩

/-- The bit reader's registers take new values. -/
def State.withReader (s : State) (r : Reader) : State := { s with rd := r }

/-! ## OUT and its free bytes -/

/-- The failure that left the byte at `a` unspecified, if one did. -/
def drawnAt : List DrawnRange → Nat → Option Nat
  | [], _ => none
  | r :: rs, a => if r.lo ≤ a ∧ a < r.hi then some r.draw else drawnAt rs a

/-- A range, or nothing where it would be empty. -/
def drawnPiece (lo hi draw : Nat) : List DrawnRange :=
  if lo < hi then [⟨lo, hi, draw⟩] else []

/-- The ranges without the address `a`: its byte is known from now on. -/
def drawnErase (rs : List DrawnRange) (a : Nat) : List DrawnRange :=
  rs.flatMap fun r =>
    if r.lo ≤ a ∧ a < r.hi then drawnPiece r.lo a r.draw ++ drawnPiece (a + 1) r.hi r.draw else [r]

/-- The ranges after a failure over `OUT[0..n-1]`: they are all free values of that failure. -/
def drawnCover (rs : List DrawnRange) (n draw : Nat) : List DrawnRange :=
  drawnPiece 0 n draw ++ rs.flatMap fun r => drawnPiece (max r.lo n) r.hi r.draw

/-- `MemRead(OUT, a, 1)`: a known byte, or the free value a failed decode left there (R54). -/
def State.readOut (s : State) (a : Nat) : Byte :=
  match drawnAt s.outDrawn a with
  | some k => Config.outDraw k a
  | none => Memory.read s.outMem a

/-- `MemWrite(OUT, a, 1, v)`. -/
def State.writeOut (s : State) (a : Nat) (v : Byte) : State :=
  { s with outMem := Memory.write s.outMem a v, outDrawn := drawnErase s.outDrawn a }

/-- `MemWrite(OUT, cur, 1, v); cur <- cur + 1`: the one way the block writes OUT (R18, R40). -/
def State.putByte (s : State) (v : Byte) : State :=
  { s with
    outMem := Memory.write s.outMem s.cur.toNat v
    outDrawn := drawnErase s.outDrawn s.cur.toNat
    cur := s.cur + 1 }

/-- A literal's byte goes out. The block never writes OUT at or above U (R40, R47). -/
def State.emit (s : State) (v : Byte) : Host.Outcome State Fault Refusal :=
  if s.cur.toNat < s.cfg.outLen.toNat then .next (s.putByte v) else .fault .outPastEnd

/-- `copy(offset, length)` (R120): each byte is read after the byte before it was written. -/
def copyBytes : Nat → Nat → State → State
  | 0, _, s => s
  | n + 1, offset, s => copyBytes n offset (s.putByte (s.readOut (s.cur.toNat - offset)))

/-! ## Failure entry and the way out -/

/-- Failure entry (R131): the error record and the phase; "Nothing else is written". `OUT[0..U-1]` become free values
(R54, R132). -/
def State.raise (s : State) (c : Cause) : State :=
  { s with
    err := some c
    phase := .error
    outMem := s.outMem.dropBelow s.cfg.outLen.toNat
    outDrawn := drawnCover s.outDrawn s.cfg.outLen.toNat s.draws
    draws := s.draws + 1 }

/-- The end of a finished decode is acknowledged (R123, R133): DONE and ERROR go to IDLE and the error record to 0. -/
def State.acknowledge (s : State) : State :=
  if s.phase = .done ∨ s.phase = .error then { s with phase := .idle, err := none } else s

/-- Run a read of the stream: go on with its value, or enter the failure it raises (R131). -/
def State.fetch {α : Type} (s : State) (f : Fetch α) (k : α → State → State) : State :=
  match f s.rd with
  | .ok a r => k a (s.withReader r)
  | .error c r => (s.withReader r).raise c

/-! ## Rank table (spec/43_adaptive_rank_transform.md) -/

/-- A fresh context (R92): 0xFF down to 0x00. -/
def rankRow : List Byte := (List.range 256).map fun r => BitVec.ofNat 8 (255 - r)

/-- `RT[c]`. -/
def State.rankRowAt (s : State) (c : Byte) : List Byte := Sparse.get rankRow s.rt c.toNat

/-- The row after the value at rank `k` moved to the front (R93). -/
def promote (row : List Byte) (k : Nat) : List Byte :=
  if k = 0 then row else row.getD k 0 :: (row.take k ++ row.drop (k + 1))

/-- `lookup_and_promote(c, k)` (R93): the value and the table. -/
def lookupAndPromote (rt : Sparse (List Byte)) (c k : Byte) : Byte × Sparse (List Byte) :=
  let row := Sparse.get rankRow rt c.toNat
  (row.getD k.toNat 0, Sparse.set rankRow rt c.toNat (promote row k.toNat))

/-! ## Offset table (spec/44_contextual_offset_table.md) -/

/-- `build_offset_table(B, S)` (R97), exact. The branch condition stands here alone (90_conflicts.md C2). -/
def offsetTable (b s : Nat) : Vector Nat 8 :=
  if 5 * b < s then #v[b, 2 * b, 3 * b, s - b, s, s + b, s + 2 * b, 2 * s]
  else #v[b, 2 * b, 3 * b, 4 * b, 5 * b, 6 * b, 7 * b, 8 * b]

/-! ## START initialisation -/

/-- The configuration record that START latches (R19, R101, R103). -/
def State.latch (s : State) : Latched where
  fmt := s.format
  image := s.image
  base := if s.image then s.baseLen else 1
  stride := s.stride
  outLen := s.outLen
  inLen := s.inLen

/-- START initialisation (R103), in one step. -/
def State.startInit (s : State) : State :=
  { s with
    cfg := s.latch
    rd := ⟨0, 0, 0⟩
    cur := 0
    err := none
    lut := []
    rt := []
    oct := offsetTable s.latch.base.toNat s.latch.stride.toNat
    tix := 0
    code := 0
    phase := .init }

/-- After a token (R121): with `cur = U` the decode is done. -/
def State.settle (s : State) : State :=
  if s.phase = .token ∧ s.cur = s.cfg.outLen then { s with phase := .done } else s

/-- Hardware reset (R143): every piece of the block's state to its reset value. IN and OUT are not part of the block. -/
def State.hardReset (s : State) : State :=
  { State.reset with
    inMem := s.inMem
    outMem := s.outMem
    outDrawn := s.outDrawn
    par := s.par
    host := s.host
    rdata := s.rdata
    draws := s.draws }

end Sys2Proof.Machine
end

