-- ==== Sys2Proof/Machine/Commands.lean ====
section
/-! DEFINITION. The meanings of the host commands (spec/45_lz_decompressor_fsm.md R122 to R124). -/
namespace Sys2Proof.Machine

/-- CMD.START (R122): IE, then a fresh decode unless BUSY. CLEAR in the same write is ignored (R124). -/
def execCmdStart (_clear ie : Bool) (s : State) : Host.Outcome State Fault Refusal :=
  .next (if s.busy then { s with ie := ie } else { s with ie := ie }.startInit)

/-- CMD.CLEAR (R123): IE, then DONE or ERROR go to IDLE. -/
def execCmdClear (ie : Bool) (s : State) : Host.Outcome State Fault Refusal :=
  .next { s with ie := ie }.acknowledge

/-- CMD.NOP (R124): IE alone. -/
def execCmdNop (ie : Bool) (s : State) : Host.Outcome State Fault Refusal :=
  .next { s with ie := ie }

end Sys2Proof.Machine
end

