-- ==== Sys2Proof/Machine/Operands.lean ====
section
/-! DEFINITION. What an instruction's operands stand for (spec/30_encoding.md R64): the offset and baseline of each match form,
its length, the symbol of a code word. -/
namespace Sys2Proof.Machine

/-- A match's offset and baseline length, as the offset part gives them (R59, R112). -/
structure MatchOffset where
  offset : Nat
  base : Nat
  deriving DecidableEq, Repr

/-- The one-byte offset, no bias added (R64, R115, R116): baseline 2. -/
def offsetOfByte (o : Byte) : MatchOffset := ⟨o.toNat, 2⟩

/-- The two-byte offset (R64, R117): baseline 3. -/
def offsetOfWord (o : BitVec 16) : MatchOffset := ⟨o.toNat, 3⟩

/-- The contextual offset `OCT[sel]` (R114): baseline 1 if `B != 1`, else 2. -/
def State.offsetOfSelector (s : State) (sel : BitVec 3) : MatchOffset :=
  ⟨s.oct[sel.toNat]'sel.isLt, if s.cfg.base = 1 then 2 else 1⟩

/-- The length `baseline + (E = 0 ? g : 0)`, exact (R64, R118); none for the invalid gamma field (R81). -/
def matchLength (base : Nat) : LenPart → Option Nat
  | .base => some base
  | .ext g => some (base + g.toNat)
  | .overflow => none

/-- The symbol a code word decodes to (R89), none if its entry does not match (NO_CODE). -/
def codeSymbol (lut : Lut) (w : CodeWord) : Option Byte :=
  if (lut.get w.bits).len.toNat = w.len ∧ w.len ≠ 0 then some (lut.get w.bits).sym else none

/-- `check(offset, length)` (R119), in its order: the cause that it raises. -/
def checkMatch (s : State) (offset length : Nat) : Option Cause :=
  if offset = 0 then some .offsetZero
  else if s.cur.toNat < offset then some .offsetBeforeStart
  else if s.cfg.outLen.toNat - s.cur.toNat < length then some .lengthOverrun
  else none

/-- R112 from the length on: the gamma field's failure (R81), the checks (R119), the copy (R120). -/
def State.runMatch (s : State) (m : MatchOffset) (x : LenPart) : State :=
  match matchLength m.base x with
  | none => s.raise .gammaOverflow
  | some length =>
    match checkMatch s m.offset length with
    | some c => s.raise c
    | none => copyBytes length m.offset s

end Sys2Proof.Machine
end

