-- ==== Sys2Proof/Machine/Literals.lean ====
section
/-! DEFINITION. The meanings of the literal tokens (spec/45_lz_decompressor_fsm.md R109 to R111), their fields read. -/
namespace Sys2Proof.Machine

/-- LIT.RAW (R109): the raw byte goes out. -/
def execLitRaw (v : Byte) (s : State) : Host.Outcome State Fault Refusal := s.emit v

/-- LIT.CODE (R110): the code word's symbol goes out; no entry, no code (R89). -/
def execLitCode (w : CodeWord) (s : State) : Host.Outcome State Fault Refusal :=
  match codeSymbol s.lut w with
  | none => .next (s.raise .noCode)
  | some sym => s.emit sym

/-- LIT.RANK (R111): the code word's symbol is the rank in the context `OUT[cur - B]`; its byte goes out. -/
def execLitRank (w : CodeWord) (s : State) : Host.Outcome State Fault Refusal :=
  match codeSymbol s.lut w with
  | none => .next (s.raise .noCode)
  | some k =>
    if s.cur.toNat < s.cfg.base.toNat then .fault .contextBeforeStart
    else
      let c := s.readOut (s.cur.toNat - s.cfg.base.toNat)
      { s with rt := (lookupAndPromote s.rt c k).2 }.emit (lookupAndPromote s.rt c k).1

end Sys2Proof.Machine
end

