-- ==== Sys2Proof/Machine/Matches.lean ====
section
/-! DEFINITION. The meanings of the match tokens (spec/45_lz_decompressor_fsm.md R112 to R120), their fields read: an offset and a
baseline each, then the shared length, checks and copy. -/
namespace Sys2Proof.Machine

/-- MATCH.B8 (R115). -/
def execMatchB8 (o : Byte) (x : LenPart) (s : State) : Host.Outcome State Fault Refusal :=
  .next (s.runMatch (offsetOfByte o) x)

/-- MATCH.S (R116). -/
def execMatchS (o : Byte) (x : LenPart) (s : State) : Host.Outcome State Fault Refusal :=
  .next (s.runMatch (offsetOfByte o) x)

/-- MATCH.L (R117). -/
def execMatchL (o : BitVec 16) (x : LenPart) (s : State) : Host.Outcome State Fault Refusal :=
  .next (s.runMatch (offsetOfWord o) x)

/-- MATCH.CTX, two-layer (R114). -/
def execMatchCtx (sel : BitVec 3) (x : LenPart) (s : State) : Host.Outcome State Fault Refusal :=
  .next (s.runMatch (s.offsetOfSelector sel) x)

/-- MATCH.CTX, single-layer (R114). -/
def execMatchCtxSingle (sel : BitVec 3) (x : LenPart) (s : State) : Host.Outcome State Fault Refusal :=
  .next (s.runMatch (s.offsetOfSelector sel) x)

/-- MATCH.X.B8 (R115). -/
def execMatchXB8 (o : Byte) (x : LenPart) (s : State) : Host.Outcome State Fault Refusal :=
  .next (s.runMatch (offsetOfByte o) x)

/-- MATCH.X.S (R116). -/
def execMatchXS (o : Byte) (x : LenPart) (s : State) : Host.Outcome State Fault Refusal :=
  .next (s.runMatch (offsetOfByte o) x)

/-- MATCH.X.L (R117). -/
def execMatchXL (o : BitVec 16) (x : LenPart) (s : State) : Host.Outcome State Fault Refusal :=
  .next (s.runMatch (offsetOfWord o) x)

end Sys2Proof.Machine
end

