-- ==== Sys2Proof/Machine/Dispatch.lean ====
section
/-! DEFINITION. One arm for each instruction. -/
namespace Sys2Proof.Machine

/-- What an instruction does, its fields read from the stream or from CTRL. -/
def exec (i : Instr) (s : State) : Host.Outcome State Fault Refusal :=
  match i with
  | .litRaw v => Sys2Proof.Machine.execLitRaw v s
  | .litCode w => Sys2Proof.Machine.execLitCode w s
  | .litRank w => Sys2Proof.Machine.execLitRank w s
  | .matchB8 o x => Sys2Proof.Machine.execMatchB8 o x s
  | .matchS o x => Sys2Proof.Machine.execMatchS o x s
  | .matchL o x => Sys2Proof.Machine.execMatchL o x s
  | .matchCtx sel x => Sys2Proof.Machine.execMatchCtx sel x s
  | .matchCtxSingle sel x => Sys2Proof.Machine.execMatchCtxSingle sel x s
  | .matchXB8 o x => Sys2Proof.Machine.execMatchXB8 o x s
  | .matchXS o x => Sys2Proof.Machine.execMatchXS o x s
  | .matchXL o x => Sys2Proof.Machine.execMatchXL o x s
  | .cmdStart clear ie => Sys2Proof.Machine.execCmdStart clear ie s
  | .cmdClear ie => Sys2Proof.Machine.execCmdClear ie s
  | .cmdNop ie => Sys2Proof.Machine.execCmdNop ie s

end Sys2Proof.Machine
end

