-- ==== Sys2Proof/Machine/Flags.lean ====
section
/-! DEFINITION. The status the host sees: STATE, the error fields, irq, and the read values of the registers of REG
(spec/10_state.md R26 to R34). The block has no condition flags (spec/45_lz_decompressor_fsm.md). -/
namespace Sys2Proof.Machine

/-- STATUS.STATE (R31). -/
def Phase.code : Phase → BitVec 2
  | .idle => 0
  | .init => 1
  | .prefixCopy => 1
  | .align => 1
  | .table => 1
  | .build => 1
  | .token => 1
  | .done => 2
  | .error => 3

/-- ERR_KIND (R25). -/
def State.errKind (s : State) : BitVec 2 :=
  match s.err with
  | none => 0
  | some c => c.kind

/-- ERR_CAUSE (R25). -/
def State.errCause (s : State) : BitVec 4 :=
  match s.err with
  | none => 0
  | some c => c.code

/-- The interrupt line `irq = IE and (STATE = DONE or STATE = ERROR)` (R26, R136): a level, no state of its own. -/
def State.irq (s : State) : Bool := s.ie && (s.phase == .done || s.phase == .error)

/-- A read of CTRL (R28): `zext_32(IE) << 2`. -/
def State.ctrlWord (s : State) : Word := BitVec.ofNat 32 (4 * s.ie.toNat)

/-- STATUS (R31): STATE 1:0, ERR_KIND 3:2, ERR_CAUSE 11:8, the rest 0. -/
def State.statusWord (s : State) : Word :=
  (0 : BitVec 20) ++ s.errCause ++ (0 : BitVec 4) ++ s.errKind ++ s.phase.code

/-- CONFIG (R30): FORMAT 3:0, IMAGE 4, the rest 0. -/
def State.configWord (s : State) : Word := (0 : BitVec 27) ++ BitVec.ofBool s.image ++ s.format

/-- IN_POS when it is specified (R32): `ip[31:0]`. -/
def State.inPos (s : State) : Word := s.rd.ip.setWidth 32

/-- BITBUF when it is specified (R33): BUF 7:0, CNT 11:8, `ip[32]` 16, the rest 0. -/
def State.bitbufWord (s : State) : Word :=
  (0 : BitVec 15) ++ s.rd.ip.extractLsb' 32 1 ++ (0 : BitVec 4) ++ s.rd.cnt ++ s.rd.buf

/-- A read that is unspecified while BUSY (R32, R33, R151): then a free value. -/
def State.unlessBusy (s : State) (w : Word) : Word := if s.busy then Config.draw s.draws else w

/-- The registers whose reads are draws while BUSY: IN_POS, OUT_POS, BITBUF (R151). -/
def isPosition (off : BitVec 8) : Bool := off == 0x1C || off == 0x20 || off == 0x24

/-- What an aligned 32-bit read of REG returns (R27 to R34); a reserved offset reads 0. -/
def State.readReg (s : State) (off : BitVec 8) : Word :=
  if off = 0x00 then s.ctrlWord
  else if off = 0x04 then s.statusWord
  else if off = 0x08 then s.configWord
  else if off = 0x0C then s.baseLen
  else if off = 0x10 then s.stride
  else if off = 0x14 then s.inLen
  else if off = 0x18 then s.outLen
  else if off = 0x1C then s.unlessBusy s.inPos
  else if off = 0x20 then s.unlessBusy s.cur
  else if off = 0x24 then s.unlessBusy s.bitbufWord
  else 0

end Sys2Proof.Machine
end

