-- ==== Sys2Proof/Machine/HostPort.lean ====
section
/-! DEFINITION. The host's accesses other than a CTRL write: reads and writes of REG (spec/10_state.md R27 to R34,
spec/20_memory.md R43, spec/60_exceptions.md R141), of IN and OUT (R52, R53), and hardware reset (R143). -/
namespace Sys2Proof.Machine

/-- The access acts: 32 bits wide, at a multiple of 4 (R43). -/
abbrev aligned (off : BitVec 8) (size : Nat) : Prop := size = 4 ∧ off.toNat % 4 = 0

/-- The write is a command (R28): an aligned 32-bit write of CTRL. -/
abbrev isCtrlWrite (off : BitVec 8) (size : Nat) : Prop := aligned off size ∧ off = 0x00

/-- A host read of REG (R43, R151). Reads have no side effect on the block (R45); the model counts the free value that a
position read takes while BUSY. -/
def State.hostRead (s : State) (off : BitVec 8) (size : Nat) : State :=
  if aligned off size then
    { s with
      rdata := s.readReg off
      draws := if s.busy && isPosition off then s.draws + 1 else s.draws }
  else { s with rdata := 0 }

/-- An aligned 32-bit write of a register other than CTRL: the parameters (R29, R30); read-only and reserved offsets ignore
it (R31 to R34). -/
def State.writeParam (s : State) (off : BitVec 8) (w : Word) : State :=
  if off = 0x08 then { s with format := w.setWidth 4, image := w.getLsbD 4 }
  else if off = 0x0C then { s with baseLen := w }
  else if off = 0x10 then { s with stride := w }
  else if off = 0x14 then { s with inLen := w }
  else if off = 0x18 then { s with outLen := w }
  else s

/-- A host write of REG that is no command (R43, R141); ignored while BUSY (R152). -/
def State.hostWrite (s : State) (off : BitVec 8) (size : Nat) (w : Word) : State :=
  if aligned off size ∧ s.busy = false then s.writeParam off w else s

/-- A host read of OUT: a free value while BUSY (R53). -/
def State.hostReadOut (s : State) (a : Word) : State :=
  if s.busy then { s with rdata := ((Config.draw s.draws).setWidth 8).setWidth 32, draws := s.draws + 1 }
  else { s with rdata := (s.readOut a.toNat).setWidth 32 }

/-- A host read of IN. -/
def State.hostReadIn (s : State) (a : Word) : State :=
  { s with rdata := (Memory.read s.inMem a.toNat).setWidth 32 }

/-- A host write of IN: outside the model's domain while BUSY (R52, U22). -/
def State.hostWriteIn (s : State) (a : Word) (v : Byte) : Host.Outcome State Fault Refusal :=
  if s.busy then .refused .hostWroteInWhileBusy
  else .next { s with inMem := Memory.write s.inMem a.toNat v }

/-- A host write of OUT: outside the model's domain while BUSY (R53, U22). -/
def State.hostWriteOut (s : State) (a : Word) (v : Byte) : Host.Outcome State Fault Refusal :=
  if s.busy then .refused .hostWroteOutWhileBusy else .next (s.writeOut a.toNat v)

end Sys2Proof.Machine
end

