-- ==== Sys2Proof/Machine/Sequence.lean ====
section
/-! DEFINITION. The block's phases before the tokens (spec/45_lz_decompressor_fsm.md R102 to R106, R121; spec/42_canonical_code_table_decoder.md
R84 to R88), one micro-operation a step (notes/assumptions/10.md). -/
namespace Sys2Proof.Machine

/-- INIT: the parameter check of R102. -/
def State.initStep (s : State) : State :=
  if s.cfg.image = true ∧ s.cfg.base = 0 then s.raise .badParam else s.goto .prefixCopy

/-- PREFIX (R105, R106): one verbatim byte, or the way on when `min(B, U)` are out. -/
def State.prefixStep (s : State) : State :=
  if s.cur.toNat < min s.cfg.base.toNat s.cfg.outLen.toNat then
    s.fetch (readByte s.stream .prefixByte) fun v t => t.putByte v
  else if s.cur = s.cfg.outLen then s.goto .done
  else s.goto .align

/-- ALIGN (R76, R104): the skip, then the table if the variant has one. -/
def State.alignStep (s : State) : State :=
  { s with rd := align4 s.rd, phase := if s.cfg.useCode then .table else .token }

/-- `unpack(b)` (R85): the lengths of symbols `2i` and `2i+1`. -/
def unpack (n : NibbleOrder) (b : Byte) : BitVec 4 × BitVec 4 :=
  match n with
  | .highFirst => (b.extractLsb' 4 4, b.extractLsb' 0 4)
  | .lowFirst => (b.extractLsb' 0 4, b.extractLsb' 4 4)

/-- `LEN[k] <- v`. -/
def State.setLen (s : State) (k : Nat) (v : BitVec 4) : State := { s with lens := Sparse.set 0 s.lens k v }

/-- `LEN[k]`. -/
def State.len (s : State) (k : Nat) : BitVec 4 := Sparse.get 0 s.lens k

/-- TABLE (R84): one of the 128 length bytes, or the re-seed after them. -/
def State.tableStep (s : State) : State :=
  if s.tix < 128 then
    s.fetch (readByte s.stream .table) fun b t =>
      { (t.setLen (2 * t.tix) (unpack t.par.nibble b).1).setLen (2 * t.tix + 1) (unpack t.par.nibble b).2 with
        tix := t.tix + 1 }
  else s.fetch (reseed s.stream) fun _ t => { t with phase := .build, tix := 0 }

/-- `leaf(w, L) = w << (15 - L)` (R86). -/
def leaf (w L : Nat) : BitVec 15 := BitVec.ofNat 15 (w * 2 ^ (15 - L))

/-- `LUT[leaf(w, L)] <- (L, sym)` (R86 to R88). -/
def State.setLeaf (s : State) (w L sym : Nat) : State :=
  { s with lut := s.lut.set (leaf w L) ⟨BitVec.ofNat 4 L, BitVec.ofNat 8 sym⟩ }

/-- One symbol of `build_explicit()` (R87), or the end of the build. -/
def State.explicitStep (s : State) : State :=
  if s.tix < 256 then
    if s.len s.tix = 0 then { s with tix := s.tix + 1 }
    else
      s.fetch (readBits s.stream (s.len s.tix).toNat) fun w t =>
        { t.setLeaf w (t.len t.tix).toNat t.tix with tix := t.tix + 1 }
  else s.goto .token

/-- The code after the symbol at `tix` of R88: doubled when the last symbol of a length is past. -/
def nextCode (tix code : Nat) : Nat := if tix % 256 = 255 then 2 * code else code

/-- One pass of the two loops of `build_canonical()` (R88), length `tix / 256 + 1` and symbol `tix % 256`, or the end of the
build. -/
def State.canonicalStep (s : State) : State :=
  if s.tix < 15 * 256 then
    if (s.len (s.tix % 256)).toNat = s.tix / 256 + 1 then
      if 2 ^ (s.tix / 256 + 1) ≤ s.code then s.raise .kraft
      else
        { s.setLeaf s.code (s.tix / 256 + 1) (s.tix % 256) with
          tix := s.tix + 1, code := nextCode s.tix (s.code + 1) }
    else { s with tix := s.tix + 1, code := nextCode s.tix s.code }
  else s.goto .token

/-- BUILD (R84): the code build that `P_CODES` selects. -/
def State.buildStep (s : State) : State :=
  match s.par.codes with
  | .explicit => s.explicitStep
  | .canonical => s.canonicalStep

end Sys2Proof.Machine
end

