-- ==== Sys2Proof/Machine/Turn.lean ====
section
/-! DEFINITION. One turn of the block and one move of the host: what Step.lean chooses between. -/
namespace Sys2Proof.Machine

/-- TOKEN (R104, R107): while `cur < U`, decode one token and run it; a stream that ends inside the token raises the cause
that the decoder names (R68, R131); after a token with `cur = U` the decode is done (R121). -/
def State.tokenStep (s : State) : Host.Outcome State Fault Refusal :=
  if s.cur.toNat < s.cfg.outLen.toNat then
    match decodeToken s.par s.cfg s.lut s.stream s.rd with
    | .ok i r => mapNext State.settle (exec i (s.withReader r))
    | .error c r => .next ((s.withReader r).raise c)
  else .next (s.goto .done)

/-- One step of the FSM (R104, R121); in IDLE, DONE and ERROR it stands still. -/
def State.blockStep (s : State) : Host.Outcome State Fault Refusal :=
  match s.phase with
  | .idle => .next s
  | .init => .next s.initStep
  | .prefixCopy => .next s.prefixStep
  | .align => .next s.alignStep
  | .table => .next s.tableStep
  | .build => .next s.buildStep
  | .token => s.tokenStep
  | .done => .next s
  | .error => .next s

/-- One move of the host, taken off its list already. An aligned 32-bit write of CTRL is a command (R28, R124); `await`
while BUSY stays on the list. -/
def State.hostStep (s : State) : HostMove → Host.Outcome State Fault Refusal
  | .pass => s.blockStep
  | .await => if s.busy then { s with host := .await :: s.host }.blockStep else .next s
  | .read off size => .next (s.hostRead off size)
  | .write off size data =>
    if isCtrlWrite off size then exec (decodeCtrl data) s else .next (s.hostWrite off size data)
  | .readIn a => .next (s.hostReadIn a)
  | .writeIn a v => s.hostWriteIn a v
  | .readOut a => .next (s.hostReadOut a)
  | .writeOut a v => s.hostWriteOut a v
  | .reset => .next s.hardReset

end Sys2Proof.Machine
end

