-- ==== Sys2Proof/Machine/Step.lean ====
section
/-! DEFINITION. One step of the machine, and how a word of the opcode table is put where the next step fetches it. -/
namespace Sys2Proof.Machine

/-- One step: the host's next move, or, where it has none, one step of the block. -/
def step (s : State) : Host.Outcome State Fault Refusal :=
  match s.host with
  | [] => s.blockStep
  | m :: ms => { s with host := ms }.hostStep m

/-- The state with a word of the opcode table where the very next step fetches it (notes/assumptions/14.md): a CTRL word as
the host's next move; a token as the stream of a decode in phase TOKEN, under the configuration of `tableLatched nbits`, with an
empty bit buffer and the block's turn next. -/
def State.withFetchWord (s : State) (nbits w : Nat) : State :=
  if 32 ≤ nbits then { s with host := .write 0x00 4 (BitVec.ofNat 32 w) :: s.host }
  else
    { s with
      inMem := Memory.writeBytes s.inMem 0 (tableBytes nbits w)
      rd := ⟨0, 0, 0⟩
      cfg := tableLatched nbits
      phase := .token
      host := .pass :: s.host }

end Sys2Proof.Machine
end

