-- ==== Sys2Proof/Safety.lean ====
section
/-! DEFINITION. The terms that claims about the machine use: its invariant, what a run of the block is, when two decodes have the
same inputs, where a reader stands in a stream of fields, what a match's operands are, and the phase table of R121. -/
namespace Sys2Proof.Machine

/-! ## The invariant -/

/-- The free ranges of OUT are disjoint, rising, not empty, inside the 32-bit space, of failures that happened; a byte that is
known is in none of them. -/
structure DrawnOk (rs : List DrawnRange) (m : Memory) (draws : Nat) : Prop where
  rising : rs.Pairwise fun r q => r.hi ≤ q.lo
  ranges : ∀ r ∈ rs, r.lo < r.hi ∧ r.hi ≤ 2 ^ 32 ∧ r.draw < draws
  known : ∀ p ∈ m, drawnAt rs p.1 = none

/-- The phases in which the verbatim bytes are out and tokens are ahead. -/
def Phase.pastPrefix : Phase → Bool
  | .align => true
  | .table => true
  | .build => true
  | .token => true
  | .idle => false
  | .init => false
  | .prefixCopy => false
  | .done => false
  | .error => false

/-- The phases before the first bit or re-seed of a decode (R77). -/
def Phase.beforeBits : Phase → Bool
  | .init => true
  | .prefixCopy => true
  | .align => true
  | .table => true
  | .build => false
  | .token => false
  | .idle => false
  | .done => false
  | .error => false

/-- The machine's invariant: it holds after reset and every step keeps it. -/
structure State.Inv (s : State) : Prop where
  /-- IN is in canonical form. -/
  inWf : s.inMem.wf
  /-- OUT is in canonical form. -/
  outWf : s.outMem.wf
  /-- The free bytes of OUT are in canonical form. -/
  drawnOk : DrawnOk s.outDrawn s.outMem s.draws
  /-- CNT holds 0 to 8 (R16). -/
  cntLe : s.rd.cnt.toNat ≤ 8
  /-- The unconsumed bits are left-justified, zeros below them (R16). -/
  justified : s.rd.buf <<< s.rd.cnt.toNat = 0
  /-- `ip` is at most `roundup4(INLEN)` (R17). -/
  ipLe : s.rd.ip.toNat ≤ roundup4 s.cfg.inLen.toNat
  /-- While bits are left, `ip` is inside the input: only the alignment skip leaves it. -/
  cntInside : s.rd.cnt ≠ 0 → s.rd.ip.toNat ≤ s.cfg.inLen.toNat
  /-- Before the skip and after a finished decode, `ip` is inside the input (R17, R108). -/
  ipInside : s.phase = .init ∨ s.phase = .prefixCopy ∨ s.phase = .done → s.rd.ip.toNat ≤ s.cfg.inLen.toNat
  /-- The buffer is empty until the first bit or re-seed (R76, R77). -/
  bufEmpty : s.phase.beforeBits = true → s.rd.cnt = 0 ∧ s.rd.buf = 0
  /-- `cur <= U` (R18). -/
  curLe : s.cur.toNat ≤ s.cfg.outLen.toNat
  /-- A finished decode has written exactly U bytes (R108). -/
  doneCur : s.phase = .done → s.cur = s.cfg.outLen
  /-- The verbatim part stops at `min(B, U)` (R105). -/
  prefixCur : s.phase = .init ∨ s.phase = .prefixCopy → s.cur.toNat ≤ min s.cfg.base.toNat s.cfg.outLen.toNat
  /-- Tokens are decoded with `B <= cur < U` (R94, R107). -/
  tokenCur : s.phase.pastPrefix = true → s.cfg.base.toNat ≤ s.cur.toNat ∧ s.cur.toNat < s.cfg.outLen.toNat
  /-- Past INIT, `B` is at least 1 (R102). -/
  baseNonzero : s.phase = .prefixCopy ∨ s.phase.pastPrefix = true → s.cfg.base ≠ 0
  /-- The error record is set exactly in ERROR (R128, R134). -/
  errPhase : s.err ≠ none ↔ s.phase = .error
  /-- While BUSY the latched record equals the registers (R19). -/
  latched : s.busy = true → s.cfg = s.latch
  /-- OCT is the table of the latched B and S (R24, R98). -/
  octBuilt : s.busy = true → s.oct = offsetTable s.cfg.base.toNat s.cfg.stride.toNat
  /-- LEN has 256 entries (R21). -/
  lensWf : Sparse.WF 0 s.lens ∧ ∀ p ∈ s.lens, p.1 < 256
  /-- LUT has 2^15 entries, each at a leaf of its length (R22, R86). -/
  lutWf : Sparse.WF LutEntry.empty s.lut
    ∧ ∀ p ∈ s.lut, p.1 < 2 ^ 15 ∧ p.2.len ≠ 0 ∧ p.1 % 2 ^ (15 - p.2.len.toNat) = 0
  /-- RT has 256 rows, each a permutation of the bytes (R23, R95). -/
  rtWf : Sparse.WF rankRow s.rt ∧ ∀ p ∈ s.rt, p.1 < 256 ∧ p.2.Perm rankRow
  /-- The table's loop has not begun before TABLE. -/
  tixZero : s.phase = .init ∨ s.phase = .prefixCopy ∨ s.phase = .align → s.tix = 0
  /-- The table's loop is at most at its end (R84, R87, R88). -/
  tixLe : (s.phase = .table → s.tix ≤ 128) ∧ (s.phase = .build → s.tix ≤ 15 * 256)
  /-- The canonical code begins at 0: it is 0 before BUILD and when BUILD is entered (R88). -/
  codeZero : s.phase.beforeBits = true ∨ (s.phase = .build ∧ s.tix = 0) → s.code = 0
  /-- No OUT address behind the cursor holds a free value (notes/assumptions/6.md): what is read back is known (R40). -/
  noneFree : s.busy = true ∨ s.phase = .done → ∀ a < s.cur.toNat, drawnAt s.outDrawn a = none

/-! ## Runs of the block -/

/-- `n` steps of the block, the host doing nothing. -/
def blockRun : Nat → State → Host.Outcome State Fault Refusal
  | 0, s => .next s
  | n + 1, s =>
    match s.blockStep with
    | .next t => blockRun n t
    | .fault r => .fault r
    | .refused r => .refused r

/-- The two states hold the same decode under way: equal in everything that a decode reads, IN below INLEN, OUT behind the
cursor, LEN where it has been written (R144). -/
structure Agree (s t : State) : Prop where
  par : s.par = t.par
  rd : s.rd = t.rd
  cur : s.cur = t.cur
  cfg : s.cfg = t.cfg
  phase : s.phase = t.phase
  lut : s.lut = t.lut
  rt : s.rt = t.rt
  oct : s.oct = t.oct
  err : s.err = t.err
  tix : s.tix = t.tix
  code : s.code = t.code
  lensTable : s.phase = .table → ∀ k < 2 * s.tix, s.len k = t.len k
  lensBuild : s.phase = .build → ∀ k < 256, s.len k = t.len k
  input : ∀ a < s.cfg.inLen.toNat, Memory.read s.inMem a = Memory.read t.inMem a
  output : s.phase ≠ .error → ∀ a < s.cur.toNat, s.readOut a = t.readOut a

/-- The two states have the same inputs for the next decode: the parameter registers, CONFIG and IN[0 .. IN_LEN-1] (R144). -/
structure SameInputs (s t : State) : Prop where
  par : s.par = t.par
  format : s.format = t.format
  image : s.image = t.image
  baseLen : s.baseLen = t.baseLen
  stride : s.stride = t.stride
  inLen : s.inLen = t.inLen
  outLen : s.outLen = t.outLen
  input : ∀ a < s.inLen.toNat, Memory.read s.inMem a = Memory.read t.inMem a

/-! ## Streams of fields -/

/-- The reader stands in the stream where the fields `fs` follow: the bits it holds are their first bits, and IN holds the
rest from `ip` on as `layOut` lays them out (R56). -/
structure AtFields (st : Stream) (r : Reader) (fs : List Field) : Prop where
  cntLe : r.cnt.toNat ≤ 8
  held : r.buf.toNat = packBits 8 (nextBits r.cnt.toNat fs)
  inside : r.ip.toNat + (layOut st.refill r.cnt.toNat fs).length ≤ st.len.toNat
  bytes : ∀ j < (layOut st.refill r.cnt.toNat fs).length,
    st.byteAt (r.ip.toNat + j) = (layOut st.refill r.cnt.toNat fs).getD j 0

/-- Two streams that differ at most at and past INLEN. -/
structure SameStream (st st' : Stream) : Prop where
  len : st.len = st'.len
  refill : st.refill = st'.refill
  bytes : ∀ a < st.len.toNat, st.byteAt a = st'.byteAt a

/-! ## Match tokens -/

/-- The offset, baseline and length part of each of the eight match tokens (R59, R64). -/
def matchOperands (s : State) : Instr → Option (MatchOffset × LenPart)
  | .matchB8 o x => some (offsetOfByte o, x)
  | .matchS o x => some (offsetOfByte o, x)
  | .matchL o x => some (offsetOfWord o, x)
  | .matchCtx sel x => some (s.offsetOfSelector sel, x)
  | .matchCtxSingle sel x => some (s.offsetOfSelector sel, x)
  | .matchXB8 o x => some (offsetOfByte o, x)
  | .matchXS o x => some (offsetOfByte o, x)
  | .matchXL o x => some (offsetOfWord o, x)
  | .litRaw _ => none
  | .litCode _ => none
  | .litRank _ => none
  | .cmdStart _ _ => none
  | .cmdClear _ => none
  | .cmdNop _ => none

/-- R118 in its own words: the length is the baseline for `E = 1`, the baseline plus `g` for a gamma field of `g`. -/
abbrev LengthIs (base : Nat) (x : LenPart) (n : Nat) : Prop :=
  (x = .base ∧ n = base) ∨ ∃ g : Word, x = .ext g ∧ n = base + g.toNat

/-- What a match that passes its checks leaves (R120): `n` bytes more, byte `j` of them the one that stood `j mod offset`
past the start of the copied part, every other byte of OUT and everything but OUT and the cursor as before. -/
structure CopyResult (s t : State) (offset n : Nat) : Prop where
  cursor : t.cur.toNat = s.cur.toNat + n
  copied : ∀ j < n, t.readOut (s.cur.toNat + j) = s.readOut (s.cur.toNat - offset + j % offset)
  others : ∀ a, a < s.cur.toNat ∨ s.cur.toNat + n ≤ a → t.readOut a = s.readOut a
  frame : t = { s with cur := t.cur, outMem := t.outMem, outDrawn := t.outDrawn }

/-- What a literal that completes leaves: its byte at the cursor, the cursor one further, every other byte of OUT and
everything but OUT and the cursor as before. -/
structure LiteralResult (s t : State) (v : Byte) : Prop where
  cursor : t.cur.toNat = s.cur.toNat + 1
  stored : t.readOut s.cur.toNat = v
  others : ∀ a, a ≠ s.cur.toNat → t.readOut a = s.readOut a
  frame : t = { s with cur := t.cur, outMem := t.outMem, outDrawn := t.outDrawn }

/-- What a failure with cause `c` leaves (R131, R132): the error record and ERROR, `OUT[0..U-1]` free values, the rest of OUT
and everything else as before. -/
structure FailureResult (s t : State) (c : Cause) : Prop where
  record : t.err = some c
  phase : t.phase = .error
  free : ∀ a < s.cfg.outLen.toNat, t.readOut a = Config.outDraw s.draws a
  others : ∀ a, s.cfg.outLen.toNat ≤ a → t.readOut a = s.readOut a
  frame : t = { s with err := t.err, phase := t.phase, outMem := t.outMem, outDrawn := t.outDrawn, draws := t.draws }

/-! ## Phases -/

/-- The rows of R121 that the block makes by itself, and standing still outside a decode. BUILD is the sub-phase of TABLE.
Staying in PREFIX, TABLE and BUILD, and TABLE to BUILD, are no rows of R121: they come from the model's granularity
(notes/assumptions/10.md). -/
def phaseTable : List (Phase × Phase) :=
  [(.idle, .idle), (.done, .done), (.error, .error),
   (.init, .error), (.init, .prefixCopy),
   (.prefixCopy, .prefixCopy), (.prefixCopy, .done), (.prefixCopy, .align), (.prefixCopy, .error),
   (.align, .table), (.align, .token),
   (.table, .table), (.table, .build), (.table, .error),
   (.build, .build), (.build, .token), (.build, .error),
   (.token, .token), (.token, .done), (.token, .error)]

end Sys2Proof.Machine
end

