-- ==== Sys2Proof/Certificates/Slice0/Obligations.lean ====
section
/-! DEFINITION. The statements for the provers, from the numbered rules of spec/. -/

open Sys2Proof Sys2Proof.Machine

/-! ## Reset and invariant -/

/-- R36, R143: hardware reset, in any phase, puts every piece of the block's state to the value of R36's table where that
gives one, and changes neither IN nor OUT. -/
def Obligations.HardResetGivesTheResetTable : Prop :=
  ∀ (s : State) (ms : List HostMove), ∃ t, step { s with host := .reset :: ms } = .next t ∧
    t.phase = .idle ∧ t.ie = false ∧ t.format = 0 ∧ t.image = false ∧ t.baseLen = 0 ∧ t.stride = 0 ∧
    t.inLen = 0 ∧ t.outLen = 0 ∧ t.errKind = 0 ∧ t.errCause = 0 ∧ t.rd.ip = 0 ∧ t.cur = 0 ∧ t.rd.buf = 0 ∧
    t.rd.cnt = 0 ∧ t.irq = false ∧ t.inMem = s.inMem ∧ (∀ a, t.readOut a = s.readOut a) ∧ t.host = ms

/-- After reset every register of REG reads 0 (the reset column of R27). -/
def Obligations.ResetRegistersReadZero : Prop :=
  ∀ off : BitVec 8, State.reset.readReg off = 0

/-- The invariant holds after reset. It rests on the model's reset values of the latched record and the tables
(notes/assumptions/2.md and 3.md). -/
def Obligations.InvHoldsAtReset : Prop := State.reset.Inv

/-- Every step, the host's moves included, keeps the invariant: canonical memories and tables, the cursors in range, the rank
rows permutations, the phase's facts. -/
def Obligations.StepKeepsInv : Prop :=
  ∀ s t : State, s.Inv → step s = .next t → t.Inv

/-- From a state of the invariant no step stops, but for a host that writes IN or OUT while BUSY, which the model refuses
(notes/assumptions/13.md). -/
def Obligations.StepStopsOnlyOnHostMemoryWrites : Prop :=
  ∀ s : State, s.Inv →
    (∃ t, step s = .next t) ∨
    (s.busy = true ∧ ∃ a v ms,
      (s.host = .writeIn a v :: ms ∧ step s = .refused .hostWroteInWhileBusy) ∨
      (s.host = .writeOut a v :: ms ∧ step s = .refused .hostWroteOutWhileBusy))

/-! ## The step and the decoder -/

/-- A step is the host's next move, or the block's step where the host has none or passes, in every phase; a host that waits
lets the block step while BUSY. In TOKEN the block's step runs the decoded instruction: exec of it after its fields are read,
then the move to DONE where the output is complete. The host's moves are the model's form (notes/assumptions/8.md). -/
def Obligations.StepRunsTheDecodedToken : Prop :=
  (∀ s : State, s.host = [] → step s = s.blockStep) ∧
  (∀ (s : State) (m : HostMove) (ms : List HostMove), s.host = m :: ms → step s = { s with host := ms }.hostStep m) ∧
  (∀ s : State, s.hostStep .pass = s.blockStep) ∧
  (∀ s : State, (s.busy = true → s.hostStep .await = { s with host := .await :: s.host }.blockStep) ∧
    (s.busy = false → s.hostStep .await = .next s)) ∧
  (∀ (s : State) (i : Instr) (r : Reader), s.phase = .token → s.cur.toNat < s.cfg.outLen.toNat →
    decodeToken s.par s.cfg s.lut s.stream s.rd = .ok i r →
    s.blockStep = mapNext State.settle (exec i (s.withReader r)) ∧
    (s.host = [] → step s = mapNext State.settle (exec i (s.withReader r))) ∧
    (∀ ms, step { s with host := .pass :: ms } =
      mapNext State.settle (exec i ({ s with host := ms }.withReader r))))

/-- A step on an aligned 32-bit write of CTRL runs the command that the word decodes to, in every state. -/
def Obligations.StepRunsTheCtrlWrite : Prop :=
  ∀ (s : State) (w : Word) (ms : List HostMove),
    step { s with host := .write 0x00 4 w :: ms } = exec (decodeCtrl w) { s with host := ms }

/-- Decode and encode agree on every token, wherever in a byte it begins and whatever follows it: where the fields of a
well-formed token of the variant stand next in the stream, the decoder reads that token and stops where the rest stands. -/
def Obligations.DecodeReadsBackTheEncodedFields : Prop :=
  ∀ (par : Params) (c : Latched) (lut : Lut) (st : Stream) (r : Reader) (i : Instr) (rest : List Field),
    i.wf = true → i.selected par c = true → i.readable lut = true →
    AtFields st r (i.fields par ++ rest) →
    ∃ r', decodeToken par c lut st r = .ok i r' ∧ AtFields st r' rest

/-- Decode and encode agree on bytes: the bytes that the encoder gives for a token, standing in IN at `ip`, decode to it from
an empty bit buffer, and all of them are taken. -/
def Obligations.DecodeReadsBackTheEncodedBytes : Prop :=
  ∀ (par : Params) (c : Latched) (lut : Lut) (st : Stream) (r : Reader) (i : Instr) (bs : List Byte),
    i.wf = true → i.selected par c = true → i.readable lut = true →
    encode par i = .stream bs → st.refill = par.refill → r.cnt = 0 → r.buf = 0 →
    r.ip.toNat + bs.length ≤ st.len.toNat → (∀ j < bs.length, st.byteAt (r.ip.toNat + j) = bs.getD j 0) →
    ∃ r', decodeToken par c lut st r = .ok i r' ∧ r'.ip.toNat = r.ip.toNat + bs.length

/-- Decode and encode agree on commands. -/
def Obligations.CommandWordsReadBack : Prop :=
  ∀ i : Instr, i.isCommand = true → ∃ w, encode Params.reference i = .ctrl w ∧ decodeCtrl w = i

/-- R124: how a CTRL write combines. IE from bit 2 in every state; START wins over CLEAR; bits 31:3 are ignored. -/
def Obligations.CtrlWriteCombines : Prop :=
  ∀ w : Word,
    (w.getLsbD 0 = true → decodeCtrl w = .cmdStart (w.getLsbD 1) (w.getLsbD 2)) ∧
    (w.getLsbD 0 = false → w.getLsbD 1 = true → decodeCtrl w = .cmdClear (w.getLsbD 2)) ∧
    (w.getLsbD 0 = false → w.getLsbD 1 = false → decodeCtrl w = .cmdNop (w.getLsbD 2)) ∧
    (∀ v : Word, v.setWidth 3 = w.setWidth 3 → decodeCtrl v = decodeCtrl w)

/-- Words written out from the encoding tables decode to their instructions, a token's pattern from its most significant bit
(R67): a sanity statement. Under which configuration a pattern is read, by its length, is the model's choice
(notes/assumptions/14.md). -/
def Obligations.SampleWordsDecode : Prop :=
  decodeTableWord 1 1 = some (.litRaw 0) ∧
  decodeTableWord 1 0 = some (.matchB8 0 .overflow) ∧
  decodeTableWord 2 1 = some (.matchS 0 .overflow) ∧
  decodeTableWord 2 0 = some (.matchL 0 .overflow) ∧
  decodeTableWord 3 1 = some (.matchXS 0 .overflow) ∧
  decodeTableWord 3 0 = some (.matchXL 0 .overflow) ∧
  decodeTableWord 8 1 = some (.litRaw 0) ∧
  decodeTableWord 8 0 = some (.matchB8 0 .overflow) ∧
  decodeTableWord 32 1 = some (.cmdStart false false) ∧
  decodeTableWord 32 6 = some (.cmdClear true) ∧
  decodeTableWord 32 4 = some (.cmdNop true)

/-- The decoder gives only tokens of the variant (R66), with operands in range, whose code word is one that R89 stops at. -/
def Obligations.DecodedTokensBelongToTheVariant : Prop :=
  ∀ (par : Params) (c : Latched) (lut : Lut) (st : Stream) (r r' : Reader) (i : Instr),
    decodeToken par c lut st r = .ok i r' →
    i.selected par c = true ∧ i.wf = true ∧ i.readable lut = true

/-- A token is cut off only as TruncatedStream: RAW, REFILL, or RESEED where the parameters have an extra re-seed point. -/
def Obligations.DecodeRaisesOnlyTruncation : Prop :=
  ∀ (par : Params) (c : Latched) (lut : Lut) (st : Stream) (r r' : Reader) (e : Cause),
    decodeToken par c lut st r = .error e r' →
    e = .raw ∨ e = .refill ∨
      (e = .reseed ∧ (par.reseedAfterOffset = true ∨ par.reseedAfterLiteral = true))

/-- R17, R39: reading a token never moves `ip` back, and moves it only by fetches inside the input; CNT stays 0 to 8 and the
unread bits left-justified. It holds of a token that decodes and of one that is cut off. -/
def Obligations.TokenReadsMoveForwardInsideTheInput : Prop :=
  ∀ (par : Params) (c : Latched) (lut : Lut) (st : Stream) (r r' : Reader),
    ((∃ i, decodeToken par c lut st r = .ok i r') ∨ (∃ e, decodeToken par c lut st r = .error e r')) →
    r.ip.toNat ≤ r'.ip.toNat ∧ (r'.ip = r.ip ∨ r'.ip.toNat ≤ st.len.toNat) ∧
    (r.cnt.toNat ≤ 8 → r'.cnt.toNat ≤ 8) ∧
    (r.buf <<< r.cnt.toNat = 0 → r'.buf <<< r'.cnt.toNat = 0)

/-- The bytes of IN at and past INLEN do not affect a token (R39: a read there is not made). -/
def Obligations.DecodeIgnoresInputPastItsEnd : Prop :=
  ∀ (par : Params) (c : Latched) (lut : Lut) (st st' : Stream) (r : Reader), SameStream st st' →
    decodeToken par c lut st r = decodeToken par c lut st' r

/-! ## The bit reader -/

/-- R71: a raw read gives the byte at `ip` and moves `ip` alone, or raises its cause with nothing moved. -/
def Obligations.RawReadTakesTheByteAtIp : Prop :=
  ∀ (st : Stream) (c : Cause) (r : Reader),
    (r.ip.toNat < st.len.toNat →
      ∃ r', readByte st c r = .ok (st.byteAt r.ip.toNat) r' ∧
        r'.ip.toNat = r.ip.toNat + 1 ∧ r'.buf = r.buf ∧ r'.cnt = r.cnt) ∧
    (st.len.toNat ≤ r.ip.toNat → readByte st c r = .error c r)

/-- R72: `read_bit` gives BUF bit 7 of a buffer that holds bits, of a fresh byte where it holds none, and raises REFILL where
there is none to fetch; under EAGER the last bit fetches the next byte if there is one. -/
def Obligations.ReadBitTakesTheTopBit : Prop :=
  ∀ (st : Stream) (r : Reader),
    (r.cnt = 0 → st.len.toNat ≤ r.ip.toNat → readBit st r = .error .refill r) ∧
    (r.cnt = 0 → r.ip.toNat < st.len.toNat →
      readBit st r = readBit st ⟨st.byteAt r.ip.toNat, 8, r.ip + 1⟩) ∧
    (r.cnt ≠ 0 → ¬(st.refill = .eager ∧ r.cnt = 1 ∧ r.ip.toNat < st.len.toNat) →
      readBit st r = .ok (r.buf.getLsbD 7) ⟨r.buf <<< 1, r.cnt - 1, r.ip⟩) ∧
    (r.cnt = 1 → st.refill = .eager → r.ip.toNat < st.len.toNat →
      readBit st r = .ok (r.buf.getLsbD 7) ⟨st.byteAt r.ip.toNat, 8, r.ip + 1⟩)

/-- R41, R73: under LAZY, eight bits from an empty buffer are the byte at `ip`, bit 7 first; the buffer is then empty. -/
def Obligations.EightBitsAreAByteMsbFirst : Prop :=
  ∀ (st : Stream) (r : Reader), st.refill = .lazy → r.cnt = 0 → r.ip.toNat < st.len.toNat →
    readBits st 8 r = .ok (st.byteAt r.ip.toNat).toNat ⟨0, 0, r.ip + 1⟩

/-- R74: a re-seed loads the byte at `ip` whatever the buffer held, or raises RESEED with nothing moved. -/
def Obligations.ReseedLoadsAFreshByte : Prop :=
  ∀ (st : Stream) (r : Reader),
    (r.ip.toNat < st.len.toNat →
      ∃ r', reseed st r = .ok () r' ∧ r'.buf = st.byteAt r.ip.toNat ∧ r'.cnt = 8 ∧ r'.ip.toNat = r.ip.toNat + 1) ∧
    (st.len.toNat ≤ r.ip.toNat → reseed st r = .error .reseed r)

/-! ## Tables -/

/-- R85, with the 128 bytes of R84: a length byte fills the entries of symbols `2i` and `2i+1`, in the order of `P_NIBBLE`, and
changes `ip` and the loop count besides; where the input has ended the decode fails with TABLE. The loop count is the model's
(notes/assumptions/10.md). -/
def Obligations.LengthByteFillsTwoEntries : Prop :=
  ∀ s : State, s.phase = .table → s.tix < 128 →
    (s.rd.ip.toNat < s.cfg.inLen.toNat →
      ∃ t, s.blockStep = .next t ∧ t.tix = s.tix + 1 ∧ t.rd.ip.toNat = s.rd.ip.toNat + 1 ∧
        (s.par.nibble = .highFirst →
          t.len (2 * s.tix) = (Memory.read s.inMem s.rd.ip.toNat).extractLsb' 4 4 ∧
          t.len (2 * s.tix + 1) = (Memory.read s.inMem s.rd.ip.toNat).extractLsb' 0 4) ∧
        (s.par.nibble = .lowFirst →
          t.len (2 * s.tix) = (Memory.read s.inMem s.rd.ip.toNat).extractLsb' 0 4 ∧
          t.len (2 * s.tix + 1) = (Memory.read s.inMem s.rd.ip.toNat).extractLsb' 4 4) ∧
        (∀ k, k ≠ 2 * s.tix → k ≠ 2 * s.tix + 1 → t.len k = s.len k) ∧
        t = { s with rd := { s.rd with ip := t.rd.ip }, lens := t.lens, tix := t.tix }) ∧
    (s.cfg.inLen.toNat ≤ s.rd.ip.toNat → ∃ t, s.blockStep = .next t ∧ FailureResult s t .table)

/-- After the 128 length bytes the block re-seeds and goes to the code build (R84), or fails with RESEED; the split into steps is
the model's (notes/assumptions/10.md). -/
def Obligations.TableEndsWithAReseed : Prop :=
  ∀ s : State, s.phase = .table → 128 ≤ s.tix →
    (s.rd.ip.toNat < s.cfg.inLen.toNat → ∃ t, s.blockStep = .next t ∧ t.phase = .build ∧
      t.rd.buf = Memory.read s.inMem s.rd.ip.toNat ∧ t.rd.cnt = 8 ∧ t.rd.ip.toNat = s.rd.ip.toNat + 1 ∧
      t = { s with rd := t.rd, phase := .build, tix := 0 }) ∧
    (s.cfg.inLen.toNat ≤ s.rd.ip.toNat → ∃ t, s.blockStep = .next t ∧ FailureResult s t .reseed)

/-- R86, R87: one symbol of the explicit build: with a length it reads that many bits and stores `(L, s)` at the left-justified
leaf alone; without one it reads nothing; after the last symbol come the tokens. The split into steps is the model's
(notes/assumptions/10.md). -/
def Obligations.ExplicitBuildStoresTheLeaf : Prop :=
  ∀ s : State, s.phase = .build → s.par.codes = .explicit →
    (s.tix < 256 → s.len s.tix = 0 → s.blockStep = .next { s with tix := s.tix + 1 }) ∧
    (∀ w r, s.tix < 256 → s.len s.tix ≠ 0 → readBits s.stream (s.len s.tix).toNat s.rd = .ok w r →
      ∃ t, s.blockStep = .next t ∧
        t.lut.get (BitVec.ofNat 15 (w <<< (15 - (s.len s.tix).toNat))) = ⟨s.len s.tix, BitVec.ofNat 8 s.tix⟩ ∧
        (∀ i, i ≠ BitVec.ofNat 15 (w <<< (15 - (s.len s.tix).toNat)) → t.lut.get i = s.lut.get i) ∧
        t = { s with rd := r, lut := t.lut, tix := s.tix + 1 }) ∧
    (∀ e r, s.tix < 256 → s.len s.tix ≠ 0 → readBits s.stream (s.len s.tix).toNat s.rd = .error e r →
      ∃ t, s.blockStep = .next t ∧ FailureResult (s.withReader r) t e) ∧
    (256 ≤ s.tix → s.blockStep = .next { s with phase := .token })

/-- R88: one pass of the canonical build, whose order across lengths is the spec's own general knowledge
(notes/assumptions/20.md): a symbol of the length at hand takes the next code, or fails with KRAFT where the code needs more
bits; after the last symbol of a length the code doubles; after the last length come the tokens. No bit is read. -/
def Obligations.CanonicalBuildAssignsTheNextCode : Prop :=
  ∀ s : State, s.phase = .build → s.par.codes = .canonical →
    let L := s.tix / 256 + 1
    let sym := s.tix % 256
    (s.tix < 15 * 256 → (s.len sym).toNat ≠ L → ∃ t, s.blockStep = .next t ∧
      t = { s with tix := s.tix + 1, code := if sym = 255 then 2 * s.code else s.code }) ∧
    (s.tix < 15 * 256 → (s.len sym).toNat = L → 2 ^ L ≤ s.code → ∃ t, s.blockStep = .next t ∧ FailureResult s t .kraft) ∧
    (s.tix < 15 * 256 → (s.len sym).toNat = L → s.code < 2 ^ L → ∃ t, s.blockStep = .next t ∧
      (∀ i, t.lut.get i = if i.toNat = s.code <<< (15 - L) then ⟨BitVec.ofNat 4 L, BitVec.ofNat 8 sym⟩ else s.lut.get i) ∧
      t = { s with lut := t.lut, tix := s.tix + 1, code := if sym = 255 then 2 * (s.code + 1) else s.code + 1 }) ∧
    (15 * 256 ≤ s.tix → s.blockStep = .next { s with phase := .token })

/-- R93: `lookup_and_promote(c, k)` returns rank `k` of row `c`, moves it to rank 0, shifts ranks 0 to `k - 1` up by one, keeps the
higher ranks and every other row. -/
def Obligations.PromotionMovesTheByteToTheFront : Prop :=
  ∀ (rt : Sparse (List Byte)) (c k : Byte), (Sparse.get rankRow rt c.toNat).length = 256 →
    let row := Sparse.get rankRow rt c.toNat
    let row' := Sparse.get rankRow (lookupAndPromote rt c k).2 c.toNat
    (lookupAndPromote rt c k).1 = row.getD k.toNat 0 ∧
    (∀ j < 256, row'.getD j 0 =
      if k.toNat < j then row.getD j 0 else if j = 0 then row.getD k.toNat 0 else row.getD (j - 1) 0) ∧
    (∀ d, d ≠ c.toNat → Sparse.get rankRow (lookupAndPromote rt c k).2 d = Sparse.get rankRow rt d)

/-- R95: promotion keeps every row a permutation of the bytes, and the promoted byte is then at rank 0 of its row. -/
def Obligations.RankRowsStayPermutations : Prop :=
  ∀ (rt : Sparse (List Byte)) (c k : Byte), (∀ d, (Sparse.get rankRow rt d).Perm rankRow) →
    (∀ d, (Sparse.get rankRow (lookupAndPromote rt c k).2 d).Perm rankRow) ∧
    (lookupAndPromote (lookupAndPromote rt c k).2 c 0).1 = (lookupAndPromote rt c k).1 ∧
    (∀ d, Sparse.get rankRow (lookupAndPromote (lookupAndPromote rt c k).2 c 0).2 d =
      Sparse.get rankRow (lookupAndPromote rt c k).2 d)

/-- R97: the eight distances, in both branches; every one is at least `B` and, for 32-bit operands, fits 35 bits. -/
def Obligations.OffsetTableDistances : Prop :=
  ∀ b s : Nat,
    (∀ k : Fin 8, k.val < 3 → (offsetTable b s)[k] = (k.val + 1) * b) ∧
    (s ≤ 5 * b → ∀ k : Fin 8, (offsetTable b s)[k] = (k.val + 1) * b) ∧
    (5 * b < s → (offsetTable b s)[3] + b = s ∧ (offsetTable b s)[4] = s ∧ (offsetTable b s)[5] = s + b ∧
      (offsetTable b s)[6] = s + 2 * b ∧ (offsetTable b s)[7] = 2 * s) ∧
    (∀ k : Fin 8, b ≤ (offsetTable b s)[k]) ∧
    (b < 2 ^ 32 → s < 2 ^ 32 → ∀ k : Fin 8, (offsetTable b s)[k] < 2 ^ 35)

/-! ## Literals -/

/-- R109: LIT.RAW writes its byte at the cursor. -/
def Obligations.RawLiteralWritesItsByte : Prop :=
  ∀ (s : State) (v : Byte), s.cur.toNat < s.cfg.outLen.toNat →
    ∃ t, exec (.litRaw v) s = .next t ∧ LiteralResult s t v

/-- R110: LIT.CODE writes the symbol of its code word's entry. -/
def Obligations.CodeLiteralWritesItsSymbol : Prop :=
  ∀ (s : State) (w : CodeWord), s.cur.toNat < s.cfg.outLen.toNat → w.len ≠ 0 →
    (s.lut.get w.bits).len.toNat = w.len →
    ∃ t, exec (.litCode w) s = .next t ∧ LiteralResult s t (s.lut.get w.bits).sym

/-- R111: LIT.RANK writes the byte at its rank in the row of the context `OUT[cur - B]`, and promotes it there. -/
def Obligations.RankLiteralWritesAndPromotes : Prop :=
  ∀ (s : State) (w : CodeWord), s.cur.toNat < s.cfg.outLen.toNat → s.cfg.base.toNat ≤ s.cur.toNat → w.len ≠ 0 →
    (s.lut.get w.bits).len.toNat = w.len →
    let c := s.readOut (s.cur.toNat - s.cfg.base.toNat)
    let k := (s.lut.get w.bits).sym
    ∃ t, exec (.litRank w) s = .next t ∧
      LiteralResult { s with rt := (lookupAndPromote s.rt c k).2 } t ((s.rankRowAt c).getD k.toNat 0)

/-- R89: a code word of 15 bits whose entry does not match ends the decode with NO_CODE, before any byte is written. For the
words of fewer bits that match no entry, and the word of none, which the decoder never gives, the same end is the model's own
totalisation (notes/assumptions/11.md). -/
def Obligations.LiteralWithoutAnEntryFails : Prop :=
  ∀ (s : State) (w : CodeWord), (s.lut.get w.bits).len.toNat ≠ w.len ∨ w.len = 0 →
    (∃ t, exec (.litCode w) s = .next t ∧ FailureResult s t .noCode) ∧
    (∃ t, exec (.litRank w) s = .next t ∧ FailureResult s t .noCode)

/-- R37, R47, R94: where a literal cannot stand in a decode, at or past U or with its rank context before OUT[0], it stops with a
fault of the model by name. No step reaches it: StepStopsOnlyOnHostMemoryWrites. -/
def Obligations.LiteralsStopOutsideADecode : Prop :=
  ∀ (s : State) (v : Byte) (w : CodeWord), w.len ≠ 0 → (s.lut.get w.bits).len.toNat = w.len →
    (s.cfg.outLen.toNat ≤ s.cur.toNat →
      exec (.litRaw v) s = .fault .outPastEnd ∧ exec (.litCode w) s = .fault .outPastEnd) ∧
    (s.cur.toNat < s.cfg.base.toNat → exec (.litRank w) s = .fault .contextBeforeStart) ∧
    (s.cfg.base.toNat ≤ s.cur.toNat → s.cfg.outLen.toNat ≤ s.cur.toNat →
      exec (.litRank w) s = .fault .outPastEnd)

/-! ## Matches -/

/-- R115, R116, R118, R120: the four one-byte forms copy `n` bytes from `o` behind the cursor, `n` being 2 or 2 plus the gamma value,
when the offset is not 0, not before OUT[0], and the length fits. -/
def Obligations.ByteOffsetMatchesCopy : Prop :=
  ∀ (s : State) (o : Byte) (x : LenPart) (n : Nat), LengthIs 2 x n → o ≠ 0 → o.toNat ≤ s.cur.toNat →
    s.cur.toNat + n ≤ s.cfg.outLen.toNat →
    (∃ t, exec (.matchB8 o x) s = .next t ∧ CopyResult s t o.toNat n) ∧
    (∃ t, exec (.matchS o x) s = .next t ∧ CopyResult s t o.toNat n) ∧
    (∃ t, exec (.matchXB8 o x) s = .next t ∧ CopyResult s t o.toNat n) ∧
    (∃ t, exec (.matchXS o x) s = .next t ∧ CopyResult s t o.toNat n)

/-- R117, R118, R120: the two long forms, baseline 3. -/
def Obligations.WordOffsetMatchesCopy : Prop :=
  ∀ (s : State) (o : BitVec 16) (x : LenPart) (n : Nat), LengthIs 3 x n → o ≠ 0 → o.toNat ≤ s.cur.toNat →
    s.cur.toNat + n ≤ s.cfg.outLen.toNat →
    (∃ t, exec (.matchL o x) s = .next t ∧ CopyResult s t o.toNat n) ∧
    (∃ t, exec (.matchXL o x) s = .next t ∧ CopyResult s t o.toNat n)

/-- R114, R118, R120: the contextual forms copy from `OCT[SEL]` behind the cursor, baseline 1, or 2 where `B = 1`. -/
def Obligations.ContextualMatchesCopy : Prop :=
  ∀ (s : State) (sel : BitVec 3) (x : LenPart) (n : Nat),
    LengthIs (if s.cfg.base = 1 then 2 else 1) x n →
    s.oct[sel.toNat]'sel.isLt ≠ 0 → s.oct[sel.toNat]'sel.isLt ≤ s.cur.toNat →
    s.cur.toNat + n ≤ s.cfg.outLen.toNat →
    (∃ t, exec (.matchCtx sel x) s = .next t ∧ CopyResult s t (s.oct[sel.toNat]'sel.isLt) n) ∧
    (∃ t, exec (.matchCtxSingle sel x) s = .next t ∧ CopyResult s t (s.oct[sel.toNat]'sel.isLt) n)

/-- R119 with R81 and R135: the failures of the eight match tokens, in their order, each before any byte is copied. -/
def Obligations.MatchChecksRunInOrder : Prop :=
  ∀ (s : State) (i : Instr) (m : MatchOffset) (x : LenPart), matchOperands s i = some (m, x) →
    (x = .overflow → ∃ t, exec i s = .next t ∧ FailureResult s t .gammaOverflow) ∧
    (∀ n, LengthIs m.base x n →
      (m.offset = 0 → ∃ t, exec i s = .next t ∧ FailureResult s t .offsetZero) ∧
      (m.offset ≠ 0 → s.cur.toNat < m.offset → ∃ t, exec i s = .next t ∧ FailureResult s t .offsetBeforeStart) ∧
      (m.offset ≠ 0 → m.offset ≤ s.cur.toNat → s.cfg.outLen.toNat - s.cur.toNat < n →
        ∃ t, exec i s = .next t ∧ FailureResult s t .lengthOverrun))

/-! ## Commands and the interrupt line -/

/-- R103 with R91, R92, R100, R101, R122: START outside BUSY latches the parameters, derives the variant, clears the cursors, the
buffer, the error record and LUT, fills every rank row, builds OCT, sets IE and goes to INIT; nothing else changes but the
model's loop variables (notes/assumptions/10.md), which become 0: `code <- 0` of R88 among them. LEN is kept: R91 leaves it
unspecified until the table read of the same decode, and the model keeps what it held (notes/assumptions/3.md). -/
def Obligations.StartInitialisesADecode : Prop :=
  ∀ (s : State) (clear ie : Bool), s.busy = false →
    ∃ t, exec (.cmdStart clear ie) s = .next t ∧
      t.cfg = ⟨s.format, s.image, if s.image then s.baseLen else 1, s.stride, s.outLen, s.inLen⟩ ∧
      (t.cfg.offsetMode = if s.format.getLsbD 3 then .oneByte else .twoByte) ∧
      t.cfg.useRank = s.format.getLsbD 2 ∧ t.cfg.useCode = s.format.getLsbD 1 ∧
      t.cfg.useCtx = (s.format.getLsbD 0 && s.image) ∧
      t.rd = ⟨0, 0, 0⟩ ∧ t.cur = 0 ∧ t.err = none ∧ t.phase = .init ∧ t.ie = ie ∧
      t.tix = 0 ∧ t.code = 0 ∧
      (∀ i, t.lut.get i = LutEntry.empty) ∧
      (∀ c, ∀ r < 256, (t.rankRowAt c).getD r 0 = 0xFF - BitVec.ofNat 8 r) ∧
      t.oct = offsetTable (if s.image then s.baseLen else (1 : Word)).toNat s.stride.toNat ∧
      t = { s with cfg := t.cfg, rd := t.rd, cur := t.cur, err := t.err, phase := t.phase, ie := t.ie, lut := t.lut,
                   rt := t.rt, oct := t.oct, tix := t.tix, code := t.code }

/-- R122: START while BUSY is ignored, but for IE. -/
def Obligations.BusyStartSetsOnlyIe : Prop :=
  ∀ (s : State) (clear ie : Bool), s.busy = true → exec (.cmdStart clear ie) s = .next { s with ie := ie }

/-- R123: CLEAR takes DONE and ERROR to IDLE with an empty error record, keeps the positions, the buffer and OUT, and does
nothing in another phase; IE is set in every phase. -/
def Obligations.ClearAcknowledges : Prop :=
  ∀ (s : State) (ie : Bool),
    (s.phase = .done ∨ s.phase = .error →
      exec (.cmdClear ie) s = .next { s with ie := ie, phase := .idle, err := none }) ∧
    (s.phase ≠ .done → s.phase ≠ .error → exec (.cmdClear ie) s = .next { s with ie := ie })

/-- CMD.NOP (R124) sets IE and nothing else. -/
def Obligations.NopSetsOnlyIe : Prop :=
  ∀ (s : State) (ie : Bool), exec (.cmdNop ie) s = .next { s with ie := ie }

/-- R136: irq is high exactly with IE in DONE and ERROR; it is low after CLEAR, after START and after IE = 0. -/
def Obligations.IrqFollowsIeAndPhase : Prop :=
  (∀ s : State, s.irq = true ↔ s.ie = true ∧ (s.phase = .done ∨ s.phase = .error)) ∧
  (∀ (s t : State) (ie : Bool), exec (.cmdClear ie) s = .next t → t.irq = false) ∧
  (∀ (s t : State) (clear ie : Bool), exec (.cmdStart clear ie) s = .next t → t.irq = false) ∧
  (∀ s t : State, exec (.cmdNop false) s = .next t → t.irq = false)

/-! ## Failures -/

/-- R131, R132: a token that the stream cuts off enters ERROR with the decoder's cause, the reader as it is at the raise and
`OUT[0..U-1]` free; nothing else changes. -/
def Obligations.CutOffTokenEntersError : Prop :=
  ∀ (s : State) (c : Cause) (r : Reader), s.phase = .token → s.cur.toNat < s.cfg.outLen.toNat →
    decodeToken s.par s.cfg s.lut s.stream s.rd = .error c r →
    ∃ t, s.blockStep = .next t ∧ FailureResult (s.withReader r) t c

/-- The codes of R128, as STATUS shows them after a failure (R31): STATE 3, the kind, the cause. -/
def Obligations.StatusShowsTheCause : Prop :=
  ∀ (s : State) (c : Cause) (kind code : Nat),
    (c, kind, code) ∈ [(Cause.prefixByte, 1, 1), (.table, 1, 2), (.reseed, 1, 3), (.refill, 1, 4), (.raw, 1, 5),
      (.badParam, 2, 8), (.noCode, 2, 9), (.offsetZero, 2, 10), (.offsetBeforeStart, 2, 11), (.lengthOverrun, 2, 12),
      (.gammaOverflow, 2, 13), (.kraft, 2, 14)] →
    (s.raise c).statusWord = BitVec.ofNat 32 (3 + 4 * kind + 256 * code)

/-! ## The sequence -/

/-- R102: image mode with B = 0 fails at once with BAD_PARAM; anything else goes on to PREFIX. -/
def Obligations.InitChecksBaseLength : Prop :=
  ∀ s : State, s.phase = .init →
    (s.cfg.image = true → s.cfg.base = 0 → ∃ t, s.blockStep = .next t ∧ FailureResult s t .badParam) ∧
    (s.cfg.image = false ∨ s.cfg.base ≠ 0 → s.blockStep = .next { s with phase := .prefixCopy })

/-- R105, R106: PREFIX copies the byte at `ip` to OUT while fewer than `min(B, U)` are out, fails with PREFIX where the input
ends, and then goes to DONE if the output is complete, else to ALIGN. -/
def Obligations.PrefixCopiesVerbatim : Prop :=
  ∀ s : State, s.phase = .prefixCopy →
    (s.cur.toNat < min s.cfg.base.toNat s.cfg.outLen.toNat → s.rd.ip.toNat < s.cfg.inLen.toNat →
      ∃ t, s.blockStep = .next t ∧ t.rd.ip.toNat = s.rd.ip.toNat + 1 ∧
        LiteralResult { s with rd := { s.rd with ip := t.rd.ip } } t (Memory.read s.inMem s.rd.ip.toNat)) ∧
    (s.cur.toNat < min s.cfg.base.toNat s.cfg.outLen.toNat → s.cfg.inLen.toNat ≤ s.rd.ip.toNat →
      ∃ t, s.blockStep = .next t ∧ FailureResult s t .prefixByte) ∧
    (min s.cfg.base.toNat s.cfg.outLen.toNat ≤ s.cur.toNat →
      s.blockStep = .next { s with phase := if s.cur = s.cfg.outLen then .done else .align })

/-- R76: ALIGN moves `ip` to the least multiple of 4 at or past it, reads nothing, leaves the buffer; the table comes next in the
variants that have one (R104). -/
def Obligations.AlignRoundsTheCursorUp : Prop :=
  ∀ s : State, s.phase = .align → s.rd.ip.toNat ≤ 2 ^ 32 →
    ∃ t, s.blockStep = .next t ∧ t.rd.ip.toNat % 4 = 0 ∧ s.rd.ip.toNat ≤ t.rd.ip.toNat ∧
      t.rd.ip.toNat < s.rd.ip.toNat + 4 ∧
      t = { s with rd := { s.rd with ip := t.rd.ip }, phase := if s.cfg.useCode then .table else .token }

/-- R121: every step of the block makes a transition of `phaseTable`; there is no way out of a BUSY phase but DONE and ERROR. Of
its pairs, staying in PREFIX, TABLE and BUILD and going from TABLE to BUILD are the model's granularity, no rows of R121
(notes/assumptions/10.md). In IDLE, DONE and ERROR the step changes nothing: no further write of OUT (R49), and every register
keeps its value (R146). -/
def Obligations.BlockFollowsThePhaseTable : Prop :=
  (∀ s t : State, s.blockStep = .next t → (s.phase, t.phase) ∈ phaseTable) ∧
  (∀ s : State, s.busy = false → s.blockStep = .next s)

/-- R108: a block step into DONE leaves OUT_POS = U, IN_POS = `ip` inside the input, STATUS 2, BITBUF the bits left, and no byte
of OUT below U a free value (notes/assumptions/6.md). The bytes that the step adds are written: whatever OUT held from the
cursor on, the step ends with the same `OUT[0..U-1]`. From U on OUT is as before. -/
def Obligations.DoneMeansTheWholeOutput : Prop :=
  ∀ s t : State, s.Inv → s.busy = true → s.blockStep = .next t → t.phase = .done →
    t.readReg 0x20 = t.cfg.outLen ∧ t.readReg 0x1C = t.rd.ip.setWidth 32 ∧ t.rd.ip.toNat ≤ t.cfg.inLen.toNat ∧
    t.readReg 0x04 = 2 ∧ t.readReg 0x24 = t.bitbufWord ∧ (∀ a < t.cfg.outLen.toNat, drawnAt t.outDrawn a = none) ∧
    (∀ (m : Memory) (d : List DrawnRange),
      (∀ a < s.cur.toNat, { s with outMem := m, outDrawn := d }.readOut a = s.readOut a) →
      ∃ t', { s with outMem := m, outDrawn := d }.blockStep = .next t' ∧ t'.phase = .done ∧
        ∀ a < t.cfg.outLen.toNat, t'.readOut a = t.readOut a) ∧
    (∀ a, t.cfg.outLen.toNat ≤ a → t.readOut a = s.readOut a)

/-- R107, R125: a token that does not fail moves the output cursor forward, and never past U. -/
def Obligations.TokensMakeProgress : Prop :=
  ∀ s t : State, s.phase = .token → s.cur.toNat < s.cfg.outLen.toNat → s.blockStep = .next t →
    t.phase = .error ∨ (s.cur.toNat < t.cur.toNat ∧ t.cur.toNat ≤ s.cfg.outLen.toNat)

/-- R125: from every state of the invariant in a BUSY phase the block, left alone, reaches DONE or ERROR within `U + 4000`
steps, the model's own (notes/assumptions/10.md). -/
def Obligations.EveryDecodeEnds : Prop :=
  ∀ s : State, s.Inv → s.busy = true →
    ∃ n t, n ≤ s.cfg.outLen.toNat + 4000 ∧ blockRun n s = .next t ∧ (t.phase = .done ∨ t.phase = .error)

/-- R40, R54: in every state a step of the block leaves IN, the host registers, IE, the parameters and the host's moves as they
are, and every byte of OUT at or past U. -/
def Obligations.BlockWritesOnlyItsOutput : Prop :=
  ∀ s t : State, s.blockStep = .next t →
    t.inMem = s.inMem ∧ t.format = s.format ∧ t.image = s.image ∧ t.baseLen = s.baseLen ∧ t.stride = s.stride ∧
    t.inLen = s.inLen ∧ t.outLen = s.outLen ∧ t.latch = s.latch ∧ t.ie = s.ie ∧ t.par = s.par ∧ t.host = s.host ∧
    t.rdata = s.rdata ∧ t.cfg = s.cfg ∧ t.oct = s.oct ∧
    ∀ a, s.cfg.outLen.toNat ≤ a → t.readOut a = s.readOut a

/-- R144: a decode depends on the parameter registers, CONFIG and IN[0 .. IN_LEN-1] alone. Agreement of two decodes (same phase,
cursors, buffer, tables read, error record, and same OUT behind the cursor outside ERROR) is kept by one block step of each;
START establishes it, whatever the machines did before; so two decodes started alike run alike, step for step. -/
def Obligations.DecodeDependsOnItsInputsOnly : Prop :=
  (∀ s s' t : State, s.Inv → s'.Inv → Agree s s' → s.blockStep = .next t →
    ∃ t', s'.blockStep = .next t' ∧ Agree t t') ∧
  (∀ (s s' : State) (clear ie clear' ie' : Bool), s.busy = false → s'.busy = false → SameInputs s s' →
    ∃ u u', exec (.cmdStart clear ie) s = .next u ∧ exec (.cmdStart clear' ie') s' = .next u' ∧ Agree u u') ∧
  (∀ (s s' : State) (clear ie clear' ie' : Bool) (n : Nat) (t : State), s.Inv → s'.Inv → s.busy = false → s'.busy = false →
    SameInputs s s' →
    (∃ u, exec (.cmdStart clear ie) s = .next u ∧ blockRun n u = .next t) →
    ∃ u' t', exec (.cmdStart clear' ie') s' = .next u' ∧ blockRun n u' = .next t' ∧ Agree t t')

/-! ## The host's accesses -/

/-- R154, with R53 for a read of OUT; that a read of IN while BUSY is answered is DEDUCED (notes/assumptions/19.md): while BUSY,
the host's register accesses and its reads of IN and OUT change nothing of the decode: at most IE, the data
returned and the count of free values, the model's own (notes/assumptions/7.md and 9.md). -/
def Obligations.HostAccessesCannotChangeADecode : Prop :=
  ∀ (s : State) (off : BitVec 8) (size : Nat) (w a : Word), s.busy = true →
    ∀ m ∈ [HostMove.read off size, .write off size w, .readIn a, .readOut a],
      ∃ t, s.hostStep m = .next t ∧ t = { s with ie := t.ie, rdata := t.rdata, draws := t.draws }

/-- R29, R30: outside BUSY an aligned 32-bit write of a parameter register changes that register alone, CONFIG its five bits, and
the register reads back what was written. -/
def Obligations.ParametersReadBack : Prop :=
  ∀ (s : State) (w : Word), s.busy = false →
    s.hostStep (.write 0x08 4 w) = .next { s with format := w.extractLsb' 0 4, image := w.getLsbD 4 } ∧
    s.hostStep (.write 0x0C 4 w) = .next { s with baseLen := w } ∧
    s.hostStep (.write 0x10 4 w) = .next { s with stride := w } ∧
    s.hostStep (.write 0x14 4 w) = .next { s with inLen := w } ∧
    s.hostStep (.write 0x18 4 w) = .next { s with outLen := w } ∧
    (s.hostWrite 0x08 4 w).readReg 0x08 = w &&& 0x1F ∧ (s.hostWrite 0x0C 4 w).readReg 0x0C = w ∧
    (s.hostWrite 0x10 4 w).readReg 0x10 = w ∧ (s.hostWrite 0x14 4 w).readReg 0x14 = w ∧
    (s.hostWrite 0x18 4 w).readReg 0x18 = w

/-- R152: while BUSY a write of any offset but CTRL changes nothing. -/
def Obligations.BusyParameterWritesAreIgnored : Prop :=
  ∀ (s : State) (off : BitVec 8) (size : Nat) (w : Word), s.busy = true → off ≠ 0x00 →
    s.hostStep (.write off size w) = .next s

/-- R43: an access that is not a 32-bit one at a multiple of 4 reads 0 and writes nothing. -/
def Obligations.UnalignedAccessesDoNothing : Prop :=
  ∀ (s : State) (off : BitVec 8) (size : Nat) (w : Word), ¬(size = 4 ∧ off.toNat % 4 = 0) →
    s.hostStep (.read off size) = .next { s with rdata := 0 } ∧
    s.hostStep (.write off size w) = .next s

/-- R34, with the read-only registers of R31 to R33: writes of STATUS, IN_POS, OUT_POS, BITBUF and of the reserved offsets have no
effect; the reserved offsets read 0. -/
def Obligations.ReadOnlyAndReservedOffsets : Prop :=
  (∀ (s : State) (off : BitVec 8) (w : Word), off = 0x04 ∨ 0x1C ≤ off →
    s.hostStep (.write off 4 w) = .next s) ∧
  (∀ (s : State) (off : BitVec 8), 0x28 ≤ off → s.readReg off = 0)

/-- A host's aligned 32-bit read returns the register (R43) and has no side effect on the block (R45): outside BUSY the data
returned alone changes, while BUSY the count of free values too (both the model's own, notes/assumptions/7.md and 9.md). The
fields of CTRL, STATUS, CONFIG and BITBUF stand at their places (R28, R30, R31, R33); outside BUSY, IN_POS reads `ip[31:0]` and
OUT_POS `cur` (R32), in IDLE, DONE and ERROR alike. -/
def Obligations.RegisterFieldsStandAtTheirBits : Prop :=
  ∀ s : State,
    (∀ off : BitVec 8, off.toNat % 4 = 0 → ∃ t, s.hostStep (.read off 4) = .next t ∧ t.rdata = s.readReg off ∧
      t = { s with rdata := t.rdata, draws := t.draws } ∧ (s.busy = false → t.draws = s.draws)) ∧
    (s.busy = false → s.readReg 0x1C = s.rd.ip.extractLsb' 0 32 ∧ s.readReg 0x20 = s.cur) ∧
    (s.readReg 0x00).getLsbD 2 = s.ie ∧ (∀ k, k ≠ 2 → (s.readReg 0x00).getLsbD k = false) ∧
    (s.readReg 0x04).extractLsb' 0 2 = s.phase.code ∧ (s.readReg 0x04).extractLsb' 2 2 = s.errKind ∧
    (s.readReg 0x04).extractLsb' 8 4 = s.errCause ∧ (s.readReg 0x04).extractLsb' 4 4 = 0 ∧
    (s.readReg 0x04).extractLsb' 12 20 = 0 ∧
    (s.readReg 0x08).extractLsb' 0 4 = s.format ∧ (s.readReg 0x08).getLsbD 4 = s.image ∧
    (s.readReg 0x08).extractLsb' 5 27 = 0 ∧
    (s.busy = false → (s.readReg 0x24).extractLsb' 0 8 = s.rd.buf ∧ (s.readReg 0x24).extractLsb' 8 4 = s.rd.cnt ∧
      (s.readReg 0x24).extractLsb' 12 4 = 0 ∧ (s.readReg 0x24).getLsbD 16 = s.rd.ip.getLsbD 32 ∧
      (s.readReg 0x24).extractLsb' 17 15 = 0)

/-- R151: while BUSY STATUS reads 1, CTRL, CONFIG and the parameters read their values, the positions read free values, the
whole word of BITBUF with its reserved bits included: that form is the model's choice (notes/assumptions/7.md). -/
def Obligations.ReadsWhileBusy : Prop :=
  ∀ s : State, s.Inv → s.busy = true →
    s.readReg 0x04 = 1 ∧ s.readReg 0x00 = BitVec.ofNat 32 (4 * s.ie.toNat) ∧
    s.readReg 0x08 = BitVec.ofNat 32 (s.format.toNat + 16 * s.image.toNat) ∧ s.readReg 0x0C = s.baseLen ∧ s.readReg 0x10 = s.stride ∧ s.readReg 0x14 = s.inLen ∧
    s.readReg 0x18 = s.outLen ∧ s.readReg 0x1C = Config.draw s.draws ∧ s.readReg 0x20 = Config.draw s.draws ∧
    s.readReg 0x24 = Config.draw s.draws

/-- Outside BUSY the host's writes of IN and OUT store their byte and nothing else, and a read returns it; while BUSY the writes
are refused (R52, R53, R142, notes/assumptions/13.md) and a read of OUT is a free value (notes/assumptions/7.md). -/
def Obligations.HostMemoryAccesses : Prop :=
  ∀ (s : State) (a : Word) (v : Byte),
    (s.busy = false →
      (∃ t, s.hostStep (.writeIn a v) = .next t ∧ t.hostStep (.readIn a) = .next { t with rdata := v.setWidth 32 } ∧
        (∀ b, b ≠ a.toNat → Memory.read t.inMem b = Memory.read s.inMem b) ∧ t = { s with inMem := t.inMem }) ∧
      (∃ t, s.hostStep (.writeOut a v) = .next t ∧ t.hostStep (.readOut a) = .next { t with rdata := v.setWidth 32 } ∧
        (∀ b, b ≠ a.toNat → t.readOut b = s.readOut b) ∧
        t = { s with outMem := t.outMem, outDrawn := t.outDrawn })) ∧
    (s.busy = true →
      s.hostStep (.writeIn a v) = .refused .hostWroteInWhileBusy ∧
      s.hostStep (.writeOut a v) = .refused .hostWroteOutWhileBusy ∧
      s.hostStep (.readOut a) =
        .next { s with rdata := ((Config.draw s.draws).setWidth 8).setWidth 32, draws := s.draws + 1 })
end

