-- ==== Sys2Proof/Laws/BitReader.lean ====
section
/-! SUPPORT. What the reads of the stream can do: sequencing, a raw read, a bit, a re-seed, in each of their cases. -/
namespace Sys2Proof.Machine

/-- A read that goes on: its first part did, then its second from where the first stopped. -/
theorem Fetch.bind_ok {α β : Type} {f : Fetch α} {g : α → Fetch β} {r r' : Reader} {b : β}
    (h : (f >>= g) r = .ok b r') : ∃ a q, f r = .ok a q ∧ g a q = .ok b r' := by
  change EStateM.bind f g r = _ at h
  unfold EStateM.bind at h
  split at h
  · exact ⟨_, _, by assumption, h⟩
  · cases h

/-- A read that raises: its first part did, or its second did. -/
theorem Fetch.bind_error {α β : Type} {f : Fetch α} {g : α → Fetch β} {r r' : Reader} {c : Cause}
    (h : (f >>= g) r = .error c r') : f r = .error c r' ∨ ∃ a q, f r = .ok a q ∧ g a q = .error c r' := by
  change EStateM.bind f g r = _ at h
  unfold EStateM.bind at h
  split at h
  · exact .inr ⟨_, _, by assumption, h⟩
  · rename_i hf
    cases h
    exact .inl hf

/-- Running the first part of a read that goes on. -/
theorem Fetch.bind_eq {α β : Type} {f : Fetch α} {g : α → Fetch β} {r q : Reader} {a : α}
    (h : f r = .ok a q) : (f >>= g) r = g a q := by
  change EStateM.bind f g r = _
  unfold EStateM.bind
  rw [h]

/-- Running the first part of a read that raises. -/
theorem Fetch.bind_eq_error {α β : Type} {f : Fetch α} {g : α → Fetch β} {r q : Reader} {c : Cause}
    (h : f r = .error c q) : (f >>= g) r = .error c q := by
  change EStateM.bind f g r = _
  unfold EStateM.bind
  rw [h]

@[simp] theorem Fetch.pure_eq {α : Type} (a : α) (r : Reader) : (pure a : Fetch α) r = .ok a r := rfl

/-- `read_byte` (R71): the byte at `ip`, or its cause with nothing moved. -/
theorem readByte_cases (st : Stream) (c : Cause) (r : Reader) :
    (st.hasByte r ∧ readByte st c r = .ok (st.byteAt r.ip.toNat) { r with ip := r.ip + 1 }) ∨
    (¬st.hasByte r ∧ readByte st c r = .error c r) := by
  unfold readByte
  split
  · exact .inl ⟨by assumption, rfl⟩
  · exact .inr ⟨by assumption, rfl⟩

/-- `read_bit` (R72): from a buffer that holds bits, from a fresh byte, or REFILL with nothing moved. -/
theorem readBit_cases (st : Stream) (r : Reader) :
    (r.cnt ≠ 0 ∧ readBit st r = .ok (takeBit st r).1 (takeBit st r).2) ∨
    (r.cnt = 0 ∧ st.hasByte r ∧
      readBit st r = .ok (takeBit st (loadBuf st r)).1 (takeBit st (loadBuf st r)).2) ∨
    (r.cnt = 0 ∧ ¬st.hasByte r ∧ readBit st r = .error .refill r) := by
  unfold readBit
  split
  · split
    · exact .inr (.inl ⟨by assumption, by assumption, rfl⟩)
    · exact .inr (.inr ⟨by assumption, by assumption, rfl⟩)
  · exact .inl ⟨by assumption, rfl⟩

/-- `reseed` (R74): a fresh byte, the bits left over lost, or RESEED with nothing moved. -/
theorem reseed_cases (st : Stream) (r : Reader) :
    (st.hasByte r ∧ reseed st r = .ok () (loadBuf st r)) ∨
    (¬st.hasByte r ∧ reseed st r = .error .reseed r) := by
  unfold reseed
  split
  · exact .inl ⟨by assumption, rfl⟩
  · exact .inr ⟨by assumption, rfl⟩

/-- The eager refill (R72) loads a byte or leaves the registers. -/
theorem eagerRefill_cases (st : Stream) (r : Reader) :
    (st.refill = .eager ∧ r.cnt = 0 ∧ st.hasByte r ∧ eagerRefill st r = loadBuf st r) ∨
    (¬(st.refill = .eager ∧ r.cnt = 0 ∧ st.hasByte r) ∧ eagerRefill st r = r) := by
  unfold eagerRefill
  split
  · exact .inl ⟨by tauto, by tauto, by tauto, rfl⟩
  · exact .inr ⟨by assumption, rfl⟩

@[simp] theorem loadBuf_cnt (st : Stream) (r : Reader) : (loadBuf st r).cnt = 8 := rfl
@[simp] theorem loadBuf_ip (st : Stream) (r : Reader) : (loadBuf st r).ip = r.ip + 1 := rfl
@[simp] theorem loadBuf_buf (st : Stream) (r : Reader) : (loadBuf st r).buf = st.byteAt r.ip.toNat := rfl
@[simp] theorem takeBit_fst (st : Stream) (r : Reader) : (takeBit st r).1 = r.buf.msb := rfl

/-- A fetch moves `ip` by one and never wraps (R17). -/
theorem Stream.hasByte_next {st : Stream} {r : Reader} (h : st.hasByte r) : (r.ip + 1).toNat = r.ip.toNat + 1 := by
  have h1 : r.ip.toNat < st.len.toNat := h
  have := st.len.isLt
  have h2 : (1 : BitVec 33).toNat = 1 := rfl
  rw [BitVec.toNat_add, h2]
  omega

/-- `roundup4` (R10): a multiple of 4, at least `n`, less than `n + 4`. -/
theorem roundup4_spec (n : Nat) : roundup4 n % 4 = 0 ∧ n ≤ roundup4 n ∧ roundup4 n < n + 4 := by
  unfold roundup4
  omega

end Sys2Proof.Machine
end

