-- ==== Sys2Proof/Laws/Sparse.lean ====
section
/-! SUPPORT. The laws of sparse maps and byte memories: what a read gives after a write, and that every operation keeps the
canonical form. The read laws hold of every list, canonical or not. -/
namespace Sys2Proof.Machine

variable {α : Type} {d : α} {m : Sparse α}

theorem Sparse.get_erase_same (m : Sparse α) (a : Nat) : Sparse.get d (Sparse.erase m a) a = d := by
  induction m with
  | nil => rfl
  | cons p m ih =>
    obtain ⟨k, v⟩ := p
    by_cases h : k = a
    · simpa [Sparse.erase, h] using ih
    · have h' : a ≠ k := fun e => h e.symm
      simpa [Sparse.erase, Sparse.get, h, h'] using ih

theorem Sparse.get_erase_other (m : Sparse α) {a b : Nat} (h : b ≠ a) :
    Sparse.get d (Sparse.erase m a) b = Sparse.get d m b := by
  induction m with
  | nil => rfl
  | cons p m ih =>
    obtain ⟨k, v⟩ := p
    by_cases hk : k = a
    · subst hk
      simpa [Sparse.erase, Sparse.get, h] using ih
    · have : Sparse.erase ((k, v) :: m) a = (k, v) :: Sparse.erase m a := by simp [Sparse.erase, hk]
      simp only [this, Sparse.get, ih]

theorem Sparse.get_insert (m : Sparse α) (a b : Nat) (v : α) (hm : ∀ p ∈ m, p.1 ≠ a) :
    Sparse.get d (Sparse.insert m a v) b = if b = a then v else Sparse.get d m b := by
  induction m with
  | nil => rfl
  | cons p m ih =>
    obtain ⟨k, w⟩ := p
    have hk : k ≠ a := hm (k, w) (by simp)
    have ih := ih fun p hp => hm p (by simp [hp])
    by_cases hlt : a < k
    · simp [Sparse.insert, hlt, Sparse.get]
    · by_cases hb : b = k
      · subst hb
        simp [Sparse.insert, hlt, Sparse.get, hk]
      · simp [Sparse.insert, hlt, Sparse.get, hb, ih]

theorem Sparse.erase_ne (m : Sparse α) (a : Nat) : ∀ p ∈ Sparse.erase m a, p.1 ≠ a := by
  intro p hp
  simpa using (List.mem_filter.mp hp).2

variable [DecidableEq α]

/-- What a sparse map holds after an update: the new value at the key, the old one elsewhere. -/
theorem Sparse.get_set (m : Sparse α) (a b : Nat) (v : α) :
    Sparse.get d (Sparse.set d m a v) b = if b = a then v else Sparse.get d m b := by
  unfold Sparse.set
  split
  · rename_i hv
    subst hv
    split
    · rename_i hb
      subst hb
      exact Sparse.get_erase_same m b
    · rename_i hb
      exact Sparse.get_erase_other m hb
  · rw [Sparse.get_insert _ _ _ _ (Sparse.erase_ne m a)]
    split
    · rfl
    · rename_i hb
      exact Sparse.get_erase_other m hb

@[simp] theorem Sparse.get_set_same (m : Sparse α) (a : Nat) (v : α) :
    Sparse.get d (Sparse.set d m a v) a = v := by
  simp [Sparse.get_set]

theorem Sparse.get_set_other (m : Sparse α) {a b : Nat} (v : α) (h : b ≠ a) :
    Sparse.get d (Sparse.set d m a v) b = Sparse.get d m b := by
  simp [Sparse.get_set, h]

omit [DecidableEq α] in
theorem Sparse.mem_insert {p : Nat × α} {m : Sparse α} {a : Nat} {v : α} :
    p ∈ Sparse.insert m a v ↔ p = (a, v) ∨ p ∈ m := by
  induction m with
  | nil => simp [Sparse.insert]
  | cons q m ih =>
    obtain ⟨k, w⟩ := q
    by_cases hlt : a < k
    · simp [Sparse.insert, hlt]
    · simp only [Sparse.insert, hlt, if_false, List.mem_cons, ih]
      tauto

/-- The entries after an update: the new one, if it is no default, and the old ones of other keys. -/
theorem Sparse.mem_set {p : Nat × α} {m : Sparse α} {a : Nat} {v : α} (h : p ∈ Sparse.set d m a v) :
    (p = (a, v) ∧ v ≠ d) ∨ (p ∈ m ∧ p.1 ≠ a) := by
  unfold Sparse.set at h
  split at h
  · exact .inr ⟨(List.mem_filter.mp h).1, Sparse.erase_ne m a p h⟩
  · rename_i hv
    rcases Sparse.mem_insert.mp h with h | h
    · exact .inl ⟨h, hv⟩
    · exact .inr ⟨(List.mem_filter.mp h).1, Sparse.erase_ne m a p h⟩

omit [DecidableEq α] in
theorem Sparse.insert_rising {m : Sparse α} {a : Nat} {v : α} (hm : m.Pairwise fun p q => p.1 < q.1)
    (ha : ∀ p ∈ m, p.1 ≠ a) : (Sparse.insert m a v).Pairwise fun p q => p.1 < q.1 := by
  induction m with
  | nil => simp [Sparse.insert]
  | cons q m ih =>
    obtain ⟨k, w⟩ := q
    rw [List.pairwise_cons] at hm
    have hk : k ≠ a := ha (k, w) (by simp)
    by_cases hlt : a < k
    · simp only [Sparse.insert, hlt, if_true, List.pairwise_cons, List.mem_cons]
      refine ⟨?_, hm⟩
      rintro p (rfl | hp)
      · exact hlt
      · exact hlt.trans (hm.1 p hp)
    · simp only [Sparse.insert, hlt, if_false, List.pairwise_cons]
      refine ⟨?_, ih hm.2 fun p hp => ha p (by simp [hp])⟩
      intro p hp
      rcases Sparse.mem_insert.mp hp with rfl | hp
      · simp only
        omega
      · exact hm.1 p hp

/-- An update keeps the canonical form. -/
theorem Sparse.set_wf {m : Sparse α} (h : Sparse.WF d m) (a : Nat) (v : α) : Sparse.WF d (Sparse.set d m a v) := by
  refine ⟨?_, ?_⟩
  · unfold Sparse.set
    split
    · exact h.1.filter _
    · exact Sparse.insert_rising (h.1.filter _) (Sparse.erase_ne m a)
  · intro p hp
    rcases Sparse.mem_set hp with ⟨rfl, hv⟩ | ⟨hp, -⟩
    · exact hv
    · exact h.2 p hp

omit [DecidableEq α] in
/-- A listed entry of a canonical map is what a read gives. -/
theorem Sparse.get_of_mem {m : Sparse α} (h : m.Pairwise fun p q => p.1 < q.1) {p : Nat × α} (hp : p ∈ m) :
    Sparse.get d m p.1 = p.2 := by
  induction m with
  | nil => simp at hp
  | cons q m ih =>
    obtain ⟨k, w⟩ := q
    rw [List.pairwise_cons] at h
    rcases List.mem_cons.mp hp with rfl | hp
    · simp [Sparse.get]
    · have := h.1 p hp
      simp only [Sparse.get]
      rw [if_neg (by simp only at this; omega)]
      exact ih h.2 hp

omit [DecidableEq α] in
/-- A read gives the default or a listed value. -/
theorem Sparse.get_cases (m : Sparse α) (a : Nat) : Sparse.get d m a = d ∨ (a, Sparse.get d m a) ∈ m := by
  induction m with
  | nil => exact .inl rfl
  | cons q m ih =>
    obtain ⟨k, w⟩ := q
    by_cases h : a = k
    · subst h
      exact .inr (by simp [Sparse.get])
    · simp only [Sparse.get, h, if_false]
      rcases ih with ih | ih
      · exact .inl ih
      · exact .inr (by simp [ih])

/-! ## Byte memories -/

/-- The value just written, or what the address read as before (R11). -/
theorem Memory.read_write (m : Memory) (a b : Nat) (v : Byte) :
    Memory.read (Memory.write m a v) b = if b = a then v else Memory.read m b :=
  Sparse.get_set m a b v

@[simp] theorem Memory.read_write_same (m : Memory) (a : Nat) (v : Byte) :
    Memory.read (Memory.write m a v) a = v := by
  simp [Memory.read_write]

theorem Memory.read_write_other (m : Memory) {a b : Nat} (v : Byte) (h : b ≠ a) :
    Memory.read (Memory.write m a v) b = Memory.read m b := by
  simp [Memory.read_write, h]

/-- A write inside the address space keeps the canonical form. -/
theorem Memory.write_wf {m : Memory} (h : m.wf) {a : Nat} (ha : a < 2 ^ 32) (v : Byte) : (Memory.write m a v).wf := by
  refine ⟨Sparse.set_wf h.1 a v, ?_⟩
  intro p hp
  rcases Sparse.mem_set hp with ⟨rfl, -⟩ | ⟨hp, -⟩
  · exact ha
  · exact h.2 p hp

/-- Dropping the bytes below an address keeps the canonical form. -/
theorem Memory.dropBelow_wf {m : Memory} (h : m.wf) (n : Nat) : (m.dropBelow n).wf :=
  ⟨⟨h.1.1.filter _, fun p hp => h.1.2 p (List.mem_filter.mp hp).1⟩, fun p hp => h.2 p (List.mem_filter.mp hp).1⟩

/-- At and past the bound the bytes are as before. -/
theorem Memory.read_dropBelow (m : Memory) {n a : Nat} (h : n ≤ a) :
    Memory.read (m.dropBelow n) a = Memory.read m a := by
  induction m with
  | nil => rfl
  | cons p m ih =>
    obtain ⟨k, v⟩ := p
    unfold Memory.read at ih ⊢
    by_cases hk : n ≤ k
    · have : Memory.dropBelow ((k, v) :: m) n = (k, v) :: Memory.dropBelow m n := by simp [Memory.dropBelow, hk]
      simp only [this, Sparse.get, ih]
    · have : Memory.dropBelow ((k, v) :: m) n = Memory.dropBelow m n := by simp [Memory.dropBelow, hk]
      have hak : a ≠ k := by omega
      simp only [this, Sparse.get, ih, hak, if_false]

/-- Writing a run of bytes keeps the canonical form while it stays inside the address space. -/
theorem Memory.writeBytes_wf {m : Memory} (h : m.wf) (a : Nat) (bs : List Byte) (ha : a + bs.length ≤ 2 ^ 32) :
    (Memory.writeBytes m a bs).wf := by
  induction bs generalizing m a with
  | nil => exact h
  | cons b bs ih =>
    simp only [List.length_cons] at ha
    exact ih (Memory.write_wf h (by omega) b) (a + 1) (by omega)

end Sys2Proof.Machine
end

