-- ==== Sys2Proof/Laws/State.lean ====
section
/-! SUPPORT. One lemma for each field and each named update of the state, true by rfl, so that no proof unfolds an update. -/
namespace Sys2Proof.Machine

variable (s : State)

/-! ## withReader -/

@[simp] theorem State.withReader_rd (r : Reader) : (s.withReader r).rd = r := rfl
@[simp] theorem State.withReader_cur (r : Reader) : (s.withReader r).cur = s.cur := rfl
@[simp] theorem State.withReader_cfg (r : Reader) : (s.withReader r).cfg = s.cfg := rfl
@[simp] theorem State.withReader_phase (r : Reader) : (s.withReader r).phase = s.phase := rfl
@[simp] theorem State.withReader_lens (r : Reader) : (s.withReader r).lens = s.lens := rfl
@[simp] theorem State.withReader_lut (r : Reader) : (s.withReader r).lut = s.lut := rfl
@[simp] theorem State.withReader_rt (r : Reader) : (s.withReader r).rt = s.rt := rfl
@[simp] theorem State.withReader_oct (r : Reader) : (s.withReader r).oct = s.oct := rfl
@[simp] theorem State.withReader_err (r : Reader) : (s.withReader r).err = s.err := rfl
@[simp] theorem State.withReader_ie (r : Reader) : (s.withReader r).ie = s.ie := rfl
@[simp] theorem State.withReader_format (r : Reader) : (s.withReader r).format = s.format := rfl
@[simp] theorem State.withReader_image (r : Reader) : (s.withReader r).image = s.image := rfl
@[simp] theorem State.withReader_baseLen (r : Reader) : (s.withReader r).baseLen = s.baseLen := rfl
@[simp] theorem State.withReader_stride (r : Reader) : (s.withReader r).stride = s.stride := rfl
@[simp] theorem State.withReader_inLen (r : Reader) : (s.withReader r).inLen = s.inLen := rfl
@[simp] theorem State.withReader_outLen (r : Reader) : (s.withReader r).outLen = s.outLen := rfl
@[simp] theorem State.withReader_inMem (r : Reader) : (s.withReader r).inMem = s.inMem := rfl
@[simp] theorem State.withReader_outMem (r : Reader) : (s.withReader r).outMem = s.outMem := rfl
@[simp] theorem State.withReader_outDrawn (r : Reader) : (s.withReader r).outDrawn = s.outDrawn := rfl
@[simp] theorem State.withReader_tix (r : Reader) : (s.withReader r).tix = s.tix := rfl
@[simp] theorem State.withReader_code (r : Reader) : (s.withReader r).code = s.code := rfl
@[simp] theorem State.withReader_par (r : Reader) : (s.withReader r).par = s.par := rfl
@[simp] theorem State.withReader_host (r : Reader) : (s.withReader r).host = s.host := rfl
@[simp] theorem State.withReader_rdata (r : Reader) : (s.withReader r).rdata = s.rdata := rfl
@[simp] theorem State.withReader_draws (r : Reader) : (s.withReader r).draws = s.draws := rfl

/-! ## goto -/

@[simp] theorem State.goto_rd (p : Phase) : (s.goto p).rd = s.rd := rfl
@[simp] theorem State.goto_cur (p : Phase) : (s.goto p).cur = s.cur := rfl
@[simp] theorem State.goto_cfg (p : Phase) : (s.goto p).cfg = s.cfg := rfl
@[simp] theorem State.goto_phase (p : Phase) : (s.goto p).phase = p := rfl
@[simp] theorem State.goto_lens (p : Phase) : (s.goto p).lens = s.lens := rfl
@[simp] theorem State.goto_lut (p : Phase) : (s.goto p).lut = s.lut := rfl
@[simp] theorem State.goto_rt (p : Phase) : (s.goto p).rt = s.rt := rfl
@[simp] theorem State.goto_oct (p : Phase) : (s.goto p).oct = s.oct := rfl
@[simp] theorem State.goto_err (p : Phase) : (s.goto p).err = s.err := rfl
@[simp] theorem State.goto_ie (p : Phase) : (s.goto p).ie = s.ie := rfl
@[simp] theorem State.goto_format (p : Phase) : (s.goto p).format = s.format := rfl
@[simp] theorem State.goto_image (p : Phase) : (s.goto p).image = s.image := rfl
@[simp] theorem State.goto_baseLen (p : Phase) : (s.goto p).baseLen = s.baseLen := rfl
@[simp] theorem State.goto_stride (p : Phase) : (s.goto p).stride = s.stride := rfl
@[simp] theorem State.goto_inLen (p : Phase) : (s.goto p).inLen = s.inLen := rfl
@[simp] theorem State.goto_outLen (p : Phase) : (s.goto p).outLen = s.outLen := rfl
@[simp] theorem State.goto_inMem (p : Phase) : (s.goto p).inMem = s.inMem := rfl
@[simp] theorem State.goto_outMem (p : Phase) : (s.goto p).outMem = s.outMem := rfl
@[simp] theorem State.goto_outDrawn (p : Phase) : (s.goto p).outDrawn = s.outDrawn := rfl
@[simp] theorem State.goto_tix (p : Phase) : (s.goto p).tix = s.tix := rfl
@[simp] theorem State.goto_code (p : Phase) : (s.goto p).code = s.code := rfl
@[simp] theorem State.goto_par (p : Phase) : (s.goto p).par = s.par := rfl
@[simp] theorem State.goto_host (p : Phase) : (s.goto p).host = s.host := rfl
@[simp] theorem State.goto_rdata (p : Phase) : (s.goto p).rdata = s.rdata := rfl
@[simp] theorem State.goto_draws (p : Phase) : (s.goto p).draws = s.draws := rfl

/-! ## writeOut -/

@[simp] theorem State.writeOut_rd (a : Nat) (v : Byte) : (s.writeOut a v).rd = s.rd := rfl
@[simp] theorem State.writeOut_cur (a : Nat) (v : Byte) : (s.writeOut a v).cur = s.cur := rfl
@[simp] theorem State.writeOut_cfg (a : Nat) (v : Byte) : (s.writeOut a v).cfg = s.cfg := rfl
@[simp] theorem State.writeOut_phase (a : Nat) (v : Byte) : (s.writeOut a v).phase = s.phase := rfl
@[simp] theorem State.writeOut_lens (a : Nat) (v : Byte) : (s.writeOut a v).lens = s.lens := rfl
@[simp] theorem State.writeOut_lut (a : Nat) (v : Byte) : (s.writeOut a v).lut = s.lut := rfl
@[simp] theorem State.writeOut_rt (a : Nat) (v : Byte) : (s.writeOut a v).rt = s.rt := rfl
@[simp] theorem State.writeOut_oct (a : Nat) (v : Byte) : (s.writeOut a v).oct = s.oct := rfl
@[simp] theorem State.writeOut_err (a : Nat) (v : Byte) : (s.writeOut a v).err = s.err := rfl
@[simp] theorem State.writeOut_ie (a : Nat) (v : Byte) : (s.writeOut a v).ie = s.ie := rfl
@[simp] theorem State.writeOut_format (a : Nat) (v : Byte) : (s.writeOut a v).format = s.format := rfl
@[simp] theorem State.writeOut_image (a : Nat) (v : Byte) : (s.writeOut a v).image = s.image := rfl
@[simp] theorem State.writeOut_baseLen (a : Nat) (v : Byte) : (s.writeOut a v).baseLen = s.baseLen := rfl
@[simp] theorem State.writeOut_stride (a : Nat) (v : Byte) : (s.writeOut a v).stride = s.stride := rfl
@[simp] theorem State.writeOut_inLen (a : Nat) (v : Byte) : (s.writeOut a v).inLen = s.inLen := rfl
@[simp] theorem State.writeOut_outLen (a : Nat) (v : Byte) : (s.writeOut a v).outLen = s.outLen := rfl
@[simp] theorem State.writeOut_inMem (a : Nat) (v : Byte) : (s.writeOut a v).inMem = s.inMem := rfl
@[simp] theorem State.writeOut_outMem (a : Nat) (v : Byte) : (s.writeOut a v).outMem = Memory.write s.outMem a v := rfl
@[simp] theorem State.writeOut_outDrawn (a : Nat) (v : Byte) : (s.writeOut a v).outDrawn = drawnErase s.outDrawn a := rfl
@[simp] theorem State.writeOut_tix (a : Nat) (v : Byte) : (s.writeOut a v).tix = s.tix := rfl
@[simp] theorem State.writeOut_code (a : Nat) (v : Byte) : (s.writeOut a v).code = s.code := rfl
@[simp] theorem State.writeOut_par (a : Nat) (v : Byte) : (s.writeOut a v).par = s.par := rfl
@[simp] theorem State.writeOut_host (a : Nat) (v : Byte) : (s.writeOut a v).host = s.host := rfl
@[simp] theorem State.writeOut_rdata (a : Nat) (v : Byte) : (s.writeOut a v).rdata = s.rdata := rfl
@[simp] theorem State.writeOut_draws (a : Nat) (v : Byte) : (s.writeOut a v).draws = s.draws := rfl

/-! ## putByte -/

@[simp] theorem State.putByte_rd (v : Byte) : (s.putByte v).rd = s.rd := rfl
@[simp] theorem State.putByte_cur (v : Byte) : (s.putByte v).cur = s.cur + 1 := rfl
@[simp] theorem State.putByte_cfg (v : Byte) : (s.putByte v).cfg = s.cfg := rfl
@[simp] theorem State.putByte_phase (v : Byte) : (s.putByte v).phase = s.phase := rfl
@[simp] theorem State.putByte_lens (v : Byte) : (s.putByte v).lens = s.lens := rfl
@[simp] theorem State.putByte_lut (v : Byte) : (s.putByte v).lut = s.lut := rfl
@[simp] theorem State.putByte_rt (v : Byte) : (s.putByte v).rt = s.rt := rfl
@[simp] theorem State.putByte_oct (v : Byte) : (s.putByte v).oct = s.oct := rfl
@[simp] theorem State.putByte_err (v : Byte) : (s.putByte v).err = s.err := rfl
@[simp] theorem State.putByte_ie (v : Byte) : (s.putByte v).ie = s.ie := rfl
@[simp] theorem State.putByte_format (v : Byte) : (s.putByte v).format = s.format := rfl
@[simp] theorem State.putByte_image (v : Byte) : (s.putByte v).image = s.image := rfl
@[simp] theorem State.putByte_baseLen (v : Byte) : (s.putByte v).baseLen = s.baseLen := rfl
@[simp] theorem State.putByte_stride (v : Byte) : (s.putByte v).stride = s.stride := rfl
@[simp] theorem State.putByte_inLen (v : Byte) : (s.putByte v).inLen = s.inLen := rfl
@[simp] theorem State.putByte_outLen (v : Byte) : (s.putByte v).outLen = s.outLen := rfl
@[simp] theorem State.putByte_inMem (v : Byte) : (s.putByte v).inMem = s.inMem := rfl
@[simp] theorem State.putByte_outMem (v : Byte) : (s.putByte v).outMem = Memory.write s.outMem s.cur.toNat v := rfl
@[simp] theorem State.putByte_outDrawn (v : Byte) : (s.putByte v).outDrawn = drawnErase s.outDrawn s.cur.toNat := rfl
@[simp] theorem State.putByte_tix (v : Byte) : (s.putByte v).tix = s.tix := rfl
@[simp] theorem State.putByte_code (v : Byte) : (s.putByte v).code = s.code := rfl
@[simp] theorem State.putByte_par (v : Byte) : (s.putByte v).par = s.par := rfl
@[simp] theorem State.putByte_host (v : Byte) : (s.putByte v).host = s.host := rfl
@[simp] theorem State.putByte_rdata (v : Byte) : (s.putByte v).rdata = s.rdata := rfl
@[simp] theorem State.putByte_draws (v : Byte) : (s.putByte v).draws = s.draws := rfl

/-! ## raise -/

@[simp] theorem State.raise_rd (c : Cause) : (s.raise c).rd = s.rd := rfl
@[simp] theorem State.raise_cur (c : Cause) : (s.raise c).cur = s.cur := rfl
@[simp] theorem State.raise_cfg (c : Cause) : (s.raise c).cfg = s.cfg := rfl
@[simp] theorem State.raise_phase (c : Cause) : (s.raise c).phase = .error := rfl
@[simp] theorem State.raise_lens (c : Cause) : (s.raise c).lens = s.lens := rfl
@[simp] theorem State.raise_lut (c : Cause) : (s.raise c).lut = s.lut := rfl
@[simp] theorem State.raise_rt (c : Cause) : (s.raise c).rt = s.rt := rfl
@[simp] theorem State.raise_oct (c : Cause) : (s.raise c).oct = s.oct := rfl
@[simp] theorem State.raise_err (c : Cause) : (s.raise c).err = some c := rfl
@[simp] theorem State.raise_ie (c : Cause) : (s.raise c).ie = s.ie := rfl
@[simp] theorem State.raise_format (c : Cause) : (s.raise c).format = s.format := rfl
@[simp] theorem State.raise_image (c : Cause) : (s.raise c).image = s.image := rfl
@[simp] theorem State.raise_baseLen (c : Cause) : (s.raise c).baseLen = s.baseLen := rfl
@[simp] theorem State.raise_stride (c : Cause) : (s.raise c).stride = s.stride := rfl
@[simp] theorem State.raise_inLen (c : Cause) : (s.raise c).inLen = s.inLen := rfl
@[simp] theorem State.raise_outLen (c : Cause) : (s.raise c).outLen = s.outLen := rfl
@[simp] theorem State.raise_inMem (c : Cause) : (s.raise c).inMem = s.inMem := rfl
@[simp] theorem State.raise_outMem (c : Cause) : (s.raise c).outMem = s.outMem.dropBelow s.cfg.outLen.toNat := rfl
@[simp] theorem State.raise_outDrawn (c : Cause) : (s.raise c).outDrawn = drawnCover s.outDrawn s.cfg.outLen.toNat s.draws := rfl
@[simp] theorem State.raise_tix (c : Cause) : (s.raise c).tix = s.tix := rfl
@[simp] theorem State.raise_code (c : Cause) : (s.raise c).code = s.code := rfl
@[simp] theorem State.raise_par (c : Cause) : (s.raise c).par = s.par := rfl
@[simp] theorem State.raise_host (c : Cause) : (s.raise c).host = s.host := rfl
@[simp] theorem State.raise_rdata (c : Cause) : (s.raise c).rdata = s.rdata := rfl
@[simp] theorem State.raise_draws (c : Cause) : (s.raise c).draws = s.draws + 1 := rfl

/-! ## setLen -/

@[simp] theorem State.setLen_rd (k : Nat) (v : BitVec 4) : (s.setLen k v).rd = s.rd := rfl
@[simp] theorem State.setLen_cur (k : Nat) (v : BitVec 4) : (s.setLen k v).cur = s.cur := rfl
@[simp] theorem State.setLen_cfg (k : Nat) (v : BitVec 4) : (s.setLen k v).cfg = s.cfg := rfl
@[simp] theorem State.setLen_phase (k : Nat) (v : BitVec 4) : (s.setLen k v).phase = s.phase := rfl
@[simp] theorem State.setLen_lens (k : Nat) (v : BitVec 4) : (s.setLen k v).lens = Sparse.set 0 s.lens k v := rfl
@[simp] theorem State.setLen_lut (k : Nat) (v : BitVec 4) : (s.setLen k v).lut = s.lut := rfl
@[simp] theorem State.setLen_rt (k : Nat) (v : BitVec 4) : (s.setLen k v).rt = s.rt := rfl
@[simp] theorem State.setLen_oct (k : Nat) (v : BitVec 4) : (s.setLen k v).oct = s.oct := rfl
@[simp] theorem State.setLen_err (k : Nat) (v : BitVec 4) : (s.setLen k v).err = s.err := rfl
@[simp] theorem State.setLen_ie (k : Nat) (v : BitVec 4) : (s.setLen k v).ie = s.ie := rfl
@[simp] theorem State.setLen_format (k : Nat) (v : BitVec 4) : (s.setLen k v).format = s.format := rfl
@[simp] theorem State.setLen_image (k : Nat) (v : BitVec 4) : (s.setLen k v).image = s.image := rfl
@[simp] theorem State.setLen_baseLen (k : Nat) (v : BitVec 4) : (s.setLen k v).baseLen = s.baseLen := rfl
@[simp] theorem State.setLen_stride (k : Nat) (v : BitVec 4) : (s.setLen k v).stride = s.stride := rfl
@[simp] theorem State.setLen_inLen (k : Nat) (v : BitVec 4) : (s.setLen k v).inLen = s.inLen := rfl
@[simp] theorem State.setLen_outLen (k : Nat) (v : BitVec 4) : (s.setLen k v).outLen = s.outLen := rfl
@[simp] theorem State.setLen_inMem (k : Nat) (v : BitVec 4) : (s.setLen k v).inMem = s.inMem := rfl
@[simp] theorem State.setLen_outMem (k : Nat) (v : BitVec 4) : (s.setLen k v).outMem = s.outMem := rfl
@[simp] theorem State.setLen_outDrawn (k : Nat) (v : BitVec 4) : (s.setLen k v).outDrawn = s.outDrawn := rfl
@[simp] theorem State.setLen_tix (k : Nat) (v : BitVec 4) : (s.setLen k v).tix = s.tix := rfl
@[simp] theorem State.setLen_code (k : Nat) (v : BitVec 4) : (s.setLen k v).code = s.code := rfl
@[simp] theorem State.setLen_par (k : Nat) (v : BitVec 4) : (s.setLen k v).par = s.par := rfl
@[simp] theorem State.setLen_host (k : Nat) (v : BitVec 4) : (s.setLen k v).host = s.host := rfl
@[simp] theorem State.setLen_rdata (k : Nat) (v : BitVec 4) : (s.setLen k v).rdata = s.rdata := rfl
@[simp] theorem State.setLen_draws (k : Nat) (v : BitVec 4) : (s.setLen k v).draws = s.draws := rfl

/-! ## setLeaf -/

@[simp] theorem State.setLeaf_rd (w L sym : Nat) : (s.setLeaf w L sym).rd = s.rd := rfl
@[simp] theorem State.setLeaf_cur (w L sym : Nat) : (s.setLeaf w L sym).cur = s.cur := rfl
@[simp] theorem State.setLeaf_cfg (w L sym : Nat) : (s.setLeaf w L sym).cfg = s.cfg := rfl
@[simp] theorem State.setLeaf_phase (w L sym : Nat) : (s.setLeaf w L sym).phase = s.phase := rfl
@[simp] theorem State.setLeaf_lens (w L sym : Nat) : (s.setLeaf w L sym).lens = s.lens := rfl
@[simp] theorem State.setLeaf_lut (w L sym : Nat) : (s.setLeaf w L sym).lut = s.lut.set (leaf w L) ⟨BitVec.ofNat 4 L, BitVec.ofNat 8 sym⟩ := rfl
@[simp] theorem State.setLeaf_rt (w L sym : Nat) : (s.setLeaf w L sym).rt = s.rt := rfl
@[simp] theorem State.setLeaf_oct (w L sym : Nat) : (s.setLeaf w L sym).oct = s.oct := rfl
@[simp] theorem State.setLeaf_err (w L sym : Nat) : (s.setLeaf w L sym).err = s.err := rfl
@[simp] theorem State.setLeaf_ie (w L sym : Nat) : (s.setLeaf w L sym).ie = s.ie := rfl
@[simp] theorem State.setLeaf_format (w L sym : Nat) : (s.setLeaf w L sym).format = s.format := rfl
@[simp] theorem State.setLeaf_image (w L sym : Nat) : (s.setLeaf w L sym).image = s.image := rfl
@[simp] theorem State.setLeaf_baseLen (w L sym : Nat) : (s.setLeaf w L sym).baseLen = s.baseLen := rfl
@[simp] theorem State.setLeaf_stride (w L sym : Nat) : (s.setLeaf w L sym).stride = s.stride := rfl
@[simp] theorem State.setLeaf_inLen (w L sym : Nat) : (s.setLeaf w L sym).inLen = s.inLen := rfl
@[simp] theorem State.setLeaf_outLen (w L sym : Nat) : (s.setLeaf w L sym).outLen = s.outLen := rfl
@[simp] theorem State.setLeaf_inMem (w L sym : Nat) : (s.setLeaf w L sym).inMem = s.inMem := rfl
@[simp] theorem State.setLeaf_outMem (w L sym : Nat) : (s.setLeaf w L sym).outMem = s.outMem := rfl
@[simp] theorem State.setLeaf_outDrawn (w L sym : Nat) : (s.setLeaf w L sym).outDrawn = s.outDrawn := rfl
@[simp] theorem State.setLeaf_tix (w L sym : Nat) : (s.setLeaf w L sym).tix = s.tix := rfl
@[simp] theorem State.setLeaf_code (w L sym : Nat) : (s.setLeaf w L sym).code = s.code := rfl
@[simp] theorem State.setLeaf_par (w L sym : Nat) : (s.setLeaf w L sym).par = s.par := rfl
@[simp] theorem State.setLeaf_host (w L sym : Nat) : (s.setLeaf w L sym).host = s.host := rfl
@[simp] theorem State.setLeaf_rdata (w L sym : Nat) : (s.setLeaf w L sym).rdata = s.rdata := rfl
@[simp] theorem State.setLeaf_draws (w L sym : Nat) : (s.setLeaf w L sym).draws = s.draws := rfl

/-! ## startInit -/

@[simp] theorem State.startInit_rd : s.startInit.rd = ⟨0, 0, 0⟩ := rfl
@[simp] theorem State.startInit_cur : s.startInit.cur = 0 := rfl
@[simp] theorem State.startInit_cfg : s.startInit.cfg = s.latch := rfl
@[simp] theorem State.startInit_phase : s.startInit.phase = .init := rfl
@[simp] theorem State.startInit_lens : s.startInit.lens = s.lens := rfl
@[simp] theorem State.startInit_lut : s.startInit.lut = [] := rfl
@[simp] theorem State.startInit_rt : s.startInit.rt = [] := rfl
@[simp] theorem State.startInit_oct : s.startInit.oct = offsetTable s.latch.base.toNat s.latch.stride.toNat := rfl
@[simp] theorem State.startInit_err : s.startInit.err = none := rfl
@[simp] theorem State.startInit_ie : s.startInit.ie = s.ie := rfl
@[simp] theorem State.startInit_format : s.startInit.format = s.format := rfl
@[simp] theorem State.startInit_image : s.startInit.image = s.image := rfl
@[simp] theorem State.startInit_baseLen : s.startInit.baseLen = s.baseLen := rfl
@[simp] theorem State.startInit_stride : s.startInit.stride = s.stride := rfl
@[simp] theorem State.startInit_inLen : s.startInit.inLen = s.inLen := rfl
@[simp] theorem State.startInit_outLen : s.startInit.outLen = s.outLen := rfl
@[simp] theorem State.startInit_inMem : s.startInit.inMem = s.inMem := rfl
@[simp] theorem State.startInit_outMem : s.startInit.outMem = s.outMem := rfl
@[simp] theorem State.startInit_outDrawn : s.startInit.outDrawn = s.outDrawn := rfl
@[simp] theorem State.startInit_tix : s.startInit.tix = 0 := rfl
@[simp] theorem State.startInit_code : s.startInit.code = 0 := rfl
@[simp] theorem State.startInit_par : s.startInit.par = s.par := rfl
@[simp] theorem State.startInit_host : s.startInit.host = s.host := rfl
@[simp] theorem State.startInit_rdata : s.startInit.rdata = s.rdata := rfl
@[simp] theorem State.startInit_draws : s.startInit.draws = s.draws := rfl

/-! ## Views -/

@[simp] theorem State.withReader_stream (r : Reader) : (s.withReader r).stream = s.stream := rfl
@[simp] theorem State.withReader_busy (r : Reader) : (s.withReader r).busy = s.busy := rfl
@[simp] theorem State.withReader_latch (r : Reader) : (s.withReader r).latch = s.latch := rfl
@[simp] theorem State.withReader_readOut (r : Reader) (a : Nat) : (s.withReader r).readOut a = s.readOut a := rfl
@[simp] theorem State.goto_stream (p : Phase) : (s.goto p).stream = s.stream := rfl
@[simp] theorem State.goto_busy (p : Phase) : (s.goto p).busy = p.busy := rfl
@[simp] theorem State.goto_latch (p : Phase) : (s.goto p).latch = s.latch := rfl
@[simp] theorem State.goto_readOut (p : Phase) (a : Nat) : (s.goto p).readOut a = s.readOut a := rfl
@[simp] theorem State.putByte_stream (v : Byte) : (s.putByte v).stream = s.stream := rfl
@[simp] theorem State.putByte_busy (v : Byte) : (s.putByte v).busy = s.busy := rfl
@[simp] theorem State.putByte_latch (v : Byte) : (s.putByte v).latch = s.latch := rfl
@[simp] theorem State.raise_stream (c : Cause) : (s.raise c).stream = s.stream := rfl
@[simp] theorem State.raise_busy (c : Cause) : (s.raise c).busy = false := rfl
@[simp] theorem State.raise_latch (c : Cause) : (s.raise c).latch = s.latch := rfl
@[simp] theorem State.setLen_readOut (k : Nat) (v : BitVec 4) (a : Nat) : (s.setLen k v).readOut a = s.readOut a := rfl
@[simp] theorem State.setLeaf_readOut (w L sym a : Nat) : (s.setLeaf w L sym).readOut a = s.readOut a := rfl
@[simp] theorem State.startInit_readOut (a : Nat) : s.startInit.readOut a = s.readOut a := rfl
@[simp] theorem State.startInit_busy : s.startInit.busy = true := rfl
@[simp] theorem State.startInit_latch : s.startInit.latch = s.latch := rfl

end Sys2Proof.Machine
end

