-- ==== Sys2Proof/Laws/Ops.lean ====
section
/-! SUPPORT. One lemma for each shared operation that says what it can do: the free bytes of OUT, reads of OUT after writes,
after a failure and after a copy, the literals' and the matches' common part, outcomes. -/
namespace Sys2Proof.Machine

/-! ## Free ranges -/

theorem drawnAt_append (rs qs : List DrawnRange) (a : Nat) :
    drawnAt (rs ++ qs) a = (drawnAt rs a).or (drawnAt qs a) := by
  induction rs with
  | nil => rfl
  | cons r rs ih =>
    simp only [List.cons_append, drawnAt]
    split <;> simp_all

theorem drawnAt_piece (lo hi draw a : Nat) :
    drawnAt (drawnPiece lo hi draw) a = if lo ≤ a ∧ a < hi then some draw else none := by
  unfold drawnPiece
  split
  · rfl
  · rw [if_neg (by omega)]
    rfl

/-- An erased address is known, the others are as before. -/
theorem drawnAt_erase (rs : List DrawnRange) (a b : Nat) :
    drawnAt (drawnErase rs a) b = if b = a then none else drawnAt rs b := by
  induction rs with
  | nil => simp [drawnErase, drawnAt]
  | cons r rs ih =>
    have hsplit : drawnErase (r :: rs) a = (if r.lo ≤ a ∧ a < r.hi then
        drawnPiece r.lo a r.draw ++ drawnPiece (a + 1) r.hi r.draw else [r]) ++ drawnErase rs a := by
      simp [drawnErase]
    rw [hsplit, drawnAt_append, ih]
    by_cases hr : r.lo ≤ a ∧ a < r.hi
    · rw [if_pos hr, drawnAt_append, drawnAt_piece, drawnAt_piece]
      by_cases hb : b = a
      · subst hb
        simp
      · rw [if_neg hb, if_neg hb]
        simp only [drawnAt]
        by_cases h1 : r.lo ≤ b ∧ b < r.hi
        · rw [if_pos h1]
          by_cases h2 : b < a
          · simp [h1.1, h2]
          · have h3 : a + 1 ≤ b := by omega
            simp [h2, h3, h1.2]
        · rw [if_neg h1, if_neg (by omega), if_neg (by omega)]
          rfl
    · rw [if_neg hr]
      by_cases hb : b = a
      · subst hb
        simp [drawnAt, hr]
      · rw [if_neg hb, if_neg hb]
        simp only [drawnAt]
        split <;> simp

/-- After a failure over `OUT[0..n-1]` those addresses are free values of it, the others are as before. -/
theorem drawnAt_cover (rs : List DrawnRange) (n draw a : Nat) :
    drawnAt (drawnCover rs n draw) a = if a < n then some draw else drawnAt rs a := by
  unfold drawnCover
  rw [drawnAt_append, drawnAt_piece]
  by_cases h : a < n
  · simp [h]
  · simp only [h, and_false, if_false, Option.none_or]
    induction rs with
    | nil => rfl
    | cons r rs ih =>
      rw [List.flatMap_cons, drawnAt_append, drawnAt_piece, ih]
      simp only [drawnAt]
      by_cases hr : r.lo ≤ a ∧ a < r.hi
      · rw [if_pos hr, if_pos (by omega)]
        rfl
      · rw [if_neg hr, if_neg (by omega)]
        rfl

theorem mem_drawnPiece {r : DrawnRange} {lo hi draw : Nat} (h : r ∈ drawnPiece lo hi draw) :
    r = ⟨lo, hi, draw⟩ ∧ lo < hi := by
  unfold drawnPiece at h
  split at h
  · exact ⟨by simpa using h, by assumption⟩
  · simp at h

/-- The ranges after an erase lie in ranges from before, and keep their failure. -/
theorem mem_drawnErase {r : DrawnRange} {rs : List DrawnRange} {a : Nat} (h : r ∈ drawnErase rs a) :
    ∃ q ∈ rs, q.lo ≤ r.lo ∧ r.hi ≤ q.hi ∧ r.draw = q.draw ∧ (r = q ∨ r.lo < r.hi) := by
  obtain ⟨q, hq, hr⟩ := List.mem_flatMap.mp h
  refine ⟨q, hq, ?_⟩
  split at hr
  · rename_i hin
    rcases List.mem_append.mp hr with hr | hr <;> obtain ⟨rfl, hlt⟩ := mem_drawnPiece hr
    · exact ⟨le_refl _, by simp only; omega, rfl, .inr hlt⟩
    · exact ⟨by simp only; omega, le_refl _, rfl, .inr hlt⟩
  · rw [List.mem_singleton.mp hr]
    exact ⟨le_refl _, le_refl _, rfl, .inl rfl⟩

/-! ## Reads of OUT -/

/-- What OUT reads after a write (R11, R48). -/
theorem State.readOut_writeOut (s : State) (a b : Nat) (v : Byte) :
    (s.writeOut a v).readOut b = if b = a then v else s.readOut b := by
  unfold State.readOut
  simp only [State.writeOut_outDrawn, State.writeOut_outMem, drawnAt_erase, Memory.read_write]
  by_cases h : b = a <;> simp [h]

/-- What OUT reads after the block's write at the cursor. -/
theorem State.readOut_putByte (s : State) (v : Byte) (b : Nat) :
    (s.putByte v).readOut b = if b = s.cur.toNat then v else s.readOut b :=
  State.readOut_writeOut s s.cur.toNat b v

/-- What OUT reads after a failure (R54, R132). -/
theorem State.readOut_raise (s : State) (c : Cause) (a : Nat) :
    (s.raise c).readOut a = if a < s.cfg.outLen.toNat then Config.outDraw s.draws a else s.readOut a := by
  unfold State.readOut
  simp only [State.raise_outDrawn, State.raise_outMem, drawnAt_cover]
  by_cases h : a < s.cfg.outLen.toNat
  · simp [h]
  · simp only [h, if_false]
    rw [Memory.read_dropBelow _ (by omega)]

/-! ## Copies -/

/-- A copy changes OUT and the cursor alone. -/
theorem copyBytes_frame (n offset : Nat) (s : State) :
    copyBytes n offset s = { s with
      outMem := (copyBytes n offset s).outMem
      outDrawn := (copyBytes n offset s).outDrawn
      cur := s.cur + BitVec.ofNat 32 n } := by
  induction n generalizing s with
  | zero => simp [copyBytes]
  | succ n ih =>
    rw [copyBytes, ih]
    simp only [State.putByte]
    congr 1
    rw [BitVec.add_assoc, ← BitVec.ofNat_add_ofNat n 1, BitVec.add_comm (BitVec.ofNat 32 n)]
    rfl

/-! ## The literals' and the matches' common part -/

/-- A literal that completes wrote its byte at a cursor below U. -/
theorem State.emit_next {s t : State} {v : Byte} (h : s.emit v = .next t) :
    s.cur.toNat < s.cfg.outLen.toNat ∧ t = s.putByte v := by
  unfold State.emit at h
  split at h
  · exact ⟨by assumption, by injection h with h; exact h.symm⟩
  · cases h

theorem State.emit_of_lt {s : State} (v : Byte) (h : s.cur.toNat < s.cfg.outLen.toNat) :
    s.emit v = .next (s.putByte v) := if_pos h

/-- No check of R119 raises exactly when the offset is 1 to `cur` and the length fits. -/
theorem checkMatch_none {s : State} {offset length : Nat} :
    checkMatch s offset length = none ↔
      offset ≠ 0 ∧ offset ≤ s.cur.toNat ∧ length ≤ s.cfg.outLen.toNat - s.cur.toNat := by
  unfold checkMatch
  repeat' split
  all_goals simp_all

/-- The length that a match runs with is R118's. -/
theorem matchLength_eq_some {base : Nat} {x : LenPart} {n : Nat} :
    matchLength base x = some n ↔ LengthIs base x n := by
  cases x <;> simp [matchLength, LengthIs, eq_comm]

/-- There is no length exactly for the invalid gamma field (R81). -/
theorem matchLength_eq_none {base : Nat} {x : LenPart} : matchLength base x = none ↔ x = .overflow := by
  cases x <;> simp [matchLength]

/-- What the common part of a match can do: fail, or copy a length of at least its baseline. -/
theorem State.runMatch_cases (s : State) (m : MatchOffset) (x : LenPart) :
    (∃ c, s.runMatch m x = s.raise c ∧
      (c = .gammaOverflow ∨ c = .offsetZero ∨ c = .offsetBeforeStart ∨ c = .lengthOverrun)) ∨
    (∃ n, matchLength m.base x = some n ∧ m.base ≤ n ∧ m.offset ≠ 0 ∧ m.offset ≤ s.cur.toNat ∧
      n ≤ s.cfg.outLen.toNat - s.cur.toNat ∧ s.runMatch m x = copyBytes n m.offset s) := by
  unfold State.runMatch
  split
  · exact .inl ⟨_, rfl, by simp⟩
  · rename_i n hn
    split
    · rename_i c hc
      refine .inl ⟨c, rfl, ?_⟩
      unfold checkMatch at hc
      split at hc
      · simp_all
      · split at hc
        · simp_all
        · split at hc <;> simp_all
    · rename_i hc
      obtain ⟨h1, h2, h3⟩ := checkMatch_none.mp hc
      refine .inr ⟨n, hn, ?_, h1, h2, h3, rfl⟩
      cases x <;> simp [matchLength] at hn <;> omega

/-! ## Fetches and outcomes -/

/-- A read of the stream goes on with its value or enters the failure it raises. -/
theorem State.fetch_cases {α : Type} (s : State) (f : Fetch α) (k : α → State → State) :
    (∃ a r, f s.rd = .ok a r ∧ s.fetch f k = k a (s.withReader r)) ∨
    (∃ c r, f s.rd = .error c r ∧ s.fetch f k = (s.withReader r).raise c) := by
  unfold State.fetch
  split
  · exact .inl ⟨_, _, by assumption, rfl⟩
  · exact .inr ⟨_, _, by assumption, rfl⟩

theorem mapNext_next {f : State → State} {o : Host.Outcome State Fault Refusal} {t : State}
    (h : mapNext f o = .next t) : ∃ s, o = .next s ∧ t = f s := by
  cases o <;> simp [mapNext] at h
  exact ⟨_, rfl, h.symm⟩

/-- After a token nothing changes but the phase, and that only from TOKEN to DONE. -/
theorem State.settle_cases (s : State) :
    (s.phase = .token ∧ s.cur = s.cfg.outLen ∧ s.settle = s.goto .done) ∨
    (¬(s.phase = .token ∧ s.cur = s.cfg.outLen) ∧ s.settle = s) := by
  unfold State.settle
  split
  · exact .inl ⟨by tauto, by tauto, rfl⟩
  · exact .inr ⟨by assumption, rfl⟩

/-- CLEAR's part: DONE and ERROR go to IDLE with an empty error record, other phases stay. -/
theorem State.acknowledge_cases (s : State) :
    ((s.phase = .done ∨ s.phase = .error) ∧ s.acknowledge = { s with phase := .idle, err := none }) ∨
    (¬(s.phase = .done ∨ s.phase = .error) ∧ s.acknowledge = s) := by
  unfold State.acknowledge
  split
  · exact .inl ⟨by assumption, rfl⟩
  · exact .inr ⟨by assumption, rfl⟩

/-! ## Rank rows -/

/-- A row after a promotion holds the same bytes. -/
theorem promote_perm (row : List Byte) {k : Nat} (hk : k < row.length) : (promote row k).Perm row := by
  unfold promote
  split
  · exact List.Perm.refl _
  · have h : row = row.take k ++ row.getD k 0 :: row.drop (k + 1) := by
      rw [List.getD_eq_getElem _ _ hk]
      simp
    conv_rhs => rw [h]
    exact List.perm_middle.symm

theorem rankRow_length : rankRow.length = 256 := by simp [rankRow]

/-- The table after a lookup: the context's row promoted, the others as before (R93). -/
theorem lookupAndPromote_rows (rt : Sparse (List Byte)) (c k : Byte) (b : Nat) :
    Sparse.get rankRow (lookupAndPromote rt c k).2 b =
      if b = c.toNat then promote (Sparse.get rankRow rt c.toNat) k.toNat else Sparse.get rankRow rt b :=
  Sparse.get_set _ _ _ _

end Sys2Proof.Machine
end

