-- ==== Sys2Proof/Laws/PerInstr.lean ====
section
/-! SUPPORT. The statements made of every instruction, one lemma for each constructor: the encoder writes the fixed bits that
spec/opcode_table.json gives the instruction's row (spec/30_encoding.md R67, R124). -/
namespace Sys2Proof.Laws.TablePattern

open Sys2Proof

/-- The leading flag bits of the row, in reading order (R67); a command has none. -/
def leading (par : Params) : Instr → List Bool
  | .litRaw _ => [true]
  | .litCode _ => [true]
  | .litRank _ => [true]
  | .matchB8 _ _ => [false]
  | .matchS _ _ => [false, par.shortBit]
  | .matchL _ _ => [false, !par.shortBit]
  | .matchCtx _ _ => [false, par.ctxBit]
  | .matchCtxSingle _ _ => [false]
  | .matchXB8 _ _ => [false, !par.ctxBit]
  | .matchXS _ _ => [false, !par.ctxBit, par.shortBit]
  | .matchXL _ _ => [false, !par.ctxBit, !par.shortBit]
  | .cmdStart _ _ => []
  | .cmdClear _ => []
  | .cmdNop _ => []

/-- Mask and match of a command's row; a token has none. -/
def ctrlPattern : Instr → Option (Word × Word)
  | .cmdStart _ _ => some (1, 1)
  | .cmdClear _ => some (3, 2)
  | .cmdNop _ => some (3, 0)
  | .litRaw _ => none
  | .litCode _ => none
  | .litRank _ => none
  | .matchB8 _ _ => none
  | .matchS _ _ => none
  | .matchL _ _ => none
  | .matchCtx _ _ => none
  | .matchCtxSingle _ _ => none
  | .matchXB8 _ _ => none
  | .matchXS _ _ => none
  | .matchXL _ _ => none

/-- A CTRL word fits its row's mask and match; a token has neither. -/
def fits : Option Word → Option (Word × Word) → Bool
  | some w, some (mask, value) => w &&& mask == value
  | none, none => true
  | some _, none => false
  | none, some _ => false

/-- The encoder's first fields, or its CTRL word, are those of the instruction's row. -/
def Statement (i : Instr) : Prop :=
  (∀ par, ∃ rest, i.fields par = (leading par i).map Field.bit ++ rest) ∧ fits (encodeCtrl i) (ctrlPattern i) = true

theorem litRaw (v : Byte) : Statement (.litRaw v) := ⟨fun _ => ⟨_, rfl⟩, rfl⟩
theorem litCode (w : CodeWord) : Statement (.litCode w) := ⟨fun _ => ⟨_, rfl⟩, rfl⟩
theorem litRank (w : CodeWord) : Statement (.litRank w) := ⟨fun _ => ⟨_, rfl⟩, rfl⟩
theorem matchB8 (o : Byte) (x : LenPart) : Statement (.matchB8 o x) := ⟨fun _ => ⟨_, rfl⟩, rfl⟩
theorem matchS (o : Byte) (x : LenPart) : Statement (.matchS o x) := ⟨fun _ => ⟨_, rfl⟩, rfl⟩
theorem matchL (o : BitVec 16) (x : LenPart) : Statement (.matchL o x) := ⟨fun _ => ⟨_, rfl⟩, rfl⟩
theorem matchCtx (sel : BitVec 3) (x : LenPart) : Statement (.matchCtx sel x) := ⟨fun _ => ⟨_, rfl⟩, rfl⟩
theorem matchCtxSingle (sel : BitVec 3) (x : LenPart) : Statement (.matchCtxSingle sel x) := ⟨fun _ => ⟨_, rfl⟩, rfl⟩
theorem matchXB8 (o : Byte) (x : LenPart) : Statement (.matchXB8 o x) := ⟨fun _ => ⟨_, rfl⟩, rfl⟩
theorem matchXS (o : Byte) (x : LenPart) : Statement (.matchXS o x) := ⟨fun _ => ⟨_, rfl⟩, rfl⟩
theorem matchXL (o : BitVec 16) (x : LenPart) : Statement (.matchXL o x) := ⟨fun _ => ⟨_, rfl⟩, rfl⟩
theorem cmdStart (clear ie : Bool) : Statement (.cmdStart clear ie) :=
  ⟨fun _ => ⟨_, rfl⟩, by cases clear <;> cases ie <;> decide⟩
theorem cmdClear (ie : Bool) : Statement (.cmdClear ie) := ⟨fun _ => ⟨_, rfl⟩, by cases ie <;> decide⟩
theorem cmdNop (ie : Bool) : Statement (.cmdNop ie) := ⟨fun _ => ⟨_, rfl⟩, by cases ie <;> decide⟩

end Sys2Proof.Laws.TablePattern
end

