-- ==== Sys2Proof/Machine/Assemble.lean ====
section
/-! DEFINITION. The stream layout of spec/30_encoding.md R55 and the notation of R69 and R70 for writing streams. The notation
is test material, not an input the hardware takes (spec/00_scope.md R6). -/
namespace Sys2Proof

open Machine

/-- One line of the notation (R69, R70), its text already split into numbers. -/
inductive Line where
  | lit (v : Byte)
  | lits (vs : List Byte)
  | matchB8 (o len : Nat)
  | matchS (o len : Nat)
  | matchL (o len : Nat)
  | matchCtx (sel len : Nat)
  | matchXB8 (o len : Nat)
  | matchXS (o len : Nat)
  | matchXL (o len : Nat)
  | run (v : Byte) (n : Nat)
  | copy (o len : Nat)
  deriving DecidableEq, Repr

/-- A stream to be written: the verbatim bytes, the code words by symbol (their lengths are `.lengths`), the lines. -/
structure Source where
  pre : List Byte
  codes : List (Byte × CodeWord)
  lines : List Line
  deriving DecidableEq, Repr

/-- `len` as a length part over its baseline (R69): `E = 1` when they are equal, else the difference in a gamma field. -/
def lengthOver (base len : Nat) : Option LenPart :=
  if len = base then some .base
  else if base < len ∧ len - base < 2 ^ 32 - 1 then some (.ext (BitVec.ofNat 32 (len - base)))
  else none

/-- The literal of a configuration (R69): the raw byte, or the code word of the symbol or rank `v`. -/
def litLine (c : Latched) (codes : List (Byte × CodeWord)) (v : Byte) : Option Instr :=
  if c.useCode then (codes.lookup v).map fun w => if c.useRank then .litRank w else .litCode w
  else some (.litRaw v)

/-- A match with a one-byte offset (R69: `o` in 1..255), baseline 2. -/
def byteLine (f : Byte → LenPart → Instr) (o len : Nat) : Option Instr :=
  if 1 ≤ o ∧ o ≤ 255 then (lengthOver 2 len).map (f (BitVec.ofNat 8 o)) else none

/-- A match with a two-byte offset (R69: `o` in 1..65535), baseline 3. -/
def wordLine (f : BitVec 16 → LenPart → Instr) (o len : Nat) : Option Instr :=
  if 1 ≤ o ∧ o ≤ 65535 then (lengthOver 3 len).map (f (BitVec.ofNat 16 o)) else none

/-- A contextual match (R69: `sel` in 0..7), baseline 1 or 2 (R114). -/
def ctxLine (par : Params) (c : Latched) (sel len : Nat) : Option Instr :=
  if sel ≤ 7 then
    (lengthOver (if c.base = 1 then 2 else 1) len).map fun x =>
      if c.twoLayer par then .matchCtx (BitVec.ofNat 3 sel) x else .matchCtxSingle (BitVec.ofNat 3 sel) x
  else none

/-- `COPY o, len` (R70). -/
def copyLine (c : Latched) (o len : Nat) : Option Instr :=
  match c.offsetMode with
  | .oneByte => byteLine .matchB8 o len
  | .twoByte => if o ≤ 255 ∧ 2 ≤ len then byteLine .matchS o len else wordLine .matchL o len

/-- The instructions of a line, none for an assembly error (R69, R70). -/
def Line.instrs (par : Params) (c : Latched) (codes : List (Byte × CodeWord)) : Line → Option (List Instr)
  | .lit v => (litLine c codes v).map fun i => [i]
  | .lits vs => vs.mapM (litLine c codes)
  | .matchB8 o len => (byteLine .matchB8 o len).map fun i => [i]
  | .matchS o len => (byteLine .matchS o len).map fun i => [i]
  | .matchL o len => (wordLine .matchL o len).map fun i => [i]
  | .matchCtx sel len => (ctxLine par c sel len).map fun i => [i]
  | .matchXB8 o len => (byteLine .matchXB8 o len).map fun i => [i]
  | .matchXS o len => (byteLine .matchXS o len).map fun i => [i]
  | .matchXL o len => (wordLine .matchXL o len).map fun i => [i]
  | .run v n =>
    if 3 ≤ n then
      match litLine c codes v, byteLine (if c.offsetMode = .oneByte then .matchB8 else .matchS) 1 (n - 1) with
      | some i, some j => some [i, j]
      | _, _ => none
    else none
  | .copy o len => (copyLine c o len).map fun i => [i]

/-- The length of a symbol's code word, 0 where it has none (R70 `.lengths`). -/
def codeLength (codes : List (Byte × CodeWord)) (s : Nat) : Nat :=
  match codes.lookup (BitVec.ofNat 8 s) with
  | some w => w.len
  | none => 0

/-- The length table (R63): 128 bytes, two lengths each, in the order of `P_NIBBLE`. -/
def lengthTable (n : NibbleOrder) (codes : List (Byte × CodeWord)) : List Byte :=
  (List.range 128).map fun i =>
    match n with
    | .highFirst => BitVec.ofNat 8 (16 * codeLength codes (2 * i) + codeLength codes (2 * i + 1))
    | .lowFirst => BitVec.ofNat 8 (codeLength codes (2 * i) + 16 * codeLength codes (2 * i + 1))

/-- The code words that the stream transmits (R63): those of `P_CODES = EXPLICIT`, in increasing symbol order. -/
def codeFields (p : CodeSource) (codes : List (Byte × CodeWord)) : List Field :=
  match p with
  | .canonical => []
  | .explicit =>
    (List.range 256).flatMap fun s =>
      match codes.lookup (BitVec.ofNat 8 s) with
      | some w => w.fields
      | none => []

/-- The table part of a stream (R55), where the variant has one: 128 raw bytes, the re-seed, the code words. -/
def tableFields (par : Params) (c : Latched) (codes : List (Byte × CodeWord)) : List Field :=
  if c.useCode then (lengthTable par.nibble codes).map .raw ++ [.reseed] ++ codeFields par.codes codes else []

/-- The 0 to 3 skip bytes after `n` verbatim bytes (R55, R70), written as 0x00. -/
def skipFields (n : Nat) : List Field := List.replicate (roundup4 n - n) (.raw 0)

/-- The bytes of a stream (R55). A stream whose output ends with its verbatim bytes has nothing more (R106). -/
def assemble (par : Params) (c : Latched) (src : Source) : Option (List Byte) :=
  match src.lines.mapM (Line.instrs par c src.codes) with
  | none => none
  | some is =>
    if c.outLen.toNat ≤ c.base.toNat then some src.pre
    else
      some (layOut par.refill 0
        (src.pre.map .raw ++ skipFields src.pre.length ++ tableFields par c src.codes
          ++ is.flatten.flatMap (Instr.fields par)))

end Sys2Proof
end

