-- ==== Sys2Proof/Tests/Slice0.lean ====
section
/-! SUPPORT. Tests on fixed values, their results taken from spec/ (the source is in each docstring), and for every statement with
hypotheses a theorem `witness_<statement>`: a state and operands that meet them together. -/
namespace Sys2Proof.Tests

open Sys2Proof Machine

/-! ## Helpers -/

/-- The bytes as IN or OUT from address 0. -/
def mem (bs : List Byte) : Memory := Memory.writeBytes [] 0 bs

/-- A state in a phase of a decode, its record and registers equal, with `out` behind the cursor and `bs` in IN. -/
def decodeState (p : Phase) (fmt : BitVec 4) (image : Bool) (b s u : Word) (out bs : List Byte) : State :=
  { State.reset with
    phase := p, format := fmt, image := image, baseLen := b, stride := s, outLen := u,
    inLen := BitVec.ofNat 32 bs.length
    cfg := ⟨fmt, image, if image then b else 1, s, u, BitVec.ofNat 32 bs.length⟩
    oct := offsetTable (if image then b else (1 : Word)).toNat s.toNat
    cur := BitVec.ofNat 32 out.length, outMem := mem out, inMem := mem bs }

/-- The lookup table of V-CT-1. -/
def lutABC : Lut := [(0x0000, ⟨1, 0x41⟩), (0x4000, ⟨2, 0x42⟩), (0x6000, ⟨2, 0x43⟩)]

/-- The lookup table of P5. -/
def lutRanks : Lut := [(0x0000, ⟨1, 0⟩), (0x4000, ⟨2, 1⟩), (0x6000, ⟨2, 2⟩)]

/-- The code words of V-CT-1. -/
def codesABC : List (Byte × CodeWord) := [(0x41, ⟨1, 0⟩), (0x42, ⟨2, 0x4000⟩), (0x43, ⟨2, 0x6000⟩)]

/-- Blob mode with a FORMAT. -/
def blob (fmt : BitVec 4) : Latched := ⟨fmt, false, 1, 0, 100, 100⟩

/-- Image mode with a FORMAT. -/
def image (fmt : BitVec 4) : Latched := ⟨fmt, true, 1, 8, 100, 100⟩

/-- A stream of these bytes alone, LAZY. -/
def stream (bs : List Byte) : Stream := ⟨mem bs, BitVec.ofNat 32 bs.length, .lazy⟩

/-- The token that the bytes hold from an empty buffer. -/
def decoded (par : Params) (c : Latched) (lut : Lut) (bs : List Byte) : Option Instr :=
  match decodeToken par c lut (stream bs) ⟨0, 0, 0⟩ with
  | .ok i _ => some i
  | .error _ _ => none

/-- The reference parameters, contextual variants single-layer. -/
def singleLayer : Params := { Params.reference with twoLayer := [] }

/-- Phase, cursor and cause after an outcome that is a next state. -/
def shows : Host.Outcome State Fault Refusal → Option (Phase × Nat × Option Cause)
  | .next s => some (s.phase, s.cur.toNat, s.err)
  | .fault _ => none
  | .refused _ => none

/-- `OUT[0..n-1]` after an outcome that is a next state. -/
def bytes (n : Nat) : Host.Outcome State Fault Refusal → Option (List Byte)
  | .next s => some ((List.range n).map s.readOut)
  | .fault _ => none
  | .refused _ => none

/-! ## Well-formed terms -/

/-- R62: a code word has at least one bit. -/
theorem test_wf_refuses_empty_code_word : (Instr.litCode ⟨0, 0⟩).wf = false := by decide

/-- R62: a code word has at most 15 bits. -/
theorem test_wf_refuses_long_code_word : (Instr.litRank ⟨16, 0⟩).wf = false := by decide

/-- R86: the bits below a code word are 0. -/
theorem test_wf_refuses_loose_bits : (Instr.litCode ⟨2, 0x4001⟩).wf = false := by decide

/-- R61, R82: the largest gamma value is 2^32 - 2. -/
theorem test_wf_refuses_gamma_of_33_bits :
    (Instr.matchS 1 (.ext 0xFFFFFFFF)).wf = false ∧ (Instr.matchS 1 (.ext 0xFFFFFFFE)).wf = true := by decide

/-- R66: a raw literal is no token of a variant with the code. -/
theorem test_selected_refuses_raw_literal_with_code : (Instr.litRaw 0).selected .reference (blob 2) = false := by decide

/-- R89: `11` is not read as a code word where `1` is one. -/
theorem test_readable_refuses_word_behind_shorter :
    (CodeWord.readable [(0x4000, ⟨1, 7⟩)] ⟨2, 0x6000⟩) = false := by decide

/-! ## Decode, the words written out from R58 to R63 -/

/-- `1`, raw 62. -/
theorem test_decode_litRaw : decoded .reference (blob 0) [] [0x80, 0x62] = some (.litRaw 0x62) := by decide

/-- `1`, `10`. -/
theorem test_decode_litCode : decoded .reference (blob 2) lutABC [0xC0] = some (.litCode ⟨2, 0x4000⟩) := by decide

/-- `1`, `11` under FORMAT 0x6. -/
theorem test_decode_litRank : decoded .reference (blob 6) lutRanks [0xE0] = some (.litRank ⟨2, 0x6000⟩) := by decide

/-- S8-7's last two bytes: `0`, raw 01, `0`, then `00100`, which is 3 (V-G-1). -/
theorem test_decode_matchB8 : decoded .reference (blob 8) [] [0x08, 0x01] = some (.matchB8 1 (.ext 3)) := by decide

/-- V-G-2: `01`, raw 01, `0`, the longest gamma field. -/
theorem test_decode_matchS :
    decoded .reference (blob 0) [] [0x40, 0x01, 0, 0, 0, 0x3F, 0xFF, 0xFF, 0xFF, 0xC0]
      = some (.matchS 1 (.ext 0xFFFFFFFE)) := by decide

/-- `00`, raw 34, raw 12, `1`: the offset is 0x1234 (R117). -/
theorem test_decode_matchL : decoded .reference (blob 0) [] [0x20, 0x34, 0x12] = some (.matchL 0x1234 .base) := by decide

/-- `01`, `101`, `1`. -/
theorem test_decode_matchCtx : decoded .reference (image 1) [] [0x6C] = some (.matchCtx 5 .base) := by decide

/-- `0`, `101`, `1`. -/
theorem test_decode_matchCtxSingle : decoded singleLayer (image 1) [] [0x58] = some (.matchCtxSingle 5 .base) := by decide

/-- `00`, raw 06, `1` under FORMAT 0x9. -/
theorem test_decode_matchXB8 : decoded .reference (image 9) [] [0x20, 0x06] = some (.matchXB8 6 .base) := by decide

/-- `001`, raw 02, `0`, `011`. -/
theorem test_decode_matchXS : decoded .reference (image 1) [] [0x26, 0x02] = some (.matchXS 2 (.ext 2)) := by decide

/-- `000`, raw 03, raw 00, `1`. -/
theorem test_decode_matchXL : decoded .reference (image 1) [] [0x10, 0x03, 0x00] = some (.matchXL 3 .base) := by decide

/-- V-H-4: CTRL = 0x3, START wins. -/
theorem test_decode_cmdStart : decodeCtrl 0x3 = .cmdStart true false := by decide

/-- V-H-3: CTRL = 0x6. -/
theorem test_decode_cmdClear : decodeCtrl 0x6 = .cmdClear true := by decide

/-- V-H-2: CTRL = 0x4; bits 31:3 are ignored. -/
theorem test_decode_cmdNop : decodeCtrl 0xFFFFFFFC = .cmdNop true := by decide

/-- V-G-3: `01`, raw 01, `0`, 32 zeros. -/
theorem test_decode_gamma_overflow :
    decoded .reference (blob 0) [] [0x40, 0x01, 0, 0, 0, 0] = some (.matchS 1 .overflow) := by decide

/-- E-4, E-5, E-16: a token that the stream cuts off is refused. -/
theorem test_decode_refuses_cut_off_tokens :
    decoded .reference (blob 0) [] [] = none ∧ decoded .reference (blob 0) [] [0x80] = none ∧
    decoded .reference (blob 0) [] [0x40, 0x00] = none := by decide

/-- R61: the field of g = 7 is `0001000` (V-G-1). -/
theorem test_gamma_field : gammaFields 7 = [false, false, false, true, false, false, false].map .bit := by decide

/-- P1 in the notation of R69 and R70 gives the bytes of Part 3. -/
theorem test_assemble_p1 :
    assemble .reference ⟨0, false, 1, 0, 13, 10⟩ ⟨[0x61], [], [.lit 0x62, .lit 0x63, .matchS 3 9, .lit 0x21]⟩
      = some [0x61, 0, 0, 0, 0xD0, 0x62, 0x63, 0x03, 0x88, 0x21] := by decide

/-! ## The instructions -/

/-- P1: the second literal. -/
theorem test_litRaw :
    bytes 3 (exec (.litRaw 0x63) (decodeState .token 0 false 0 0 13 [0x61, 0x62] [])) = some [0x61, 0x62, 0x63] := by decide

/-- V-CT-2: `10` gives 0x42. -/
theorem test_litCode :
    bytes 2 (exec (.litCode ⟨2, 0x4000⟩) { decodeState .token 2 false 0 0 9 [0x41] [] with lut := lutABC })
      = some [0x41, 0x42] := by decide

/-- V-CT-5: fourteen ones and a zero match nothing. -/
theorem test_litCode_no_code :
    shows (exec (.litCode ⟨15, 0x7FFE⟩) { decodeState .token 2 false 0 0 9 [0x41] [] with lut := [(0x7FFF, ⟨15, 0xFF⟩)] })
      = some (.error, 1, some .noCode) := by decide

/-- P5, its second literal: context FF, rank 1 gives FE. -/
theorem test_litRank :
    bytes 3 (exec (.litRank ⟨2, 0x4000⟩) { decodeState .token 6 false 0 0 9 [0x10, 0xFF] [] with lut := lutRanks })
      = some [0x10, 0xFF, 0xFE] := by decide

/-- V-RT-3: rank 255 of a fresh row is 0x00, which moves to rank 0; rank 255 is then 0x01. -/
theorem test_promote_last_rank :
    (promote rankRow 255).getD 0 1 = 0 ∧ (promote rankRow 255).getD 1 0 = 0xFF ∧
    (promote rankRow 255).getD 255 0 = 1 := by decide

/-- P3: an overlapping run, `MATCH.B8 1, 7`. -/
theorem test_matchB8 :
    bytes 8 (exec (.matchB8 1 (.ext 5)) (decodeState .token 8 false 0 0 16 [0x2D] []))
      = some [0x2D, 0x2D, 0x2D, 0x2D, 0x2D, 0x2D, 0x2D, 0x2D] := by decide

/-- P1: `MATCH.S 3, 9` overlaps itself. -/
theorem test_matchS :
    bytes 12 (exec (.matchS 3 (.ext 7)) (decodeState .token 0 false 0 0 13 [0x61, 0x62, 0x63] []))
      = some [0x61, 0x62, 0x63, 0x61, 0x62, 0x63, 0x61, 0x62, 0x63, 0x61, 0x62, 0x63] := by decide

/-- E-12: length 3 with 2 bytes left. -/
theorem test_matchS_overrun :
    shows (exec (.matchS 1 (.ext 1)) (decodeState .token 0 false 0 0 3 [0x61] [])) = some (.error, 1, some .lengthOverrun) := by
  decide

/-- P2: `MATCH.L 3, 3`, baseline 3. -/
theorem test_matchL :
    bytes 6 (exec (.matchL 3 .base) (decodeState .token 0 false 0 0 12 [0x78, 0x79, 0x7A] []))
      = some [0x78, 0x79, 0x7A, 0x78, 0x79, 0x7A] := by decide

/-- P6: `MATCH.CTX 4, 8`, OCT[4] = 8, baseline 2. -/
theorem test_matchCtx :
    bytes 16 (exec (.matchCtx 4 (.ext 6)) (decodeState .token 1 true 1 8 24 [0, 1, 2, 3, 4, 5, 6, 7] []))
      = some [0, 1, 2, 3, 4, 5, 6, 7, 0, 1, 2, 3, 4, 5, 6, 7] := by decide

/-- E-11: OCT[3] = 7 with one byte out. -/
theorem test_matchCtx_before_start :
    shows (exec (.matchCtx 3 .base) (decodeState .token 1 true 1 8 5 [0] []))
      = some (.error, 1, some .offsetBeforeStart) := by decide

/-- P7's first match without its branch bit: OCT[0] = 2, baseline 1. -/
theorem test_matchCtxSingle :
    bytes 3 (exec (.matchCtxSingle 0 .base) (decodeState .token 9 true 2 8 9 [0x11, 0x22] []))
      = some [0x11, 0x22, 0x11] := by decide

/-- P7: `MATCH.X.B8 6, 2`. -/
theorem test_matchXB8 :
    bytes 8 (exec (.matchXB8 6 .base) (decodeState .token 9 true 2 8 9 [0x11, 0x22, 0x11, 0x22, 0x11, 0x22] []))
      = some [0x11, 0x22, 0x11, 0x22, 0x11, 0x22, 0x11, 0x22] := by decide

/-- P8: `MATCH.X.S 2, 4`. -/
theorem test_matchXS :
    bytes 7 (exec (.matchXS 2 (.ext 2)) (decodeState .token 1 true 1 8 10 [0, 1, 2] [])) = some [0, 1, 2, 1, 2, 1, 2] := by
  decide

/-- P8: `MATCH.X.L 3, 3`. -/
theorem test_matchXL :
    bytes 10 (exec (.matchXL 3 .base) (decodeState .token 1 true 1 8 10 [0, 1, 2, 1, 2, 1, 2] []))
      = some [0, 1, 2, 1, 2, 1, 2, 2, 1, 2] := by decide

/-- E-9: offset 0. -/
theorem test_matchL_offset_zero :
    shows (exec (.matchL 0 .base) (decodeState .token 0 false 0 0 9 [0x61] [])) = some (.error, 1, some .offsetZero) := by
  decide

/-- V-H-4: START from DONE begins a decode. -/
theorem test_cmdStart :
    shows (exec (.cmdStart true false) (decodeState .done 0 false 0 0 1 [0x61] [])) = some (.init, 0, none) := by decide

/-- R133: CLEAR after a failure keeps the cursor. -/
theorem test_cmdClear :
    shows (exec (.cmdClear true) ((decodeState .token 0 false 0 0 3 [0x61] []).raise .raw)) = some (.idle, 1, none) := by
  decide

/-- V-H-2: IE in IDLE; CTRL reads 0x4, irq is 0. -/
theorem test_cmdNop :
    (match exec (.cmdNop true) State.reset with
      | .next s => some (s.readReg 0, s.irq)
      | .fault _ => none
      | .refused _ => none) = some (4, false) := by decide

/-! ## Tables and reads -/

/-- V-BR-1: `BUF = 0xA0`, `CNT = 3`. -/
theorem test_readBits : readBits (stream []) 3 ⟨0xA0, 3, 0⟩ = .ok 5 ⟨0, 0, 0⟩ := by rfl

/-- The table of spec/44_contextual_offset_table.md R97 at equality and past it (C2). -/
theorem test_offsetTable :
    offsetTable 3 15 = #v[3, 6, 9, 12, 15, 18, 21, 24] ∧ offsetTable 3 16 = #v[3, 6, 9, 13, 16, 19, 22, 32] := by decide

/-- R67: a pattern is read from its most significant bit: `01` is MATCH.S, `10` a literal, `001` MATCH.X.S, `010` MATCH.CTX. -/
theorem test_table_patterns_msb_first :
    decodeTableWord 2 1 = some (.matchS 0 .overflow) ∧ decodeTableWord 2 2 = some (.litRaw 0) ∧
    decodeTableWord 3 1 = some (.matchXS 0 .overflow) ∧ decodeTableWord 3 2 = some (.matchCtx 0 .overflow) := by decide

/-- E-9's STATUS after the cause is recorded: 0xA0B. -/
theorem test_status : ((decodeState .token 0 false 0 0 5 [0x61] []).raise .offsetZero).statusWord = 0xA0B := by decide

/-- The step runs a table word as the first instruction after reset. -/
theorem test_step_runs_table_words :
    shows (step (State.reset.withFetchWord 8 1)) = some (.token, 1, none) ∧
    shows (step (State.reset.withFetchWord 8 0)) = some (.error, 0, some .gammaOverflow) ∧
    shows (step (State.reset.withFetchWord 2 1)) = some (.error, 0, some .gammaOverflow) ∧
    shows (step (State.reset.withFetchWord 32 1)) = some (.init, 0, none) := by decide

/-! ## Witnesses -/

/-- P1 in phase TOKEN: its first token is the literal `b`. -/
def p1Token : State := decodeState .token 0 false 0 0 13 [0x61] [0xD0, 0x62, 0x63, 0x03, 0x88, 0x21]

/-- One literal before the end of a decode (V-SEQ-4). -/
def lastToken : State := decodeState .token 0 false 0 0 2 [0x61] [0x80, 0x62]

/-- Finished, another decode's parameters set. -/
def finished : State := { decodeState .done 0 false 0 0 1 [0x61] [0x61] with outLen := 13, inLen := 1 }

/-- The facts of the invariant that are decided by evaluation. -/
abbrev Facts (s : State) : Prop :=
  s.inMem.wf ∧ s.outMem.wf ∧ s.rd.cnt.toNat ≤ 8 ∧ s.rd.buf <<< s.rd.cnt.toNat = 0 ∧
  s.rd.ip.toNat ≤ roundup4 s.cfg.inLen.toNat ∧ s.rd.ip.toNat ≤ s.cfg.inLen.toNat ∧
  (s.phase.beforeBits = true → s.rd.cnt = 0 ∧ s.rd.buf = 0) ∧ s.cur.toNat ≤ s.cfg.outLen.toNat ∧
  (s.phase = .done → s.cur = s.cfg.outLen) ∧
  (s.phase = .init ∨ s.phase = .prefixCopy → s.cur.toNat ≤ min s.cfg.base.toNat s.cfg.outLen.toNat) ∧
  (s.phase.pastPrefix = true → s.cfg.base.toNat ≤ s.cur.toNat ∧ s.cur.toNat < s.cfg.outLen.toNat) ∧
  (s.phase = .prefixCopy ∨ s.phase.pastPrefix = true → s.cfg.base ≠ 0) ∧
  (s.err ≠ none ↔ s.phase = .error) ∧ (s.busy = true → s.cfg = s.latch) ∧
  (s.busy = true → s.oct = offsetTable s.cfg.base.toNat s.cfg.stride.toNat) ∧ s.tix = 0 ∧ s.code = 0

/-- The invariant of a state with empty tables and no free byte. -/
theorem inv_of_facts (s : State) (hr : s.rt = []) (hl : s.lens = []) (hu : s.lut = []) (hd : s.outDrawn = [])
    (h : Facts s) : s.Inv := by
  obtain ⟨h1, h2, h3, h4, h5, h6, h7, h8, h9, h10, h11, h12, h13, h14, h15, h16, h17⟩ := h
  constructor <;> first | assumption | skip
  · rw [hd]
    exact ⟨by simp, by simp, fun _ _ => rfl⟩
  · exact fun _ => h6
  · exact fun _ => h6
  · simp [hl, Sparse.WF]
  · simp [hu, Sparse.WF]
  · simp [hr, Sparse.WF]
  · exact fun _ => h16
  · simp [h16]
  · exact fun _ => h17
  · intro _ a _
    rw [hd]
    rfl

theorem p1Token_inv : p1Token.Inv := inv_of_facts _ rfl rfl rfl rfl (by decide)
theorem lastToken_inv : lastToken.Inv := inv_of_facts _ rfl rfl rfl rfl (by decide)
theorem finished_inv : finished.Inv := inv_of_facts _ rfl rfl rfl rfl (by decide)

/-- `finished` after another past: IE set, a byte of IN beyond IN_LEN, another OUT, another last decode. -/
def finishedOtherwise : State :=
  { decodeState .idle 2 true 4 9 7 [0x10, 0x20] [0x61, 0x55] with
    format := 0, image := false, baseLen := 0, stride := 0, outLen := 13, inLen := 1, ie := true }

theorem finishedOtherwise_inv : finishedOtherwise.Inv := inv_of_facts _ rfl rfl rfl rfl (by decide)

theorem witness_StepKeepsInv : p1Token.Inv ∧ ∃ t, step p1Token = .next t := ⟨p1Token_inv, _, rfl⟩

/-- The first disjunct; the second is below. -/
theorem witness_StepStopsOnlyOnHostMemoryWrites : p1Token.Inv ∧ ∃ t, step p1Token = .next t := ⟨p1Token_inv, _, rfl⟩

theorem witness_StepStopsOnlyOnHostMemoryWrites_refused :
    State.Inv { p1Token with host := [.writeIn 0 0] } ∧
    step { p1Token with host := [.writeIn 0 0] } = .refused .hostWroteInWhileBusy :=
  ⟨inv_of_facts _ rfl rfl rfl rfl (by decide), rfl⟩

/-- A silent host, one with moves, a BUSY state and one that is not, a token. -/
theorem witness_StepRunsTheDecodedToken :
    p1Token.host = [] ∧ { p1Token with host := [.await, .reset] }.host = .await :: [.reset] ∧
    p1Token.busy = true ∧ finished.busy = false ∧
    p1Token.phase = .token ∧ p1Token.cur.toNat < p1Token.cfg.outLen.toNat ∧
    decodeToken p1Token.par p1Token.cfg p1Token.lut p1Token.stream p1Token.rd = .ok (.litRaw 0x62) ⟨0xA0, 7, 2⟩ :=
  ⟨rfl, rfl, rfl, rfl, rfl, by decide, rfl⟩

/-- A token that begins in the middle of a byte: three bits held, `01` and `0` the next, after them a literal. -/
theorem witness_DecodeReadsBackTheEncodedFields :
    (Instr.matchS 3 (.ext 7)).wf = true ∧ (Instr.matchS 3 (.ext 7)).selected .reference (blob 0) = true ∧
    (Instr.matchS 3 (.ext 7)).readable [] = true ∧
    AtFields (stream [0x03, 0x11, 0x21]) ⟨0x40, 3, 0⟩
      ((Instr.matchS 3 (.ext 7)).fields .reference ++ [.bit true, .raw 0x21]) :=
  ⟨by decide, by decide, by decide, by decide, by decide, by decide, by decide⟩

/-- A code word of the longest length, EAGER, from a full buffer. -/
theorem witness_DecodeReadsBackTheEncodedFields_code :
    (Instr.litCode ⟨15, 0x7FFF⟩).wf = true ∧ (Instr.litCode ⟨15, 0x7FFF⟩).selected .reference (blob 2) = true ∧
    (Instr.litCode ⟨15, 0x7FFF⟩).readable [(0x7FFF, ⟨15, 0xFF⟩)] = true ∧
    AtFields ⟨mem [0xFF, 0x00], 2, .eager⟩ ⟨0xFF, 8, 0⟩ ((Instr.litCode ⟨15, 0x7FFF⟩).fields .reference ++ []) :=
  ⟨by decide, by decide, by decide, by decide, by decide, by decide, by decide⟩

theorem witness_DecodeReadsBackTheEncodedBytes :
    (Instr.matchL 0x1234 .base).wf = true ∧ (Instr.matchL 0x1234 .base).selected .reference (blob 0) = true ∧
    (Instr.matchL 0x1234 .base).readable [] = true ∧
    encode .reference (.matchL 0x1234 .base) = .stream [0x20, 0x34, 0x12] ∧
    (stream [0x20, 0x34, 0x12]).refill = Params.reference.refill ∧
    0 + [0x20, 0x34, 0x12].length ≤ (stream [0x20, 0x34, 0x12]).len.toNat ∧
    ∀ j < 3, (stream [0x20, 0x34, 0x12]).byteAt (0 + j) = [0x20, 0x34, 0x12].getD j 0 := by decide

theorem witness_CommandWordsReadBack : (Instr.cmdNop true).isCommand = true := rfl

theorem witness_CtrlWriteCombines :
    (0x3 : Word).getLsbD 0 = true ∧
    ((0x2 : Word).getLsbD 0 = false ∧ (0x2 : Word).getLsbD 1 = true) ∧
    ((0x4 : Word).getLsbD 0 = false ∧ (0x4 : Word).getLsbD 1 = false) ∧
    (0xFFFFFFF8 : Word).setWidth 3 = (0 : Word).setWidth 3 := by decide

theorem witness_DecodedTokensBelongToTheVariant :
    decodeToken .reference (blob 2) lutABC (stream [0xC0]) ⟨0, 0, 0⟩ = .ok (.litCode ⟨2, 0x4000⟩) ⟨0, 5, 1⟩ := rfl

/-- RAW, REFILL, and RESEED under `P_EXTRA_RESEED`. -/
theorem witness_DecodeRaisesOnlyTruncation :
    decodeToken .reference (blob 0) [] (stream [0x80]) ⟨0, 0, 0⟩ = .error .raw ⟨0, 7, 1⟩ ∧
    decodeToken .reference (blob 0) [] (stream []) ⟨0, 0, 0⟩ = .error .refill ⟨0, 0, 0⟩ ∧
    decodeToken { Params.reference with reseedAfterLiteral := true } (blob 0) [] (stream [0x80, 0x62]) ⟨0, 0, 0⟩
      = .error .reseed ⟨0, 7, 2⟩ := ⟨rfl, rfl, rfl⟩

/-- A token that decodes and one that is cut off, from a reader that is in order; another from one past its input. -/
theorem witness_TokenReadsMoveForwardInsideTheInput :
    (∃ r', decodeToken .reference (blob 0) [] (stream [0x80, 0x62]) ⟨0, 0, 0⟩ = .ok (.litRaw 0x62) r') ∧
    (∃ r', decodeToken .reference (blob 0) [] (stream [0x80]) ⟨0x80, 8, 5⟩ = .error .raw r') ∧
    (0 : BitVec 4).toNat ≤ 8 ∧ (0x80 : Byte) <<< (8 : BitVec 4).toNat = 0 := ⟨⟨_, rfl⟩, ⟨_, rfl⟩, by decide, by decide⟩

theorem witness_DecodeIgnoresInputPastItsEnd :
    SameStream ⟨mem [0x80, 0x62, 0x01], 2, .eager⟩ ⟨mem [0x80, 0x62], 2, .eager⟩ :=
  ⟨rfl, rfl, by decide⟩

/-- The last byte of the input, and its end. -/
theorem witness_RawReadTakesTheByteAtIp :
    (1 : BitVec 33).toNat < (stream [0x80, 0x62]).len.toNat ∧
    (stream [0x80, 0x62]).len.toNat ≤ (2 : BitVec 33).toNat := by decide

/-- Empty with nothing left, empty with a byte left, the last held bit under LAZY, the last held bit under EAGER. -/
theorem witness_ReadBitTakesTheTopBit :
    ((0 : BitVec 4) = 0 ∧ (stream []).len.toNat ≤ (0 : BitVec 33).toNat) ∧
    (0 : BitVec 33).toNat < (stream [0x80]).len.toNat ∧
    ((1 : BitVec 4) ≠ 0 ∧ ¬((stream [0x80]).refill = .eager ∧ (1 : BitVec 4) = 1 ∧
      (0 : BitVec 33).toNat < (stream [0x80]).len.toNat)) ∧
    (0 : BitVec 33).toNat < (⟨mem [0x80], 1, .eager⟩ : Stream).len.toNat := by decide

theorem witness_EightBitsAreAByteMsbFirst :
    (stream [0xA5]).refill = .lazy ∧ (0 : BitVec 33).toNat < (stream [0xA5]).len.toNat := by decide

theorem witness_ReseedLoadsAFreshByte :
    (0 : BitVec 33).toNat < (stream [0xA5]).len.toNat ∧ (stream [0xA5]).len.toNat ≤ (1 : BitVec 33).toNat := by decide

/-- The last of the 128 length bytes at the last byte of the input, under both nibble orders, and past it. -/
theorem witness_LengthByteFillsTwoEntries :
    let s := { decodeState .table 2 false 0 0 9 [0x41] [0x12] with tix := 127 }
    let t := { s with par := { s.par with nibble := .lowFirst } }
    (s.phase = .table ∧ s.tix < 128 ∧ s.rd.ip.toNat < s.cfg.inLen.toNat ∧ s.par.nibble = .highFirst) ∧
    (t.phase = .table ∧ t.tix < 128 ∧ t.rd.ip.toNat < t.cfg.inLen.toNat ∧ t.par.nibble = .lowFirst) ∧
    (let u := { s with rd := ⟨0, 0, 1⟩ }
     u.phase = .table ∧ u.tix < 128 ∧ u.cfg.inLen.toNat ≤ u.rd.ip.toNat) := by decide

/-- A re-seed byte that is there, and one that is missing. -/
theorem witness_TableEndsWithAReseed :
    let s := { decodeState .table 2 false 0 0 9 [0x41] [0x12] with tix := 128 }
    let t := { decodeState .table 2 false 0 0 9 [0x41] [] with tix := 128 }
    (s.phase = .table ∧ 128 ≤ s.tix ∧ s.rd.ip.toNat < s.cfg.inLen.toNat) ∧
    (t.phase = .table ∧ 128 ≤ t.tix ∧ t.cfg.inLen.toNat ≤ t.rd.ip.toNat) := by decide

/-- Symbol 255, without a length, with one of 15 bits, and with one whose bits are missing; the end. -/
theorem witness_ExplicitBuildStoresTheLeaf :
    let s := { decodeState .build 2 false 0 0 9 [0x41] [0xFF, 0xFE] with tix := 255 }
    let t := { s with lens := [(255, 15)] }
    let u := { decodeState .build 2 false 0 0 9 [0x41] [] with tix := 255, lens := [(255, 1)] }
    (s.phase = .build ∧ s.par.codes = .explicit ∧ s.tix < 256 ∧ s.len s.tix = 0) ∧
    (t.phase = .build ∧ t.par.codes = .explicit ∧ t.tix < 256 ∧ t.len t.tix ≠ 0 ∧
      readBits t.stream (t.len t.tix).toNat t.rd = .ok 0x7FFF ⟨0, 1, 2⟩) ∧
    (u.phase = .build ∧ u.par.codes = .explicit ∧ u.tix < 256 ∧ u.len u.tix ≠ 0 ∧
      readBits u.stream (u.len u.tix).toNat u.rd = .error .refill ⟨0, 0, 0⟩) ∧
    256 ≤ { s with tix := 256 }.tix :=
  ⟨by decide, ⟨rfl, rfl, by decide, by decide, rfl⟩, ⟨rfl, rfl, by decide, by decide, rfl⟩, by decide⟩

/-- The last pass of all: symbol 255 without a 15-bit length, with one and the last code, with one and no code left; the end. -/
theorem witness_CanonicalBuildAssignsTheNextCode :
    let s := { decodeState .build 2 false 0 0 9 [0x41] [] with
      tix := 3839, par := { Params.reference with codes := .canonical } }
    let t := { s with lens := [(255, 15)], code := 32767 }
    let u := { t with code := 32768 }
    (s.phase = .build ∧ s.par.codes = .canonical ∧ s.tix < 15 * 256 ∧ (s.len (s.tix % 256)).toNat ≠ s.tix / 256 + 1) ∧
    ((t.len (t.tix % 256)).toNat = t.tix / 256 + 1 ∧ t.code < 2 ^ (t.tix / 256 + 1)) ∧
    ((u.len (u.tix % 256)).toNat = u.tix / 256 + 1 ∧ 2 ^ (u.tix / 256 + 1) ≤ u.code) ∧
    15 * 256 ≤ { s with tix := 3840 }.tix := by decide

theorem witness_PromotionMovesTheByteToTheFront : (Sparse.get rankRow [] (0x10 : Byte).toNat).length = 256 := by
  simp [Sparse.get, rankRow]

theorem witness_RankRowsStayPermutations : ∀ d, (Sparse.get rankRow [] d).Perm rankRow := fun _ => List.Perm.refl _

/-- `S = 5B` and `S = 5B + 1`. -/
theorem witness_OffsetTableDistances :
    15 ≤ 5 * 3 ∧ 5 * 3 < 16 ∧ 0xFFFFFFFF < 2 ^ 32 ∧ (2 : Fin 8).val < 3 := by decide

/-- The last byte of a decode. -/
theorem witness_RawLiteralWritesItsByte : lastToken.cur.toNat < lastToken.cfg.outLen.toNat := by decide

/-- The last byte of a decode whose code has words. -/
def lastCoded : State := { decodeState .token 6 false 0 0 2 [0x41] [] with lut := lutABC }

theorem witness_CodeLiteralWritesItsSymbol :
    lastCoded.cur.toNat < lastCoded.cfg.outLen.toNat ∧ (⟨2, 0x4000⟩ : CodeWord).len ≠ 0 ∧
    (lastCoded.lut.get 0x4000).len.toNat = 2 := by decide

theorem witness_RankLiteralWritesAndPromotes :
    lastCoded.cur.toNat < lastCoded.cfg.outLen.toNat ∧ lastCoded.cfg.base.toNat ≤ lastCoded.cur.toNat ∧
    (⟨2, 0x6000⟩ : CodeWord).len ≠ 0 ∧ (lastCoded.lut.get 0x6000).len.toNat = 2 := by decide

/-- No entry for 15 bits, an entry of another length, the empty word. -/
theorem witness_LiteralWithoutAnEntryFails :
    (lastCoded.lut.get 0x7FFE).len.toNat ≠ 15 ∧ (lastCoded.lut.get 0x4000).len.toNat ≠ 1 ∧
    (⟨0, 0⟩ : CodeWord).len = 0 := by decide

/-- `cur = U`; `cur < B`; `B <= cur` with `cur = U`. -/
theorem witness_LiteralsStopOutsideADecode :
    let s := { lastCoded with cur := 2 }
    let t := { lastCoded with cur := 0 }
    (⟨2, 0x4000⟩ : CodeWord).len ≠ 0 ∧ (s.lut.get 0x4000).len.toNat = 2 ∧ s.cfg.outLen.toNat ≤ s.cur.toNat ∧
    s.cfg.base.toNat ≤ s.cur.toNat ∧ (t.lut.get 0x4000).len.toNat = 2 ∧ t.cur.toNat < t.cfg.base.toNat := by decide

/-- The offset that reaches OUT[0], the length that ends at U. -/
theorem witness_ByteOffsetMatchesCopy :
    LengthIs 2 (.ext 10) 12 ∧ LengthIs 2 .base 2 ∧ (1 : Byte) ≠ 0 ∧ (1 : Byte).toNat ≤ p1Token.cur.toNat ∧
    p1Token.cur.toNat + 12 ≤ p1Token.cfg.outLen.toNat :=
  ⟨.inr ⟨10, rfl, rfl⟩, .inl ⟨rfl, rfl⟩, by decide, by decide, by decide⟩

theorem witness_WordOffsetMatchesCopy :
    LengthIs 3 (.ext 9) 12 ∧ LengthIs 3 .base 3 ∧ (1 : BitVec 16) ≠ 0 ∧ (1 : BitVec 16).toNat ≤ p1Token.cur.toNat ∧
    p1Token.cur.toNat + 12 ≤ p1Token.cfg.outLen.toNat :=
  ⟨.inr ⟨9, rfl, rfl⟩, .inl ⟨rfl, rfl⟩, by decide, by decide, by decide⟩

/-- P6 and P7: baseline 2 with `B = 1`, baseline 1 with `B = 2`. -/
theorem witness_ContextualMatchesCopy :
    let s := decodeState .token 1 true 1 8 16 [0, 1, 2, 3, 4, 5, 6, 7] []
    let t := decodeState .token 9 true 2 8 3 [0x11, 0x22] []
    (LengthIs (if s.cfg.base = 1 then 2 else 1) (.ext 6) 8 ∧ s.oct[4] ≠ 0 ∧ s.oct[4] ≤ s.cur.toNat ∧
      s.cur.toNat + 8 ≤ s.cfg.outLen.toNat) ∧
    (LengthIs (if t.cfg.base = 1 then 2 else 1) .base 1 ∧ t.oct[0] ≠ 0 ∧ t.oct[0] ≤ t.cur.toNat ∧
      t.cur.toNat + 1 ≤ t.cfg.outLen.toNat) :=
  ⟨⟨.inr ⟨6, rfl, by decide⟩, by decide, by decide, by decide⟩, ⟨.inl ⟨rfl, by decide⟩, by decide, by decide, by decide⟩⟩

/-- A gamma field that overflows, offset 0, an offset one too far, a length one too long. -/
theorem witness_MatchChecksRunInOrder :
    (matchOperands p1Token (.matchS 0 .overflow) = some (⟨0, 2⟩, .overflow)) ∧
    (matchOperands p1Token (.matchL 0 .base) = some (⟨0, 3⟩, .base) ∧ LengthIs 3 .base 3) ∧
    (matchOperands p1Token (.matchXS 2 .base) = some (⟨2, 2⟩, .base) ∧ p1Token.cur.toNat < 2) ∧
    (matchOperands p1Token (.matchB8 1 (.ext 11)) = some (⟨1, 2⟩, .ext 11) ∧ LengthIs 2 (.ext 11) 13 ∧
      1 ≤ p1Token.cur.toNat ∧ p1Token.cfg.outLen.toNat - p1Token.cur.toNat < 13) :=
  ⟨rfl, ⟨rfl, .inl ⟨rfl, rfl⟩⟩, ⟨rfl, by decide⟩, ⟨rfl, .inr ⟨11, rfl, rfl⟩, by decide, by decide⟩⟩

theorem witness_StartInitialisesADecode : finished.busy = false ∧ finishedOtherwise.busy = false := by decide

theorem witness_BusyStartSetsOnlyIe : p1Token.busy = true := rfl

theorem witness_ClearAcknowledges :
    finished.phase = .done ∧ (p1Token.raise .raw).phase = .error ∧
    (State.reset.phase ≠ .done ∧ State.reset.phase ≠ .error) ∧ (p1Token.phase ≠ .done ∧ p1Token.phase ≠ .error) := by
  decide

theorem witness_IrqFollowsIeAndPhase :
    (∃ t, exec (.cmdClear true) { finished with ie := true } = .next t) ∧
    (∃ t, exec (.cmdStart false true) { finished with ie := true } = .next t) ∧
    (∃ t, exec (.cmdNop false) { finished with ie := true } = .next t) := ⟨⟨_, rfl⟩, ⟨_, rfl⟩, ⟨_, rfl⟩⟩

/-- E-5. -/
theorem witness_CutOffTokenEntersError :
    let s := decodeState .token 0 false 0 0 5 [0x61] [0x80]
    s.phase = .token ∧ s.cur.toNat < s.cfg.outLen.toNat ∧
    decodeToken s.par s.cfg s.lut s.stream s.rd = .error .raw ⟨0, 7, 1⟩ := ⟨rfl, by decide, rfl⟩

theorem witness_StatusShowsTheCause :
    (Cause.kraft, 2, 14) ∈ [(Cause.prefixByte, 1, 1), (.table, 1, 2), (.reseed, 1, 3), (.refill, 1, 4), (.raw, 1, 5),
      (.badParam, 2, 8), (.noCode, 2, 9), (.offsetZero, 2, 10), (.offsetBeforeStart, 2, 11), (.lengthOverrun, 2, 12),
      (.gammaOverflow, 2, 13), (.kraft, 2, 14)] := by decide

/-- Image mode with `B = 0` and with `B = 1`, blob mode. -/
theorem witness_InitChecksBaseLength :
    let s := decodeState .init 0 true 0 0 3 [] []
    let t := decodeState .init 0 true 1 0 3 [] []
    let u := decodeState .init 0 false 0 0 3 [] []
    (s.phase = .init ∧ s.cfg.image = true ∧ s.cfg.base = 0) ∧ (t.phase = .init ∧ t.cfg.base ≠ 0) ∧
    (u.phase = .init ∧ u.cfg.image = false) := by decide

/-- The last verbatim byte, the same with no input left (E-1), none to come. -/
theorem witness_PrefixCopiesVerbatim :
    let s := decodeState .prefixCopy 0 true 3 0 4 [1, 2] [5]
    let t := decodeState .prefixCopy 0 true 3 0 4 [1, 2] []
    let u := decodeState .prefixCopy 0 true 4 0 2 [1, 2] []
    (s.phase = .prefixCopy ∧ s.cur.toNat < min s.cfg.base.toNat s.cfg.outLen.toNat ∧
      s.rd.ip.toNat < s.cfg.inLen.toNat) ∧
    (t.cur.toNat < min t.cfg.base.toNat t.cfg.outLen.toNat ∧ t.cfg.inLen.toNat ≤ t.rd.ip.toNat) ∧
    min u.cfg.base.toNat u.cfg.outLen.toNat ≤ u.cur.toNat := by decide

/-- The highest `ip` there is. -/
theorem witness_AlignRoundsTheCursorUp :
    let s := { decodeState .align 2 false 0 0 9 [0x41] [] with rd := ⟨0, 0, 0x100000000⟩ }
    s.phase = .align ∧ s.rd.ip.toNat ≤ 2 ^ 32 := by decide

/-- A token; IDLE, DONE and ERROR. -/
theorem witness_BlockFollowsThePhaseTable :
    (∃ t, p1Token.blockStep = .next t) ∧ State.reset.busy = false ∧ finished.busy = false ∧
    (p1Token.raise .raw).busy = false := ⟨⟨_, rfl⟩, rfl, rfl, rfl⟩

/-- The last literal, with another OUT from the cursor on: a known byte there, and free ones. -/
theorem witness_DoneMeansTheWholeOutput :
    lastToken.Inv ∧ lastToken.busy = true ∧ (∃ t, lastToken.blockStep = .next t ∧ t.phase = .done) ∧
    ∀ a < lastToken.cur.toNat,
      { lastToken with outMem := [(0, 0x61), (1, 0x99)], outDrawn := [⟨2, 9, 0⟩] }.readOut a = lastToken.readOut a :=
  ⟨lastToken_inv, rfl, ⟨_, rfl, rfl⟩, by decide⟩

theorem witness_TokensMakeProgress :
    lastToken.phase = .token ∧ lastToken.cur.toNat < lastToken.cfg.outLen.toNat ∧ ∃ t, lastToken.blockStep = .next t :=
  ⟨rfl, by decide, _, rfl⟩

theorem witness_EveryDecodeEnds : p1Token.Inv ∧ p1Token.busy = true := ⟨p1Token_inv, rfl⟩

theorem witness_BlockWritesOnlyItsOutput : ∃ t, p1Token.blockStep = .next t := ⟨_, rfl⟩

/-- P1's token phase, reached by a machine with another OUT from the cursor on, other read data and IE set. -/
def p1TokenOtherwise : State :=
  { p1Token with outMem := [(0, 0x61), (5, 0x99)], rdata := 7, ie := true }

theorem p1TokenOtherwise_inv : p1TokenOtherwise.Inv := inv_of_facts _ rfl rfl rfl rfl (by decide)

/-- Two decodes under way that agree; two pasts with the same inputs, three steps. -/
theorem witness_DecodeDependsOnItsInputsOnly :
    (p1Token.Inv ∧ p1TokenOtherwise.Inv ∧ Agree p1Token p1TokenOtherwise ∧ ∃ t, p1Token.blockStep = .next t) ∧
    finished.Inv ∧ finishedOtherwise.Inv ∧ finished.busy = false ∧ finishedOtherwise.busy = false ∧
    SameInputs finished finishedOtherwise ∧
    ∃ t u, exec (.cmdStart false true) finished = .next u ∧ blockRun 3 u = .next t :=
  ⟨⟨p1Token_inv, p1TokenOtherwise_inv,
    ⟨rfl, rfl, rfl, rfl, rfl, rfl, rfl, rfl, rfl, rfl, rfl, fun _ _ _ => rfl, fun _ _ _ => rfl, fun _ _ => rfl, by decide⟩,
    _, rfl⟩,
   finished_inv, finishedOtherwise_inv, rfl, rfl, ⟨rfl, rfl, rfl, rfl, rfl, rfl, rfl, by decide⟩, _, _, rfl, rfl⟩

theorem witness_HostAccessesCannotChangeADecode :
    p1Token.busy = true ∧
    HostMove.write 0x00 4 7 ∈ [HostMove.read 0x24 4, .write 0x00 4 7, .readIn 0, .readOut 0] := by decide

theorem witness_ParametersReadBack : finished.busy = false := rfl

theorem witness_BusyParameterWritesAreIgnored : p1Token.busy = true ∧ (0x18 : BitVec 8) ≠ 0x00 := by decide

/-- Offset 5 with 32 bits (V-H-6), offset 0 with 8 bits. -/
theorem witness_UnalignedAccessesDoNothing :
    ¬(4 = 4 ∧ (0x05 : BitVec 8).toNat % 4 = 0) ∧ ¬(1 = 4 ∧ (0x00 : BitVec 8).toNat % 4 = 0) := by decide

/-- STATUS, IN_POS, the last reserved offset; the first and the last reserved offset. -/
theorem witness_ReadOnlyAndReservedOffsets :
    (0x1C : BitVec 8) ≤ 0x1C ∧ (0x1C : BitVec 8) ≤ 0xFC ∧ (0x28 : BitVec 8) ≤ 0x28 ∧ (0x28 : BitVec 8) ≤ 0xFC := by decide

/-- DONE, ERROR and IDLE; the last offset. -/
theorem witness_RegisterFieldsStandAtTheirBits :
    finished.busy = false ∧ (p1Token.raise .raw).busy = false ∧ State.reset.busy = false ∧
    (0xFC : BitVec 8).toNat % 4 = 0 := by decide

theorem witness_ReadsWhileBusy : p1Token.Inv ∧ p1Token.busy = true := ⟨p1Token_inv, rfl⟩

theorem witness_HostMemoryAccesses : finished.busy = false ∧ p1Token.busy = true := by decide

end Sys2Proof.Tests
end

/-! SUPPORT. What every read of the stream does to the reader's registers, and that no token decodes to a command. -/
namespace Sys2Proof.Machine

/-! ## Where a read leaves the reader (R16, R17, R39) -/

/-- What a read of the stream may do to the registers: `ip` moves forward and only inside the input, CNT stays at most
8, the unread bits stay left-justified, and a buffer is filled only inside the input. -/
structure Reader.Advances (st : Stream) (r r' : Reader) : Prop where
  ipLe : r.ip.toNat ≤ r'.ip.toNat
  ipInside : r'.ip = r.ip ∨ r'.ip.toNat ≤ st.len.toNat
  cntLe : r.cnt.toNat ≤ 8 → r'.cnt.toNat ≤ 8
  justified : r.buf <<< r.cnt.toNat = 0 → r'.buf <<< r'.cnt.toNat = 0
  filled : r'.cnt ≠ 0 → r.cnt ≠ 0 ∨ r'.ip.toNat ≤ st.len.toNat

theorem Reader.Advances.refl (st : Stream) (r : Reader) : r.Advances st r :=
  ⟨le_refl _, .inl rfl, id, id, .inl⟩

/-- A reader inside the input stays there. -/
theorem Reader.Advances.inside {st : Stream} {r q : Reader} (h : r.Advances st q) (hr : r.ip.toNat ≤ st.len.toNat) :
    q.ip.toNat ≤ st.len.toNat := by
  rcases h.ipInside with e | e
  · exact e ▸ hr
  · exact e

theorem Reader.Advances.trans {st : Stream} {r q p : Reader} (h : r.Advances st q) (g : q.Advances st p) :
    r.Advances st p where
  ipLe := h.ipLe.trans g.ipLe
  ipInside := by
    rcases g.ipInside with e | e
    · rw [e]
      exact h.ipInside
    · exact .inr e
  cntLe := g.cntLe ∘ h.cntLe
  justified := g.justified ∘ h.justified
  filled hp := by
    rcases g.filled hp with hq | hq
    · rcases h.filled hq with hr | hr
      · exact .inl hr
      · exact .inr (g.inside hr)
    · exact .inr hq

/-- Taking the byte at `ip` and leaving the buffer. -/
theorem Reader.Advances.skipByte {st : Stream} {r : Reader} (h : st.hasByte r) :
    r.Advances st { r with ip := r.ip + 1 } := by
  have hip := Stream.hasByte_next h
  exact ⟨by simp only; omega, .inr (by simp only; omega), id, id, .inl⟩

theorem Reader.Advances.loadBuf {st : Stream} {r : Reader} (h : st.hasByte r) : r.Advances st (loadBuf st r) := by
  have hip := Stream.hasByte_next h
  have hempty : ∀ b : Byte, b <<< (8 : BitVec 4).toNat = 0 := by decide
  exact ⟨by simp only [loadBuf_ip]; omega, .inr (by simp only [loadBuf_ip]; omega), fun _ => by simp, fun _ => hempty _,
    fun _ => .inr (by simp only [loadBuf_ip]; omega)⟩

theorem Reader.Advances.eagerRefill (st : Stream) (r : Reader) : r.Advances st (eagerRefill st r) := by
  rcases eagerRefill_cases st r with ⟨-, -, hb, e⟩ | ⟨-, e⟩ <;> rw [e]
  · exact .loadBuf hb
  · exact .refl st r

/-- Dropping the top bit of a buffer that holds one. -/
theorem Reader.Advances.dropBit (st : Stream) {r : Reader} (h : r.cnt ≠ 0) :
    r.Advances st { r with buf := r.buf <<< 1, cnt := r.cnt - 1 } := by
  have hcnt : (r.cnt - 1).toNat = r.cnt.toNat - 1 := by bv_omega
  have hpos : 1 + (r.cnt.toNat - 1) = r.cnt.toNat := by bv_omega
  refine ⟨le_refl _, .inl rfl, ?_, ?_, fun _ => .inl h⟩
  · intro hle
    simp only [hcnt]
    omega
  · intro hj
    simp only [hcnt]
    rw [← BitVec.shiftLeft_add, hpos, hj]

theorem Reader.Advances.takeBit (st : Stream) {r : Reader} (h : r.cnt ≠ 0) : r.Advances st (takeBit st r).2 :=
  (dropBit st h).trans (eagerRefill st _)

/-! ## Every read advances the reader -/

/-- The registers after a read, whether it goes on or raises. -/
def Fetch.after {α : Type} (f : Fetch α) (r : Reader) : Reader :=
  match f r with
  | .ok _ r' => r'
  | .error _ r' => r'

theorem Fetch.after_ok {α : Type} {f : Fetch α} {r r' : Reader} {a : α} (h : f r = .ok a r') : f.after r = r' := by
  simp only [Fetch.after, h]

theorem Fetch.after_error {α : Type} {f : Fetch α} {r r' : Reader} {c : Cause} (h : f r = .error c r') :
    f.after r = r' := by
  simp only [Fetch.after, h]

/-- The read advances the reader from wherever it starts. -/
def Fetch.Advances {α : Type} (st : Stream) (f : Fetch α) : Prop :=
  ∀ r : Reader, r.Advances st (f.after r)

theorem Fetch.Advances.pure {α : Type} (st : Stream) (a : α) : Fetch.Advances st (pure a) := fun r => .refl st r

theorem Fetch.Advances.bind {α β : Type} {st : Stream} {f : Fetch α} {g : α → Fetch β} (hf : f.Advances st)
    (hg : ∀ a, (g a).Advances st) : (f >>= g).Advances st := by
  intro r
  have hr := hf r
  cases h : f r with
  | ok a q =>
    rw [Fetch.after_ok h] at hr
    have : (f >>= g).after r = (g a).after q := by simp only [Fetch.after, Fetch.bind_eq h]
    exact this ▸ hr.trans (hg a q)
  | error c q =>
    rw [Fetch.after_error h] at hr
    exact Fetch.after_error (Fetch.bind_eq_error (g := g) h) ▸ hr

theorem Fetch.Advances.ite {α : Type} {st : Stream} {p : Prop} [Decidable p] {f g : Fetch α} (hf : f.Advances st)
    (hg : g.Advances st) : (if p then f else g).Advances st := by
  split
  · exact hf
  · exact hg

theorem readByte_advances (st : Stream) (c : Cause) : (readByte st c).Advances st := by
  intro r
  rcases readByte_cases st c r with ⟨hb, e⟩ | ⟨-, e⟩
  · rw [Fetch.after_ok e]
    exact .skipByte hb
  · rw [Fetch.after_error e]
    exact .refl st r

theorem readBit_advances (st : Stream) : (readBit st).Advances st := by
  intro r
  rcases readBit_cases st r with ⟨hc, e⟩ | ⟨-, hb, e⟩ | ⟨-, -, e⟩
  · rw [Fetch.after_ok e]
    exact .takeBit st hc
  · rw [Fetch.after_ok e]
    exact (Reader.Advances.loadBuf hb).trans (.takeBit st (by simp))
  · rw [Fetch.after_error e]
    exact .refl st r

theorem reseed_advances (st : Stream) : (reseed st).Advances st := by
  intro r
  rcases reseed_cases st r with ⟨hb, e⟩ | ⟨-, e⟩
  · rw [Fetch.after_ok e]
    exact .loadBuf hb
  · rw [Fetch.after_error e]
    exact .refl st r

theorem reseedIf_advances (p : Bool) (st : Stream) : (reseedIf p st).Advances st :=
  .ite (reseed_advances st) (.pure st ())

theorem readBitsOnto_advances (st : Stream) (n v : Nat) : (readBitsOnto st n v).Advances st := by
  induction n generalizing v with
  | zero => exact .pure st v
  | succ n ih => exact (readBit_advances st).bind fun b => ih _

theorem readBits_advances (st : Stream) (n : Nat) : (readBits st n).Advances st := readBitsOnto_advances st n 0

theorem countZeros_advances (st : Stream) (n z : Nat) : (countZeros st n z).Advances st := by
  induction n generalizing z with
  | zero => exact .pure st none
  | succ n ih => exact (readBit_advances st).bind fun b => .ite (.pure st (some z)) (ih (z + 1))

theorem gammaField_advances (st : Stream) : (gammaField st).Advances st := by
  refine (countZeros_advances st 32 0).bind fun z => ?_
  cases z with
  | none => exact .pure st _
  | some z => exact (readBitsOnto_advances st z 1).bind fun v => .pure st _

theorem lengthPart_advances (st : Stream) : (lengthPart st).Advances st :=
  (readBit_advances st).bind fun _ => .ite (.pure st _) (gammaField_advances st)

theorem walkCode_advances (st : Stream) (lut : Lut) (fuel n : Nat) (acc : BitVec 15) :
    (walkCode st lut fuel n acc).Advances st := by
  induction fuel generalizing n acc with
  | zero => exact .pure st _
  | succ fuel ih => exact (readBit_advances st).bind fun b => .ite (.pure st _) (ih _ _)

theorem offsetBytes_advances (par : Params) (c : Latched) (st : Stream) : (offsetBytes par c st).Advances st := by
  unfold offsetBytes
  cases c.offsetMode with
  | oneByte => exact (readByte_advances st .raw).bind fun o => .pure st _
  | twoByte =>
    refine (readBit_advances st).bind fun f => .ite ?_ ?_
    · exact (readByte_advances st .raw).bind fun o => .pure st _
    · exact (readByte_advances st .raw).bind fun lo => (readByte_advances st .raw).bind fun hi => .pure st _

theorem explicitOffset_advances (par : Params) (c : Latched) (st : Stream) : (explicitOffset par c st).Advances st :=
  (offsetBytes_advances par c st).bind fun o => (reseedIf_advances _ st).bind fun _ => .pure st o

theorem readSelector_advances (st : Stream) : (readSelector st).Advances st :=
  (readBits_advances st 3).bind fun _ => .pure st _

theorem decodeLiteral_advances (par : Params) (c : Latched) (lut : Lut) (st : Stream) :
    (decodeLiteral par c lut st).Advances st :=
  .ite ((walkCode_advances st lut 15 0 0).bind fun _ => .pure st _)
    ((readByte_advances st .raw).bind fun _ => (reseedIf_advances _ st).bind fun _ => .pure st _)

theorem decodeMatch_advances (par : Params) (c : Latched) (st : Stream) : (decodeMatch par c st).Advances st := by
  have explicit (k : ExplicitOffset → LenPart → Instr) :
      Fetch.Advances st (do let o ← explicitOffset par c st; let x ← lengthPart st; pure (k o x)) :=
    (explicitOffset_advances par c st).bind fun o => (lengthPart_advances st).bind fun x => .pure st _
  have ctx (two : Bool) : (decodeCtx two st).Advances st :=
    (readSelector_advances st).bind fun sel => (lengthPart_advances st).bind fun x => .pure st _
  exact .ite (.ite ((readBit_advances st).bind fun k => .ite (ctx true) (explicit _)) (ctx false)) (explicit _)

/-- Reading a token, whole or cut off, advances the reader. -/
theorem decodeToken_advances (par : Params) (c : Latched) (lut : Lut) (st : Stream) :
    (decodeToken par c lut st).Advances st :=
  (readBit_advances st).bind fun _ => .ite (decodeLiteral_advances par c lut st) (decodeMatch_advances par c st)

/-- Settles O15: the reader's registers as they stand after a token, read through `decodeToken_advances`. -/
theorem tokenReadsMoveForwardInsideTheInput : Obligations.TokenReadsMoveForwardInsideTheInput := by
  intro par c lut st r r' h
  have hr : (decodeToken par c lut st).after r = r' := by
    rcases h with ⟨i, h⟩ | ⟨e, h⟩
    · exact Fetch.after_ok h
    · exact Fetch.after_error h
  obtain ⟨ipLe, ipInside, cntLe, justified, -⟩ := hr ▸ decodeToken_advances par c lut st r
  exact ⟨ipLe, ipInside, cntLe, justified⟩

/-! ## Every token is an instruction of the stream (R6) -/

/-- Every value that the read gives meets `P`. -/
def Fetch.Gives {α : Type} (P : α → Prop) (f : Fetch α) : Prop := ∀ r a r', f r = .ok a r' → P a

theorem Fetch.Gives.pure {α : Type} {P : α → Prop} {a : α} (h : P a) : Fetch.Gives P (pure a) := by
  intro r b r' hb
  cases hb
  exact h

/-- The last part of a read gives the value. -/
theorem Fetch.Gives.bind {α β : Type} {P : β → Prop} {f : Fetch α} {g : α → Fetch β} (hg : ∀ a, (g a).Gives P) :
    (f >>= g).Gives P := by
  intro r b r' hb
  obtain ⟨a, q, -, hb⟩ := Fetch.bind_ok hb
  exact hg a q b r' hb

theorem Fetch.Gives.ite {α : Type} {P : α → Prop} {p : Prop} [Decidable p] {f g : Fetch α} (hf : f.Gives P)
    (hg : g.Gives P) : (if p then f else g).Gives P := by
  split
  · exact hf
  · exact hg

theorem explicitMatch_isToken {f : Fetch ExplicitOffset} {g : Fetch LenPart} {k : ExplicitOffset → LenPart → Instr}
    (hk : ∀ o x, (k o x).isCommand = false) :
    Fetch.Gives (·.isCommand = false) (do let o ← f; let x ← g; pure (k o x)) :=
  .bind fun o => .bind fun x => .pure (hk o x)

theorem decodeCtx_isToken (two : Bool) (st : Stream) : (decodeCtx two st).Gives (·.isCommand = false) :=
  .bind fun _ => .bind fun _ => .pure (by cases two <;> rfl)

/-- No token decodes to a command of the host. -/
theorem decodeToken_isToken (par : Params) (c : Latched) (lut : Lut) (st : Stream) :
    (decodeToken par c lut st).Gives (·.isCommand = false) := by
  have literal : (decodeLiteral par c lut st).Gives (·.isCommand = false) :=
    .ite (.bind fun _ => .pure (by cases c.useRank <;> rfl)) (.bind fun _ => .bind fun _ => .pure rfl)
  have plain : (decodePlain par c st).Gives (·.isCommand = false) :=
    explicitMatch_isToken fun o _ => by cases o <;> rfl
  have branched : (decodeBranched par c st).Gives (·.isCommand = false) :=
    explicitMatch_isToken fun o _ => by cases o <;> rfl
  exact .bind fun _ => .ite literal
    (.ite (.ite (.bind fun _ => .ite (decodeCtx_isToken true st) branched) (decodeCtx_isToken false st)) plain)

end Sys2Proof.Machine

/-! SUPPORT. What a token's meaning and a step of the block can do, said once each: the statements about the block are
read off `TokenEffect` and `BlockMove`. -/
namespace Sys2Proof.Machine

/-! ## A run of bytes to OUT -/

/-- The bytes go out at the cursor, one after the other. -/
def State.putBytes (s : State) : List Byte → State
  | [] => s
  | v :: vs => (s.putByte v).putBytes vs

/-- A copy is a run of bytes of its length. -/
theorem copyBytes_eq_putBytes (n offset : Nat) (s : State) :
    ∃ vs : List Byte, vs.length = n ∧ copyBytes n offset s = s.putBytes vs := by
  induction n generalizing s with
  | zero => exact ⟨[], rfl, rfl⟩
  | succ n ih =>
    obtain ⟨vs, hlen, hvs⟩ := ih (s.putByte (s.readOut (s.cur.toNat - offset)))
    exact ⟨_ :: vs, by simp [hlen], hvs⟩

/-- A run of bytes changes OUT and the cursor alone. -/
theorem State.putBytes_frame (s : State) (vs : List Byte) :
    s.putBytes vs = { s with
      outMem := (s.putBytes vs).outMem
      outDrawn := (s.putBytes vs).outDrawn
      cur := (s.putBytes vs).cur } := by
  induction vs generalizing s with
  | nil => rfl
  | cons v vs ih =>
    rw [State.putBytes, ih]
    rfl

theorem State.putByte_cur_toNat {s : State} (v : Byte) (h : s.cur.toNat < s.cfg.outLen.toNat) :
    (s.putByte v).cur.toNat = s.cur.toNat + 1 := by
  rw [State.putByte_cur]
  bv_omega

@[simp] theorem State.putBytes_rd (s : State) (vs : List Byte) : (s.putBytes vs).rd = s.rd := by
  rw [State.putBytes_frame]

@[simp] theorem State.putBytes_phase (s : State) (vs : List Byte) : (s.putBytes vs).phase = s.phase := by
  rw [State.putBytes_frame]

@[simp] theorem State.putBytes_cfg (s : State) (vs : List Byte) : (s.putBytes vs).cfg = s.cfg := by
  rw [State.putBytes_frame]

theorem State.putBytes_cur_toNat {s : State} {vs : List Byte} (h : s.cur.toNat + vs.length ≤ s.cfg.outLen.toNat) :
    (s.putBytes vs).cur.toNat = s.cur.toNat + vs.length := by
  induction vs generalizing s with
  | nil => rfl
  | cons v vs ih =>
    rw [List.length_cons] at h ⊢
    have hcur : (s.putByte v).cur.toNat = s.cur.toNat + 1 := State.putByte_cur_toNat v (by omega)
    rw [State.putBytes, ih (by rw [hcur, State.putByte_cfg]; omega), hcur]
    omega

/-- Past the bytes that go out OUT is as before. -/
theorem State.readOut_putBytes_of_le {s : State} {vs : List Byte} {a : Nat} (h : s.cur.toNat + vs.length ≤ a) :
    (s.putBytes vs).readOut a = s.readOut a := by
  induction vs generalizing s with
  | nil => rfl
  | cons v vs ih =>
    rw [List.length_cons] at h
    have hcur : (s.putByte v).cur.toNat ≤ s.cur.toNat + 1 := by
      rw [State.putByte_cur]
      bv_omega
    rw [State.putBytes, ih (by omega), State.readOut_putByte, if_neg (by omega)]

/-! ## Tokens -/

/-- A match token runs the common part with its operands. -/
theorem exec_match {s : State} {i : Instr} {m : MatchOffset} {x : LenPart} (h : matchOperands s i = some (m, x)) :
    exec i s = .next (s.runMatch m x) := by
  cases i <;> cases h <;> rfl

/-- A token is one of the three literals or has a match's operands. -/
theorem token_cases (s : State) {i : Instr} (h : i.isCommand = false) :
    (∃ v, i = .litRaw v) ∨ (∃ w, i = .litCode w) ∨ (∃ w, i = .litRank w) ∨
      ∃ m x, matchOperands s i = some (m, x) := by
  cases i with
  | litRaw v => exact .inl ⟨v, rfl⟩
  | litCode w => exact .inr (.inl ⟨w, rfl⟩)
  | litRank w => exact .inr (.inr (.inl ⟨w, rfl⟩))
  | cmdStart | cmdClear | cmdNop => cases h
  | _ => exact .inr (.inr (.inr ⟨_, _, rfl⟩))

/-- The rank table takes new rows. -/
def State.withRanks (s : State) (rt : Sparse (List Byte)) : State := { s with rt := rt }

/-- LIT.CODE (R110): no entry and NO_CODE, or its entry's symbol goes out. -/
theorem exec_litCode_cases (s : State) (w : CodeWord) :
    (codeSymbol s.lut w = none ∧ exec (.litCode w) s = .next (s.raise .noCode)) ∨
    ∃ sym, codeSymbol s.lut w = some sym ∧ exec (.litCode w) s = s.emit sym := by
  change (_ ∧ execLitCode w s = _) ∨ ∃ sym, _ ∧ execLitCode w s = _
  unfold execLitCode
  cases codeSymbol s.lut w with
  | none => exact .inl ⟨rfl, rfl⟩
  | some sym => exact .inr ⟨sym, rfl, rfl⟩

/-- LIT.RANK (R111): no entry and NO_CODE, no context and a fault of the model, or the byte at the rank goes out,
promoted in its context. -/
theorem exec_litRank_cases (s : State) (w : CodeWord) :
    (codeSymbol s.lut w = none ∧ exec (.litRank w) s = .next (s.raise .noCode)) ∨
    ∃ k, codeSymbol s.lut w = some k ∧
      ((s.cur.toNat < s.cfg.base.toNat ∧ exec (.litRank w) s = .fault .contextBeforeStart) ∨
       (s.cfg.base.toNat ≤ s.cur.toNat ∧ ∃ c, c = s.readOut (s.cur.toNat - s.cfg.base.toNat) ∧
        exec (.litRank w) s = (s.withRanks (lookupAndPromote s.rt c k).2).emit (lookupAndPromote s.rt c k).1)) := by
  change (_ ∧ execLitRank w s = _) ∨ ∃ k, _ ∧ ((_ ∧ execLitRank w s = _) ∨ (_ ∧ ∃ c, _ ∧ execLitRank w s = _))
  unfold execLitRank
  cases codeSymbol s.lut w with
  | none => exact .inl ⟨rfl, rfl⟩
  | some k =>
    refine .inr ⟨k, rfl, ?_⟩
    by_cases hB : s.cur.toNat < s.cfg.base.toNat
    · exact .inl ⟨hB, if_pos hB⟩
    · exact .inr ⟨Nat.not_lt.mp hB, _, rfl, if_neg hB⟩

/-- The table is as before, or one rank of one context was promoted. -/
def Promoted (rt rt' : Sparse (List Byte)) : Prop := rt' = rt ∨ ∃ c k, rt' = (lookupAndPromote rt c k).2

/-- What the meaning of a token leaves: a failure, or a run of bytes that ends at most at U, perhaps with a rank
promoted. -/
inductive TokenEffect (s : State) : State → Prop where
  | fail (c : Cause) : TokenEffect s (s.raise c)
  | write (rt : Sparse (List Byte)) (vs : List Byte) (hrt : Promoted s.rt rt)
      (hfit : s.cur.toNat + vs.length ≤ s.cfg.outLen.toNat) : TokenEffect s ((s.withRanks rt).putBytes vs)

theorem TokenEffect.of_emit {s t : State} {rt : Sparse (List Byte)} {v : Byte} (hrt : Promoted s.rt rt)
    (h : (s.withRanks rt).emit v = .next t) : TokenEffect s t := by
  obtain ⟨hlt, rfl⟩ := State.emit_next h
  exact .write rt [v] hrt hlt

theorem TokenEffect.of_runMatch {s : State} (m : MatchOffset) (x : LenPart) (hcur : s.cur.toNat ≤ s.cfg.outLen.toNat) :
    TokenEffect s (s.runMatch m x) := by
  rcases State.runMatch_cases s m x with ⟨c, e, -⟩ | ⟨n, -, -, -, -, hn, e⟩ <;> rw [e]
  · exact .fail c
  · obtain ⟨vs, hlen, hvs⟩ := copyBytes_eq_putBytes n m.offset s
    rw [hvs]
    exact .write s.rt vs (.inl rfl) (by omega)

theorem exec_tokenEffect {i : Instr} {s t : State} (hi : i.isCommand = false) (hcur : s.cur.toNat ≤ s.cfg.outLen.toNat)
    (h : exec i s = .next t) : TokenEffect s t := by
  rcases token_cases s hi with ⟨v, rfl⟩ | ⟨w, rfl⟩ | ⟨w, rfl⟩ | ⟨m, x, hm⟩
  · exact .of_emit (.inl rfl) h
  · rcases exec_litCode_cases s w with ⟨-, e⟩ | ⟨sym, -, e⟩ <;> rw [e] at h
    · cases h
      exact .fail .noCode
    · exact .of_emit (.inl rfl) h
  · rcases exec_litRank_cases s w with ⟨-, e⟩ | ⟨k, -, ⟨-, e⟩ | ⟨-, c, -, e⟩⟩ <;> rw [e] at h
    · cases h
      exact .fail .noCode
    · cases h
    · exact .of_emit (.inr ⟨c, k, rfl⟩) h
  · rw [exec_match hm] at h
    cases h
    exact .of_runMatch m x hcur

/-- Inside a decode, with `B <= cur < U`, no token stops the machine (R37, R47, R94). -/
theorem exec_token_next {i : Instr} {s : State} (hi : i.isCommand = false) (hbase : s.cfg.base.toNat ≤ s.cur.toNat)
    (hcur : s.cur.toNat < s.cfg.outLen.toNat) : ∃ t, exec i s = .next t := by
  rcases token_cases s hi with ⟨v, rfl⟩ | ⟨w, rfl⟩ | ⟨w, rfl⟩ | ⟨m, x, hm⟩
  · exact ⟨_, State.emit_of_lt v hcur⟩
  · rcases exec_litCode_cases s w with ⟨-, e⟩ | ⟨sym, -, e⟩ <;> rw [e]
    · exact ⟨_, rfl⟩
    · exact ⟨_, State.emit_of_lt sym hcur⟩
  · rcases exec_litRank_cases s w with ⟨-, e⟩ | ⟨k, -, ⟨hB, -⟩ | ⟨-, c, -, e⟩⟩
    · exact ⟨_, e⟩
    · exact absurd hbase (Nat.not_le.mpr hB)
    · rw [e]
      exact ⟨_, State.emit_of_lt _ hcur⟩
  · exact ⟨_, exec_match hm⟩

/-- A bit that is read leaves `ip` inside the input: it was held, with `ip` inside before, or its byte was just
fetched. -/
theorem readBit_inside {st : Stream} {r r' : Reader} {b : Bool} (h : readBit st r = .ok b r')
    (hr : r.cnt ≠ 0 → r.ip.toNat ≤ st.len.toNat) : r'.ip.toNat ≤ st.len.toNat := by
  rcases readBit_cases st r with ⟨hc, e⟩ | ⟨-, hb, e⟩ | ⟨-, -, e⟩ <;> rw [e] at h <;> cases h
  · exact (Reader.Advances.takeBit st hc).inside (hr hc)
  · have hload : (loadBuf st r).ip.toNat ≤ st.len.toNat := (Stream.hasByte_next hb).trans_le hb
    exact (Reader.Advances.takeBit st (by simp)).inside hload

/-- A token that decodes leaves `ip` inside the input: its flag `T` alone needs a bit. -/
theorem decodeToken_inside {par : Params} {c : Latched} {lut : Lut} {st : Stream} {r r' : Reader} {i : Instr}
    (h : decodeToken par c lut st r = .ok i r') (hr : r.cnt ≠ 0 → r.ip.toNat ≤ st.len.toNat) :
    r'.ip.toNat ≤ st.len.toNat := by
  obtain ⟨b, q, hbit, hrest⟩ := Fetch.bind_ok h
  have hadv :=
    Fetch.Advances.ite (p := b = true) (decodeLiteral_advances par c lut st) (decodeMatch_advances par c st) q
  rw [Fetch.after_ok hrest] at hadv
  exact hadv.inside (readBit_inside hbit hr)

/-! ## Steps of the block -/

/-- What a step of the block can do, one constructor for each way (R104, R121). -/
inductive BlockMove (s : State) : State → Prop where
  /-- IDLE, DONE and ERROR stand still. -/
  | still (h : s.busy = false) : BlockMove s s
  /-- The stream ends or is corrupt (R131); ALIGN alone cannot fail. -/
  | fail (r : Reader) (c : Cause) (h : s.busy = true) (ha : s.phase ≠ .align) (hr : s.rd.Advances s.stream r) :
      BlockMove s ((s.withReader r).raise c)
  | initPass (h : s.phase = .init) (hbase : ¬(s.cfg.image = true ∧ s.cfg.base = 0)) :
      BlockMove s (s.goto .prefixCopy)
  | prefixByte (v : Byte) (h : s.phase = .prefixCopy)
      (hcur : s.cur.toNat < min s.cfg.base.toNat s.cfg.outLen.toNat) (hin : s.stream.hasByte s.rd) :
      BlockMove s ((s.withReader { s.rd with ip := s.rd.ip + 1 }).putByte v)
  | prefixDone (h : s.phase = .prefixCopy) (hcur : s.cur = s.cfg.outLen) : BlockMove s (s.goto .done)
  | prefixEnd (h : s.phase = .prefixCopy) (hmin : min s.cfg.base.toNat s.cfg.outLen.toNat ≤ s.cur.toNat)
      (hcur : s.cur ≠ s.cfg.outLen) : BlockMove s (s.goto .align)
  | align (h : s.phase = .align) : BlockMove s s.alignStep
  | lengthByte (x y : BitVec 4) (h : s.phase = .table) (htix : s.tix < 128) (hin : s.stream.hasByte s.rd) :
      BlockMove s { ((s.withReader { s.rd with ip := s.rd.ip + 1 }).setLen (2 * s.tix) x).setLen (2 * s.tix + 1) y with
        tix := s.tix + 1 }
  | tableEnd (h : s.phase = .table) (hin : s.stream.hasByte s.rd) :
      BlockMove s { s.withReader (loadBuf s.stream s.rd) with phase := .build, tix := 0 }
  | buildSkip (code : Nat) (h : s.phase = .build) (htix : s.tix < 15 * 256) :
      BlockMove s { s with tix := s.tix + 1, code := code }
  | buildLeaf (r : Reader) (w L sym code : Nat) (h : s.phase = .build) (htix : s.tix < 15 * 256)
      (hr : s.rd.Advances s.stream r) (hL : 0 < L ∧ L ≤ 15) :
      BlockMove s { (s.withReader r).setLeaf w L sym with tix := s.tix + 1, code := code }
  | buildEnd (h : s.phase = .build) : BlockMove s (s.goto .token)
  | tokensEnd (h : s.phase = .token) (hcur : s.cfg.outLen.toNat ≤ s.cur.toNat) : BlockMove s (s.goto .done)
  | token (r : Reader) (rt : Sparse (List Byte)) (vs : List Byte) (h : s.phase = .token)
      (hr : s.rd.Advances s.stream r)
      (hin : (s.rd.cnt ≠ 0 → s.rd.ip.toNat ≤ s.cfg.inLen.toNat) → r.ip.toNat ≤ s.cfg.inLen.toNat)
      (hrt : Promoted s.rt rt) (hfit : s.cur.toNat + vs.length ≤ s.cfg.outLen.toNat) :
      BlockMove s (((s.withReader r).withRanks rt).putBytes vs).settle

section
variable {s : State}

theorem State.busy_of_phase {p : Phase} (h : s.phase = p) (hp : p.busy = true) : s.busy = true := by
  rw [State.busy, h, hp]

theorem BlockMove.of_initStep (h : s.phase = .init) : BlockMove s s.initStep := by
  unfold State.initStep
  split
  · exact .fail s.rd .badParam (State.busy_of_phase h rfl) (by simp [h]) (.refl _ _)
  · exact .initPass h (by assumption)

theorem BlockMove.of_prefixStep (h : s.phase = .prefixCopy) : BlockMove s s.prefixStep := by
  unfold State.prefixStep
  split
  · rename_i hcur
    rcases readByte_cases s.stream .prefixByte s.rd with ⟨hin, e⟩ | ⟨-, e⟩
    · simp only [State.fetch, e]
      exact .prefixByte _ h hcur hin
    · simp only [State.fetch, e]
      exact .fail s.rd .prefixByte (State.busy_of_phase h rfl) (by simp [h]) (.refl _ _)
  · split
    · exact .prefixDone h (by assumption)
    · exact .prefixEnd h (by omega) (by assumption)

theorem BlockMove.of_tableStep (h : s.phase = .table) : BlockMove s s.tableStep := by
  unfold State.tableStep
  split
  · rename_i htix
    rcases readByte_cases s.stream .table s.rd with ⟨hin, e⟩ | ⟨-, e⟩
    · simp only [State.fetch, e]
      exact .lengthByte _ _ h htix hin
    · simp only [State.fetch, e]
      exact .fail s.rd .table (State.busy_of_phase h rfl) (by simp [h]) (.refl _ _)
  · rcases reseed_cases s.stream s.rd with ⟨hin, e⟩ | ⟨-, e⟩
    · simp only [State.fetch, e]
      exact .tableEnd h hin
    · simp only [State.fetch, e]
      exact .fail s.rd .reseed (State.busy_of_phase h rfl) (by simp [h]) (.refl _ _)

theorem BlockMove.of_explicitStep (h : s.phase = .build) : BlockMove s s.explicitStep := by
  unfold State.explicitStep
  split
  · split
    · exact .buildSkip s.code h (by omega)
    · rename_i hlen
      have hpos : 0 < (s.len s.tix).toNat := by bv_omega
      have hle : (s.len s.tix).toNat ≤ 15 := by bv_omega
      rcases State.fetch_cases s (readBits s.stream (s.len s.tix).toNat) fun w t =>
        { t.setLeaf w (t.len t.tix).toNat t.tix with tix := t.tix + 1 } with ⟨w, r, hf, e⟩ | ⟨c, r, hf, e⟩ <;> rw [e]
      · exact .buildLeaf r w _ s.tix s.code h (by omega) (Fetch.after_ok hf ▸ readBits_advances _ _ s.rd) ⟨hpos, hle⟩
      · exact .fail r c (State.busy_of_phase h rfl) (by simp [h]) (Fetch.after_error hf ▸ readBits_advances _ _ s.rd)
  · exact .buildEnd h

theorem BlockMove.of_canonicalStep (h : s.phase = .build) : BlockMove s s.canonicalStep := by
  unfold State.canonicalStep
  split
  · split
    · split
      · exact .fail s.rd .kraft (State.busy_of_phase h rfl) (by simp [h]) (.refl _ _)
      · exact .buildLeaf s.rd s.code _ _ _ h (by assumption) (.refl _ _) (by omega)
    · exact .buildSkip _ h (by assumption)
  · exact .buildEnd h

theorem BlockMove.of_tokenStep {t : State} (h : s.phase = .token) (hs : s.tokenStep = .next t) : BlockMove s t := by
  unfold State.tokenStep at hs
  split at hs
  · rename_i hcur
    split at hs
    · rename_i i r hd
      have hr : s.rd.Advances s.stream r := Fetch.after_ok hd ▸ decodeToken_advances s.par s.cfg s.lut s.stream s.rd
      obtain ⟨u, hu, rfl⟩ := mapNext_next hs
      have hi := decodeToken_isToken s.par s.cfg s.lut s.stream s.rd i r hd
      cases exec_tokenEffect (s := s.withReader r) hi (le_of_lt hcur) hu with
      | fail c =>
        have hsettle : ((s.withReader r).raise c).settle = (s.withReader r).raise c := if_neg (by simp)
        rw [hsettle]
        exact .fail r c (State.busy_of_phase h rfl) (by simp [h]) hr
      | write rt vs hrt hfit => exact .token r rt vs h hr (decodeToken_inside hd) hrt hfit
    · rename_i c r hd
      cases hs
      exact .fail r c (State.busy_of_phase h rfl) (by simp [h])
        (Fetch.after_error hd ▸ decodeToken_advances s.par s.cfg s.lut s.stream s.rd)
  · cases hs
    exact .tokensEnd h (by omega)

/-- Every step of the block is one of the ways of `BlockMove`. -/
theorem blockStep_move {t : State} (hs : s.blockStep = .next t) : BlockMove s t := by
  cases h : s.phase <;> simp only [State.blockStep, h] at hs
  case token => exact .of_tokenStep h hs
  all_goals cases hs
  case init => exact .of_initStep h
  case prefixCopy => exact .of_prefixStep h
  case align => exact .align h
  case table => exact .of_tableStep h
  case build =>
    unfold State.buildStep
    cases s.par.codes with
    | explicit => exact .of_explicitStep h
    | canonical => exact .of_canonicalStep h
  all_goals exact .still (by rw [State.busy, h]; rfl)

end

end Sys2Proof.Machine

/-! SUPPORT. The block's steps: the phases they join (R121) and what they leave unchanged (R40, R54). -/
namespace Sys2Proof.Machine

section
variable {s t : State}

theorem State.settle_frame (s : State) : s.settle = { s with phase := s.settle.phase } := by
  rcases s.settle_cases with ⟨-, -, e⟩ | ⟨-, e⟩
  · rw [e]
    rfl
  · rw [e]

theorem State.settle_readOut (s : State) (a : Nat) : s.settle.readOut a = s.readOut a := by
  rw [State.settle_frame]
  rfl

/-- What a step of the block may change. -/
theorem BlockMove.frame (h : BlockMove s t) : t = { s with
    rd := t.rd, cur := t.cur, phase := t.phase, lens := t.lens, lut := t.lut, rt := t.rt, err := t.err,
    outMem := t.outMem, outDrawn := t.outDrawn, tix := t.tix, code := t.code, draws := t.draws } := by
  cases h
  case token => rw [State.settle_frame, State.putBytes_frame]; rfl
  all_goals rfl

/-- No step of the block touches OUT at or past U. -/
theorem BlockMove.readOut_of_le (h : BlockMove s t) {a : Nat} (ha : s.cfg.outLen.toNat ≤ a) :
    t.readOut a = s.readOut a := by
  cases h
  case fail => rw [State.readOut_raise, if_neg (Nat.not_lt.mpr (by exact ha))]; rfl
  case prefixByte => rw [State.readOut_putByte, if_neg (by simp only [State.withReader_cur]; omega)]; rfl
  case token hfit => rw [State.settle_readOut, State.readOut_putBytes_of_le (by exact hfit.trans ha)]; rfl
  all_goals rfl

theorem State.blockStep_of_not_busy (h : s.busy = false) : s.blockStep = .next s := by
  cases hp : s.phase <;> rw [State.busy, hp] at h
  case idle | done | error => simp only [State.blockStep, hp]
  all_goals cases h

theorem State.settle_phase_mem (h : s.phase = .token) : (Phase.token, s.settle.phase) ∈ phaseTable := by
  rcases s.settle_cases with ⟨-, -, e⟩ | ⟨-, e⟩ <;> rw [e]
  · rw [State.goto_phase]; decide
  · rw [h]; decide

/-- The phases before and after a step of the block are a row of the table. -/
theorem BlockMove.mem_phaseTable (h : BlockMove s t) : (s.phase, t.phase) ∈ phaseTable := by
  have still : ∀ p : Phase, p.busy = false → (p, p) ∈ phaseTable := by
    intro p; cases p <;> decide
  have fails : ∀ p : Phase, p.busy = true → p ≠ .align → (p, Phase.error) ∈ phaseTable := by
    intro p; cases p <;> decide
  cases h
  case still h => exact still _ h
  case fail h ha _ => exact fails _ h ha
  case token h _ _ _ _ =>
    rw [h]
    exact State.settle_phase_mem (by rw [State.putBytes_phase]; exact h)
  case align h =>
    rw [h]
    by_cases hc : s.cfg.useCode <;> simp [State.alignStep, hc, phaseTable]
  all_goals simp [*, phaseTable]

end

/-- Settles O51: the frame of `BlockMove`, and OUT at and past U. -/
theorem blockWritesOnlyItsOutput : Obligations.BlockWritesOnlyItsOutput := by
  intro s t h
  have hmove := blockStep_move h
  have hout := fun a => hmove.readOut_of_le (a := a)
  rw [hmove.frame]
  exact ⟨rfl, rfl, rfl, rfl, rfl, rfl, rfl, rfl, rfl, rfl, rfl, rfl, rfl, rfl, hout⟩

/-- Settles O47: the ways of `BlockMove` are rows of the table. -/
theorem blockFollowsThePhaseTable : Obligations.BlockFollowsThePhaseTable :=
  ⟨fun _ _ h => (blockStep_move h).mem_phaseTable, fun _ h => State.blockStep_of_not_busy h⟩

end Sys2Proof.Machine

/-! SUPPORT. The invariant as a part that no phase limits and a part for each phase, and the updates that keep the first. -/
namespace Sys2Proof.Machine

/-! ## The invariant, phase by phase -/

/-- The part of the invariant that no phase limits. -/
structure State.CoreInv (s : State) : Prop where
  inWf : s.inMem.wf
  outWf : s.outMem.wf
  drawnOk : DrawnOk s.outDrawn s.outMem s.draws
  cntLe : s.rd.cnt.toNat ≤ 8
  justified : s.rd.buf <<< s.rd.cnt.toNat = 0
  ipLe : s.rd.ip.toNat ≤ roundup4 s.cfg.inLen.toNat
  cntInside : s.rd.cnt ≠ 0 → s.rd.ip.toNat ≤ s.cfg.inLen.toNat
  curLe : s.cur.toNat ≤ s.cfg.outLen.toNat
  lensWf : Sparse.WF 0 s.lens ∧ ∀ p ∈ s.lens, p.1 < 256
  lutWf : Sparse.WF LutEntry.empty s.lut
    ∧ ∀ p ∈ s.lut, p.1 < 2 ^ 15 ∧ p.2.len ≠ 0 ∧ p.1 % 2 ^ (15 - p.2.len.toNat) = 0
  rtWf : Sparse.WF rankRow s.rt ∧ ∀ p ∈ s.rt, p.1 < 256 ∧ p.2.Perm rankRow

/-- What holds in every BUSY phase. -/
structure State.Running (s : State) : Prop where
  err : s.err = none
  latched : s.cfg = s.latch
  octBuilt : s.oct = offsetTable s.cfg.base.toNat s.cfg.stride.toNat
  noneFree : ∀ a < s.cur.toNat, drawnAt s.outDrawn a = none

/-- What holds until the verbatim part is out. -/
structure State.InPrefix (s : State) : Prop where
  ipInside : s.rd.ip.toNat ≤ s.cfg.inLen.toNat
  curLe : s.cur.toNat ≤ min s.cfg.base.toNat s.cfg.outLen.toNat

/-- What holds until the first bit or re-seed. -/
structure State.BeforeBits (s : State) : Prop where
  cnt : s.rd.cnt = 0
  buf : s.rd.buf = 0
  code : s.code = 0

/-- What holds while tokens are ahead. -/
structure State.TokensAhead (s : State) : Prop where
  baseLe : s.cfg.base.toNat ≤ s.cur.toNat
  curLt : s.cur.toNat < s.cfg.outLen.toNat
  base : s.cfg.base ≠ 0

/-- The part of the invariant that belongs to a phase. -/
def State.PhaseInv (s : State) : Phase → Prop
  | .idle => s.err = none
  | .init => s.Running ∧ s.InPrefix ∧ s.BeforeBits ∧ s.tix = 0
  | .prefixCopy => s.Running ∧ s.InPrefix ∧ s.BeforeBits ∧ s.tix = 0 ∧ s.cfg.base ≠ 0
  | .align => s.Running ∧ s.TokensAhead ∧ s.BeforeBits ∧ s.tix = 0
  | .table => s.Running ∧ s.TokensAhead ∧ s.BeforeBits ∧ s.tix ≤ 128
  | .build => s.Running ∧ s.TokensAhead ∧ s.tix ≤ 15 * 256 ∧ (s.tix = 0 → s.code = 0)
  | .token => s.Running ∧ s.TokensAhead
  | .done => s.err = none ∧ s.rd.ip.toNat ≤ s.cfg.inLen.toNat ∧ s.cur = s.cfg.outLen ∧
      ∀ a < s.cur.toNat, drawnAt s.outDrawn a = none
  | .error => s.err ≠ none

theorem State.Inv.core {s : State} (h : s.Inv) : s.CoreInv := { h with }

theorem State.Inv.running {s : State} (h : s.Inv) (hb : s.busy = true) : s.Running where
  err := by
    by_contra he
    have hp := h.errPhase.mp he
    simp [State.busy, hp, Phase.busy] at hb
  latched := h.latched hb
  octBuilt := h.octBuilt hb
  noneFree := h.noneFree (.inl hb)

theorem State.Inv.inPhase {s : State} (h : s.Inv) : s.PhaseInv s.phase := by
  have run : s.phase.busy = true → s.Running := h.running
  have pre : s.phase = .init ∨ s.phase = .prefixCopy → s.InPrefix := fun hp =>
    ⟨h.ipInside (hp.imp_right .inl), h.prefixCur hp⟩
  have bits : s.phase.beforeBits = true → s.BeforeBits := fun hp =>
    ⟨(h.bufEmpty hp).1, (h.bufEmpty hp).2, h.codeZero (.inl hp)⟩
  have ahead : s.phase.pastPrefix = true → s.TokensAhead := fun hp =>
    ⟨(h.tokenCur hp).1, (h.tokenCur hp).2, h.baseNonzero (.inr hp)⟩
  have err : s.phase ≠ .error → s.err = none := fun hp => by
    by_contra he
    exact hp (h.errPhase.mp he)
  have base := h.baseNonzero
  have tix := h.tixZero
  cases hp : s.phase <;> rw [hp] at run pre bits ahead err base tix
  case idle => exact err nofun
  case init => exact ⟨run rfl, pre (.inl rfl), bits rfl, tix (.inl rfl)⟩
  case prefixCopy => exact ⟨run rfl, pre (.inr rfl), bits rfl, tix (.inr (.inl rfl)), base (.inl rfl)⟩
  case align => exact ⟨run rfl, ahead rfl, bits rfl, tix (.inr (.inr rfl))⟩
  case table => exact ⟨run rfl, ahead rfl, bits rfl, h.tixLe.1 hp⟩
  case build => exact ⟨run rfl, ahead rfl, h.tixLe.2 hp, fun h0 => h.codeZero (.inr ⟨hp, h0⟩)⟩
  case token => exact ⟨run rfl, ahead rfl⟩
  case done => exact ⟨err nofun, h.ipInside (.inr (.inr hp)), h.doneCur hp, h.noneFree (.inr hp)⟩
  case error => exact h.errPhase.mpr hp

section
variable {s : State} {p : Phase}

theorem State.PhaseInv.running (h : s.PhaseInv p) (hb : p.busy = true) : s.Running := by
  cases p with
  | idle | done | error => cases hb
  | _ => exact h.1

theorem State.PhaseInv.inPrefix (h : s.PhaseInv p) (hp : p = .init ∨ p = .prefixCopy) : s.InPrefix := by
  rcases hp with rfl | rfl <;> exact h.2.1

theorem State.PhaseInv.beforeBits (h : s.PhaseInv p) (hp : p.beforeBits = true) : s.BeforeBits := by
  cases p with
  | init | prefixCopy | align | table => exact h.2.2.1
  | _ => cases hp

theorem State.PhaseInv.tokensAhead (h : s.PhaseInv p) (hp : p.pastPrefix = true) : s.TokensAhead := by
  cases p with
  | align | table | build => exact h.2.1
  | token => exact h.2
  | _ => cases hp

theorem State.PhaseInv.err (h : s.PhaseInv p) : s.err ≠ none ↔ p = .error := by
  cases p with
  | idle => exact iff_of_false (not_not.mpr h) nofun
  | error => exact iff_of_true h rfl
  | done => simp [h.1]
  | _ => simp [h.1.err]

/-- The invariant from its two parts. -/
theorem State.CoreInv.inv (h : s.CoreInv) (hp : s.PhaseInv s.phase) : s.Inv :=
  have inPhase {p : Phase} (e : s.phase = p) : s.PhaseInv p := e ▸ hp
  { h with
    ipInside := by
      rintro (e | e | e)
      · exact (hp.inPrefix (.inl e)).ipInside
      · exact (hp.inPrefix (.inr e)).ipInside
      · exact (inPhase e).2.1
    bufEmpty := fun e => ⟨(hp.beforeBits e).cnt, (hp.beforeBits e).buf⟩
    doneCur := fun e => (inPhase e).2.2.1
    prefixCur := fun e => (hp.inPrefix e).curLe
    tokenCur := fun e => ⟨(hp.tokensAhead e).baseLe, (hp.tokensAhead e).curLt⟩
    baseNonzero := by
      rintro (e | e)
      · exact (inPhase e).2.2.2.2
      · exact (hp.tokensAhead e).base
    errPhase := hp.err
    latched := fun e => (hp.running e).latched
    octBuilt := fun e => (hp.running e).octBuilt
    tixZero := by
      rintro (e | e | e)
      · exact (inPhase e).2.2.2
      · exact (inPhase e).2.2.2.1
      · exact (inPhase e).2.2.2
    tixLe := ⟨fun e => (inPhase e).2.2.2, fun e => (inPhase e).2.2.1⟩
    codeZero := by
      rintro (e | ⟨e, h0⟩)
      · exact (hp.beforeBits e).code
      · exact (inPhase e).2.2.2 h0
    noneFree := by
      rintro (e | e)
      · exact (hp.running e).noneFree
      · exact (inPhase e).2.2.2 }

theorem State.Inv.at_phase (h : s.Inv) (e : s.phase = p) : s.PhaseInv p := e ▸ h.inPhase

end

/-! ## The updates that keep the phase-free part -/

theorem pairwise_flatMap_pieces {rs : List DrawnRange} {f : DrawnRange → List DrawnRange}
    (h : rs.Pairwise fun r q => r.hi ≤ q.lo) (hin : ∀ r, ∀ p ∈ f r, r.lo ≤ p.lo ∧ p.hi ≤ r.hi)
    (hf : ∀ r, (f r).Pairwise fun p q => p.hi ≤ q.lo) : (rs.flatMap f).Pairwise fun p q => p.hi ≤ q.lo := by
  rw [List.pairwise_flatMap]
  refine ⟨fun r _ => hf r, h.imp fun {r q} hrq p hp p' hp' => ?_⟩
  exact (hin r p hp).2.trans (hrq.trans (hin q p' hp').1)

theorem drawnPiece_rising (lo hi draw : Nat) : (drawnPiece lo hi draw).Pairwise fun p q => p.hi ≤ q.lo := by
  unfold drawnPiece
  split <;> simp

theorem drawnErase_rising {rs : List DrawnRange} (h : rs.Pairwise fun r q => r.hi ≤ q.lo) (a : Nat) :
    (drawnErase rs a).Pairwise fun r q => r.hi ≤ q.lo := by
  refine pairwise_flatMap_pieces h (fun r p hp => ?_) fun r => ?_
  · split at hp
    · rcases List.mem_append.mp hp with hp | hp <;> obtain ⟨rfl, -⟩ := mem_drawnPiece hp <;> simp only <;> omega
    · rw [List.mem_singleton.mp hp]
      exact ⟨le_refl _, le_refl _⟩
  · split
    · refine List.pairwise_append.mpr ⟨drawnPiece_rising .., drawnPiece_rising .., fun p hp q hq => ?_⟩
      obtain ⟨rfl, -⟩ := mem_drawnPiece hp
      obtain ⟨rfl, -⟩ := mem_drawnPiece hq
      simp
    · exact List.pairwise_singleton ..

/-- The ranges after a failure: its own, and the parts of the others past it. -/
theorem mem_drawnCover {r : DrawnRange} {rs : List DrawnRange} {n draw : Nat} (h : r ∈ drawnCover rs n draw) :
    (r = ⟨0, n, draw⟩ ∧ 0 < n) ∨ ∃ q ∈ rs, r = ⟨max q.lo n, q.hi, q.draw⟩ ∧ max q.lo n < q.hi := by
  rcases List.mem_append.mp h with h | h
  · exact .inl (mem_drawnPiece h)
  · obtain ⟨q, hq, hr⟩ := List.mem_flatMap.mp h
    exact .inr ⟨q, hq, mem_drawnPiece hr⟩

theorem drawnCover_rising {rs : List DrawnRange} (h : rs.Pairwise fun r q => r.hi ≤ q.lo) (n draw : Nat) :
    (drawnCover rs n draw).Pairwise fun r q => r.hi ≤ q.lo := by
  refine List.pairwise_append.mpr ⟨drawnPiece_rising .., ?_, fun p hp q hq => ?_⟩
  · refine pairwise_flatMap_pieces h (fun r p hp => ?_) fun r => drawnPiece_rising ..
    obtain ⟨rfl, -⟩ := mem_drawnPiece hp
    exact ⟨le_max_left .., le_refl _⟩
  · obtain ⟨rfl, -⟩ := mem_drawnPiece hp
    obtain ⟨r, -, hq⟩ := List.mem_flatMap.mp hq
    obtain ⟨rfl, -⟩ := mem_drawnPiece hq
    exact le_max_right ..

/-- A known byte written. -/
theorem DrawnOk.write {rs : List DrawnRange} {m : Memory} {draws : Nat} (h : DrawnOk rs m draws) (a : Nat) (v : Byte) :
    DrawnOk (drawnErase rs a) (Memory.write m a v) draws where
  rising := drawnErase_rising h.rising a
  ranges r hr := by
    obtain ⟨q, hq, -, hhi, hdraw, hne⟩ := mem_drawnErase hr
    obtain ⟨hlt, hmax, hd⟩ := h.ranges q hq
    refine ⟨?_, hhi.trans hmax, hdraw ▸ hd⟩
    rcases hne with rfl | hne
    · exact hlt
    · exact hne
  known p hp := by
    rw [drawnAt_erase]
    rcases Sparse.mem_set hp with ⟨rfl, -⟩ | ⟨hp, hne⟩
    · exact if_pos rfl
    · rw [if_neg hne]
      exact h.known p hp

/-- A failure over `OUT[0..n-1]`. -/
theorem DrawnOk.cover {rs : List DrawnRange} {m : Memory} {draws n : Nat} (h : DrawnOk rs m draws) (hn : n ≤ 2 ^ 32) :
    DrawnOk (drawnCover rs n draws) (m.dropBelow n) (draws + 1) where
  rising := drawnCover_rising h.rising n draws
  ranges r hr := by
    rcases mem_drawnCover hr with ⟨rfl, hpos⟩ | ⟨q, hq, rfl, hlt⟩
    · exact ⟨hpos, hn, Nat.lt_succ_self _⟩
    · obtain ⟨-, hmax, hd⟩ := h.ranges q hq
      exact ⟨hlt, hmax, Nat.lt_succ_of_lt hd⟩
  known p hp := by
    obtain ⟨hmem, hle⟩ := List.mem_filter.mp hp
    rw [drawnAt_cover, if_neg (by simpa using hle)]
    exact h.known p hmem

/-- Free values drawn since change nothing. -/
theorem DrawnOk.mono {rs : List DrawnRange} {m : Memory} {draws draws' : Nat} (h : DrawnOk rs m draws)
    (hle : draws ≤ draws') : DrawnOk rs m draws' :=
  { h with ranges := fun r hr =>
      have ⟨hlt, hmax, hd⟩ := h.ranges r hr
      ⟨hlt, hmax, hd.trans_le hle⟩ }

section
variable {s : State}

theorem State.CoreInv.withReader (h : s.CoreInv) {r : Reader} (hr : s.rd.Advances s.stream r) :
    (s.withReader r).CoreInv :=
  have hlen : s.cfg.inLen.toNat ≤ roundup4 s.cfg.inLen.toNat := (roundup4_spec _).2.1
  { h with
    cntLe := hr.cntLe h.cntLe
    justified := hr.justified h.justified
    ipLe := by
      rcases hr.ipInside with e | e
      · exact e ▸ h.ipLe
      · exact le_trans e hlen
    cntInside := fun hc => by
      rcases hr.filled hc with hc | hin
      · exact hr.inside (h.cntInside hc)
      · exact hin }

theorem State.CoreInv.raise (h : s.CoreInv) (c : Cause) : (s.raise c).CoreInv :=
  { h with
    outWf := Memory.dropBelow_wf h.outWf _
    drawnOk := h.drawnOk.cover s.cfg.outLen.isLt.le }

theorem State.CoreInv.putByte (h : s.CoreInv) (v : Byte) (hcur : s.cur.toNat < s.cfg.outLen.toNat) :
    (s.putByte v).CoreInv :=
  { h with
    outWf := Memory.write_wf h.outWf s.cur.isLt v
    drawnOk := h.drawnOk.write _ v
    curLe := by
      rw [State.putByte_cur_toNat v hcur]
      exact hcur }

theorem State.Running.putByte (h : s.Running) (v : Byte) : (s.putByte v).Running :=
  { h with
    noneFree := fun a ha => by
      have hle : (s.putByte v).cur.toNat ≤ s.cur.toNat + 1 := by
        rw [State.putByte_cur]
        bv_omega
      rw [State.putByte_outDrawn, drawnAt_erase]
      split
      · rfl
      · exact h.noneFree a (by omega) }

end

end Sys2Proof.Machine

/-! SUPPORT. Every step of the block keeps the invariant and has a next state, one lemma for each way of `BlockMove`. -/
namespace Sys2Proof.Machine

section
variable {s t : State}

theorem State.CoreInv.putBytes {vs : List Byte} (h : s.CoreInv)
    (hfit : s.cur.toNat + vs.length ≤ s.cfg.outLen.toNat) : (s.putBytes vs).CoreInv := by
  induction vs generalizing s with
  | nil => exact h
  | cons v vs ih =>
    rw [List.length_cons] at hfit
    have hcur : (s.putByte v).cur.toNat = s.cur.toNat + 1 := State.putByte_cur_toNat v (by omega)
    exact ih (h.putByte v (by omega)) (by rw [hcur, State.putByte_cfg]; omega)

theorem State.Running.putBytes (h : s.Running) (vs : List Byte) : (s.putBytes vs).Running := by
  induction vs generalizing s with
  | nil => exact h
  | cons v vs ih => exact ih (h.putByte v)

/-- Every row of the table is a permutation of the bytes, listed or not (R95). -/
theorem rankRow_perm {rt : Sparse (List Byte)} (h : ∀ p ∈ rt, p.1 < 256 ∧ p.2.Perm rankRow) (c : Nat) :
    (Sparse.get rankRow rt c).Perm rankRow := by
  rcases Sparse.get_cases (d := rankRow) rt c with e | hmem
  · rw [e]
  · exact (h _ hmem).2

theorem State.CoreInv.withRanks (h : s.CoreInv) {rt : Sparse (List Byte)} (hrt : Promoted s.rt rt) :
    (s.withRanks rt).CoreInv :=
  { h with
    rtWf := by
      rcases hrt with rfl | ⟨c, k, rfl⟩
      · exact h.rtWf
      · obtain ⟨hwf, hrows⟩ := h.rtWf
        refine ⟨Sparse.set_wf hwf _ _, fun p hp => ?_⟩
        rcases Sparse.mem_set hp with ⟨rfl, -⟩ | ⟨hp, -⟩
        · have hrow := rankRow_perm hrows c.toNat
          have hk : k.toNat < (Sparse.get rankRow s.rt c.toNat).length := by
            rw [hrow.length_eq, rankRow_length]
            exact k.isLt
          exact ⟨c.isLt, (promote_perm _ hk).trans hrow⟩
        · exact hrows p hp }

theorem State.CoreInv.setLen (h : s.CoreInv) {k : Nat} (hk : k < 256) (v : BitVec 4) : (s.setLen k v).CoreInv :=
  { h with
    lensWf := by
      refine ⟨Sparse.set_wf h.lensWf.1 k v, fun p hp => ?_⟩
      rcases Sparse.mem_set hp with ⟨rfl, -⟩ | ⟨hp, -⟩
      · exact hk
      · exact h.lensWf.2 p hp }

/-- A leaf of length `L` is left-justified (R86). -/
theorem leaf_mod (w : Nat) {L : Nat} : (leaf w L).toNat % 2 ^ (15 - L) = 0 := by
  rw [leaf, BitVec.toNat_ofNat, Nat.mod_mod_of_dvd _ (pow_dvd_pow 2 (Nat.sub_le 15 L)), Nat.mul_mod_left]

theorem State.CoreInv.setLeaf (h : s.CoreInv) (w : Nat) {L : Nat} (hL : 0 < L ∧ L ≤ 15) (sym : Nat) :
    (s.setLeaf w L sym).CoreInv :=
  { h with
    lutWf := by
      have hlen : (BitVec.ofNat 4 L).toNat = L := by
        rw [BitVec.toNat_ofNat]
        omega
      refine ⟨Sparse.set_wf h.lutWf.1 _ _, fun p hp => ?_⟩
      rcases Sparse.mem_set hp with ⟨rfl, -⟩ | ⟨hp, -⟩
      · refine ⟨(leaf w L).isLt, fun h0 => ?_, ?_⟩
        · have : (BitVec.ofNat 4 L).toNat = 0 := congrArg BitVec.toNat h0
          omega
        · simp only [hlen]
          exact leaf_mod w
      · exact h.lutWf.2 p hp }

theorem roundup4_mono {m n : Nat} (h : m ≤ n) : roundup4 m ≤ roundup4 n := by
  unfold roundup4
  omega

theorem roundup4_roundup4 (n : Nat) : roundup4 (roundup4 n) = roundup4 n := by
  unfold roundup4
  omega

/-- The skip of ALIGN stays below `roundup4(INLEN)` (R17, R76). -/
theorem State.CoreInv.alignStep (h : s.CoreInv) (hcnt : s.rd.cnt = 0) : s.alignStep.CoreInv :=
  { h with
    ipLe := by
      have hle : roundup4 s.rd.ip.toNat ≤ roundup4 s.cfg.inLen.toNat :=
        roundup4_roundup4 s.cfg.inLen.toNat ▸ roundup4_mono h.ipLe
      exact (Nat.mod_le _ _).trans hle
    cntInside := fun hc => absurd hcnt hc }

/-! ## Every step of the block keeps the invariant -/

theorem State.Inv.prefixByte (h : s.Inv) (v : Byte) (hp : s.phase = .prefixCopy)
    (hcur : s.cur.toNat < min s.cfg.base.toNat s.cfg.outLen.toNat) (hin : s.stream.hasByte s.rd) :
    ((s.withReader { s.rd with ip := s.rd.ip + 1 }).putByte v).Inv := by
  obtain ⟨run, pre, bits, tix, base⟩ := h.at_phase hp
  have hU : s.cur.toNat < s.cfg.outLen.toNat := hcur.trans_le (min_le_right _ _)
  have hcur' := State.putByte_cur_toNat (s := s.withReader { s.rd with ip := s.rd.ip + 1 }) v hU
  refine ((h.core.withReader (.skipByte hin)).putByte v hU).inv ?_
  rw [State.putByte_phase, State.withReader_phase, hp]
  have run' : (s.withReader { s.rd with ip := s.rd.ip + 1 }).Running := { run with }
  refine ⟨run'.putByte v, ⟨?_, ?_⟩, { bits with }, tix, base⟩
  · have := Stream.hasByte_next hin
    have : s.rd.ip.toNat < s.cfg.inLen.toNat := hin
    simp only [State.putByte_rd, State.withReader_rd, State.putByte_cfg, State.withReader_cfg]
    omega
  · rw [hcur']
    exact hcur

theorem State.Inv.prefixEnd (h : s.Inv) (hp : s.phase = .prefixCopy)
    (hmin : min s.cfg.base.toNat s.cfg.outLen.toNat ≤ s.cur.toNat) (hcur : s.cur ≠ s.cfg.outLen) :
    (s.goto .align).Inv := by
  obtain ⟨run, pre, bits, tix, base⟩ := h.at_phase hp
  have hU : s.cur.toNat < s.cfg.outLen.toNat := lt_of_le_of_ne h.curLe fun e => hcur (BitVec.eq_of_toNat_eq e)
  have hB : s.cfg.base.toNat ≤ s.cur.toNat := by
    rcases min_le_iff.mp hmin with e | e
    · exact e
    · exact absurd hU (Nat.not_lt.mpr e)
  exact State.CoreInv.inv { h.core with } ⟨{ run with }, ⟨hB, hU, base⟩, { bits with }, tix⟩

theorem State.Inv.alignStep (h : s.Inv) (hp : s.phase = .align) : s.alignStep.Inv := by
  obtain ⟨run, ahead, bits, tix⟩ := h.at_phase hp
  refine (h.core.alignStep bits.cnt).inv ?_
  change s.alignStep.PhaseInv (if s.cfg.useCode then .table else .token)
  split
  · exact ⟨{ run with }, { ahead with }, { bits with }, tix.trans_le (Nat.zero_le _)⟩
  · exact ⟨{ run with }, { ahead with }⟩

theorem State.Inv.lengthByte (h : s.Inv) (x y : BitVec 4) (hp : s.phase = .table) (htix : s.tix < 128)
    (hin : s.stream.hasByte s.rd) :
    State.Inv { ((s.withReader { s.rd with ip := s.rd.ip + 1 }).setLen (2 * s.tix) x).setLen (2 * s.tix + 1) y with
      tix := s.tix + 1 } := by
  obtain ⟨run, ahead, bits, -⟩ := h.at_phase hp
  have hcore := ((h.core.withReader (.skipByte hin)).setLen (k := 2 * s.tix) (by omega) x).setLen
    (k := 2 * s.tix + 1) (by omega) y
  refine State.CoreInv.inv { hcore with } ?_
  change State.PhaseInv _ s.phase
  rw [hp]
  exact ⟨{ run with }, { ahead with }, { bits with }, htix⟩

theorem State.Inv.tableEnd (h : s.Inv) (hp : s.phase = .table) (hin : s.stream.hasByte s.rd) :
    State.Inv { s.withReader (loadBuf s.stream s.rd) with phase := .build, tix := 0 } := by
  obtain ⟨run, ahead, bits, -⟩ := h.at_phase hp
  have hcore := h.core.withReader (.loadBuf hin)
  exact State.CoreInv.inv { hcore with } ⟨{ run with }, { ahead with }, Nat.zero_le _, fun _ => bits.code⟩

theorem State.Inv.buildLeaf (h : s.Inv) {r : Reader} (w : Nat) {L : Nat} (sym code : Nat) (hp : s.phase = .build)
    (htix : s.tix < 15 * 256) (hr : s.rd.Advances s.stream r) (hL : 0 < L ∧ L ≤ 15) :
    State.Inv { (s.withReader r).setLeaf w L sym with tix := s.tix + 1, code := code } := by
  obtain ⟨run, ahead, -, -⟩ := h.at_phase hp
  have hcore := (h.core.withReader hr).setLeaf w hL sym
  refine State.CoreInv.inv { hcore with } ?_
  change State.PhaseInv _ s.phase
  rw [hp]
  exact ⟨{ run with }, { ahead with }, htix, nofun⟩

theorem State.Inv.buildSkip (h : s.Inv) (code : Nat) (hp : s.phase = .build) (htix : s.tix < 15 * 256) :
    State.Inv { s with tix := s.tix + 1, code := code } := by
  obtain ⟨run, ahead, -, -⟩ := h.at_phase hp
  refine State.CoreInv.inv { h.core with } ?_
  change State.PhaseInv _ s.phase
  rw [hp]
  exact ⟨{ run with }, { ahead with }, htix, nofun⟩

/-- After a token: with `cur = U` the decode is done, else tokens are ahead (R121). -/
theorem State.CoreInv.settle (h : s.CoreInv) (run : s.Running) (hp : s.phase = .token)
    (hin : s.rd.ip.toNat ≤ s.cfg.inLen.toNat) (hB : s.cfg.base.toNat ≤ s.cur.toNat) (base : s.cfg.base ≠ 0) :
    s.settle.Inv := by
  rcases s.settle_cases with ⟨-, hU, e⟩ | ⟨hne, e⟩ <;> rw [e]
  · exact State.CoreInv.inv { h with } ⟨run.err, hin, hU, run.noneFree⟩
  · have hU : s.cur.toNat < s.cfg.outLen.toNat :=
      lt_of_le_of_ne h.curLe fun e => hne ⟨hp, BitVec.eq_of_toNat_eq e⟩
    exact h.inv (hp ▸ ⟨run, hB, hU, base⟩)

theorem State.Inv.token (h : s.Inv) {r : Reader} {rt : Sparse (List Byte)} {vs : List Byte} (hp : s.phase = .token)
    (hr : s.rd.Advances s.stream r) (hin : r.ip.toNat ≤ s.cfg.inLen.toNat) (hrt : Promoted s.rt rt)
    (hfit : s.cur.toNat + vs.length ≤ s.cfg.outLen.toNat) :
    (((s.withReader r).withRanks rt).putBytes vs).settle.Inv := by
  obtain ⟨run, ahead⟩ := h.at_phase hp
  have run' : ((s.withReader r).withRanks rt).Running := { run with }
  have hcur : (((s.withReader r).withRanks rt).putBytes vs).cur.toNat = s.cur.toNat + vs.length :=
    State.putBytes_cur_toNat hfit
  refine State.CoreInv.settle (((h.core.withReader hr).withRanks hrt).putBytes hfit) (run'.putBytes vs) ?_ ?_ ?_ ?_
  · rw [State.putBytes_phase]
    exact hp
  · rw [State.putBytes_rd, State.putBytes_cfg]
    exact hin
  · rw [State.putBytes_cfg, hcur]
    exact ahead.baseLe.trans (Nat.le_add_right _ _)
  · rw [State.putBytes_cfg]
    exact ahead.base

theorem BlockMove.keepsInv (m : BlockMove s t) (h : s.Inv) : t.Inv := by
  cases m with
  | still => exact h
  | fail r c hb ha hr => exact ((h.core.withReader hr).raise c).inv (Option.some_ne_none c)
  | initPass hp hbase =>
    obtain ⟨run, pre, bits, tix⟩ := h.at_phase hp
    have base : s.cfg.base ≠ 0 := by
      intro h0
      have hcfg := run.latched
      cases hi : s.cfg.image with
      | true => exact hbase ⟨hi, h0⟩
      | false =>
        have himage : s.image = false := by rw [hcfg] at hi; exact hi
        rw [hcfg, State.latch, himage] at h0
        cases h0
    exact State.CoreInv.inv { h.core with } ⟨{ run with }, { pre with }, { bits with }, tix, base⟩
  | prefixByte v hp hcur hin => exact h.prefixByte v hp hcur hin
  | prefixDone hp hcur =>
    obtain ⟨run, pre, -⟩ := h.at_phase hp
    exact State.CoreInv.inv { h.core with } ⟨run.err, pre.ipInside, hcur, run.noneFree⟩
  | prefixEnd hp hmin hcur => exact h.prefixEnd hp hmin hcur
  | align hp => exact h.alignStep hp
  | lengthByte x y hp htix hin => exact h.lengthByte x y hp htix hin
  | tableEnd hp hin => exact h.tableEnd hp hin
  | buildSkip code hp htix => exact h.buildSkip code hp htix
  | buildLeaf r w L sym code hp htix hr hL => exact h.buildLeaf w sym code hp htix hr hL
  | buildEnd hp =>
    obtain ⟨run, ahead, -⟩ := h.at_phase hp
    exact State.CoreInv.inv { h.core with } ⟨{ run with }, { ahead with }⟩
  | tokensEnd hp hcur => exact absurd (h.at_phase hp).2.curLt (Nat.not_lt.mpr hcur)
  | token r rt vs hp hr hin hrt hfit => exact h.token hp hr (hin h.cntInside) hrt hfit

theorem blockStep_keepsInv (h : s.Inv) (hs : s.blockStep = .next t) : t.Inv := (blockStep_move hs).keepsInv h

/-- From the invariant every step of the block has a next state (R37, R47, R94). -/
theorem State.Inv.blockStep_next (h : s.Inv) : ∃ t, s.blockStep = .next t := by
  cases hp : s.phase <;> simp only [State.blockStep, hp]
  case token =>
    obtain ⟨run, ahead⟩ := h.at_phase hp
    rw [State.tokenStep, if_pos ahead.curLt]
    split
    · rename_i i r hd
      obtain ⟨t, ht⟩ := exec_token_next (s := s.withReader r)
        (decodeToken_isToken s.par s.cfg s.lut s.stream s.rd i r hd) ahead.baseLe ahead.curLt
      exact ⟨t.settle, by rw [ht]; rfl⟩
    · exact ⟨_, rfl⟩
  all_goals exact ⟨_, rfl⟩

end

end Sys2Proof.Machine

/-! SUPPORT. The host's moves and the whole step: the invariant is kept (O4), and nothing but a refused host write stops (O5). -/
namespace Sys2Proof.Machine

section
variable {s t : State}

theorem drawnOk_nil (m : Memory) (draws : Nat) : DrawnOk [] m draws := ⟨.nil, nofun, fun _ _ => rfl⟩

theorem Memory.wf_nil : Memory.wf [] := ⟨⟨.nil, nofun⟩, nofun⟩

/-- Hardware reset establishes the invariant over any memories that are in order. -/
theorem State.hardReset_inv (hin : s.inMem.wf) (hout : s.outMem.wf) (hdrawn : DrawnOk s.outDrawn s.outMem s.draws) :
    s.hardReset.Inv :=
  State.CoreInv.inv
    { inWf := hin
      outWf := hout
      drawnOk := hdrawn
      cntLe := Nat.zero_le _
      justified := rfl
      ipLe := Nat.zero_le _
      cntInside := fun hc => absurd rfl hc
      curLe := le_refl _
      lensWf := ⟨⟨.nil, nofun⟩, nofun⟩
      lutWf := ⟨⟨.nil, nofun⟩, nofun⟩
      rtWf := ⟨⟨.nil, nofun⟩, nofun⟩ } rfl

theorem State.Inv.withHost (h : s.Inv) (ms : List HostMove) : State.Inv { s with host := ms } := { h with }

theorem State.Inv.withIe (h : s.Inv) (ie : Bool) : State.Inv { s with ie := ie } := { h with }

theorem State.Inv.withRead (h : s.Inv) (data : Word) {draws : Nat} (hle : s.draws ≤ draws) :
    State.Inv { s with rdata := data, draws := draws } :=
  { h with drawnOk := h.drawnOk.mono hle }

/-! ## Commands -/

theorem State.CoreInv.startInit (h : s.CoreInv) : s.startInit.Inv :=
  State.CoreInv.inv
    { h with
      cntLe := Nat.zero_le _
      justified := rfl
      ipLe := Nat.zero_le _
      cntInside := fun hc => absurd rfl hc
      curLe := Nat.zero_le _
      lutWf := ⟨⟨.nil, nofun⟩, nofun⟩
      rtWf := ⟨⟨.nil, nofun⟩, nofun⟩ }
    ⟨⟨rfl, rfl, rfl, nofun⟩, ⟨Nat.zero_le _, Nat.zero_le _⟩, ⟨rfl, rfl, rfl⟩, rfl⟩

theorem State.Inv.acknowledge (h : s.Inv) : s.acknowledge.Inv := by
  rcases s.acknowledge_cases with ⟨-, e⟩ | ⟨-, e⟩ <;> rw [e]
  · exact State.CoreInv.inv { h.core with } rfl
  · exact h

/-- The command of a CTRL word (R124). -/
theorem decodeCtrl_cases (w : Word) :
    (w.getLsbD 0 = true ∧ decodeCtrl w = .cmdStart (w.getLsbD 1) (w.getLsbD 2)) ∨
    (w.getLsbD 0 = false ∧ w.getLsbD 1 = true ∧ decodeCtrl w = .cmdClear (w.getLsbD 2)) ∨
    (w.getLsbD 0 = false ∧ w.getLsbD 1 = false ∧ decodeCtrl w = .cmdNop (w.getLsbD 2)) := by
  unfold decodeCtrl
  cases w.getLsbD 0 <;> cases w.getLsbD 1 <;> simp

/-- A CTRL write always has a next state, and keeps the invariant. -/
theorem exec_decodeCtrl (s : State) (w : Word) :
    ∃ t, exec (decodeCtrl w) s = .next t ∧ (s.Inv → t.Inv) := by
  rcases decodeCtrl_cases w with ⟨-, e⟩ | ⟨-, -, e⟩ | ⟨-, -, e⟩ <;> rw [e] <;> refine ⟨_, rfl, fun h => ?_⟩
  · split
    · exact h.withIe _
    · exact (h.withIe _).core.startInit
  · exact (h.withIe _).acknowledge
  · exact h.withIe _

/-! ## Register and memory accesses -/

/-- What a write of a register other than CTRL may change. -/
theorem State.writeParam_frame (s : State) (off : BitVec 8) (w : Word) :
    s.writeParam off w = { s with
      format := (s.writeParam off w).format
      image := (s.writeParam off w).image
      baseLen := (s.writeParam off w).baseLen
      stride := (s.writeParam off w).stride
      inLen := (s.writeParam off w).inLen
      outLen := (s.writeParam off w).outLen } := by
  unfold State.writeParam
  repeat' split
  all_goals rfl

theorem State.hostWrite_of_busy (h : s.busy = true) (off : BitVec 8) (size : Nat) (w : Word) :
    s.hostWrite off size w = s := if_neg (by simp [h])

theorem State.hostWrite_aligned (h : s.busy = false) {off : BitVec 8} (ha : off.toNat % 4 = 0) (w : Word) :
    s.hostWrite off 4 w = s.writeParam off w := if_pos ⟨⟨rfl, ha⟩, h⟩

theorem State.Inv.hostWrite (h : s.Inv) (off : BitVec 8) (size : Nat) (w : Word) : (s.hostWrite off size w).Inv := by
  unfold State.hostWrite
  split
  · rename_i hw
    have idle : s.busy ≠ true := by simp [hw.2]
    rw [State.writeParam_frame]
    exact { h with latched := fun hb => absurd hb idle, octBuilt := fun hb => absurd hb idle }
  · exact h

theorem State.Inv.hostRead (h : s.Inv) (off : BitVec 8) (size : Nat) : (s.hostRead off size).Inv := by
  unfold State.hostRead
  split
  · refine h.withRead _ ?_
    split <;> omega
  · exact h.withRead 0 (le_refl _)

theorem State.Inv.hostReadOut (h : s.Inv) (a : Word) : (s.hostReadOut a).Inv := by
  unfold State.hostReadOut
  split
  · exact h.withRead _ (Nat.le_succ _)
  · exact h.withRead _ (le_refl _)

theorem State.Inv.hostWriteIn (h : s.Inv) {a : Word} {v : Byte} (ht : s.hostWriteIn a v = .next t) : t.Inv := by
  unfold State.hostWriteIn at ht
  split at ht <;> cases ht
  exact { h with inWf := Memory.write_wf h.inWf a.isLt v }

theorem State.Inv.hostWriteOut (h : s.Inv) {a : Word} {v : Byte} (ht : s.hostWriteOut a v = .next t) : t.Inv := by
  unfold State.hostWriteOut at ht
  split at ht <;> cases ht
  exact { h with
    outWf := Memory.write_wf h.outWf a.isLt v
    drawnOk := h.drawnOk.write _ v
    noneFree := fun hb b hlt => by
      rw [State.writeOut_outDrawn, drawnAt_erase]
      split
      · rfl
      · exact h.noneFree hb b hlt }

/-! ## The step -/

/-- A CTRL write runs its command (R28). -/
theorem hostStep_write_ctrl {off : BitVec 8} {size : Nat} (h : isCtrlWrite off size) (s : State) (w : Word) :
    s.hostStep (.write off size w) = exec (decodeCtrl w) s := by
  simp only [State.hostStep]
  rw [if_pos h]

/-- Any other write is one of a parameter, or does nothing (R29 to R34). -/
theorem hostStep_write_other {off : BitVec 8} {size : Nat} (h : ¬isCtrlWrite off size) (s : State) (w : Word) :
    s.hostStep (.write off size w) = .next (s.hostWrite off size w) := if_neg h

/-- Every move of the host keeps the invariant. -/
theorem hostStep_keepsInv {m : HostMove} (h : s.Inv) (hs : s.hostStep m = .next t) : t.Inv := by
  cases m with
  | pass => exact blockStep_keepsInv h hs
  | await =>
    simp only [State.hostStep] at hs
    split at hs
    · exact blockStep_keepsInv (h.withHost _) hs
    · cases hs
      exact h
  | read off size =>
    cases hs
    exact h.hostRead off size
  | write off size w =>
    by_cases hw : isCtrlWrite off size
    · obtain ⟨u, hu, hinv⟩ := exec_decodeCtrl s w
      rw [hostStep_write_ctrl hw, hu] at hs
      cases hs
      exact hinv h
    · rw [hostStep_write_other hw] at hs
      cases hs
      exact h.hostWrite off size w
  | readIn a =>
    cases hs
    exact h.withRead _ (le_refl _)
  | writeIn a v => exact h.hostWriteIn hs
  | readOut a =>
    cases hs
    exact h.hostReadOut a
  | writeOut a v => exact h.hostWriteOut hs
  | reset =>
    cases hs
    exact State.hardReset_inv h.inWf h.outWf h.drawnOk

theorem step_nil (h : s.host = []) : step s = s.blockStep := by
  unfold step
  rw [h]

theorem step_cons {m : HostMove} {ms : List HostMove} (h : s.host = m :: ms) :
    step s = State.hostStep { s with host := ms } m := by
  unfold step
  rw [h]

/-- From the invariant a move of the host has a next state, or it writes a memory while BUSY and is refused. -/
theorem State.Inv.hostStep_next (h : s.Inv) (m : HostMove) :
    (∃ t, s.hostStep m = .next t) ∨
    (s.busy = true ∧ ∃ a v,
      (m = .writeIn a v ∧ s.hostStep m = .refused .hostWroteInWhileBusy) ∨
      (m = .writeOut a v ∧ s.hostStep m = .refused .hostWroteOutWhileBusy)) := by
  cases m with
  | pass => exact .inl h.blockStep_next
  | await =>
    left
    simp only [State.hostStep]
    split
    · exact (h.withHost _).blockStep_next
    · exact ⟨_, rfl⟩
  | write off size w =>
    left
    by_cases hw : isCtrlWrite off size
    · obtain ⟨t, ht, -⟩ := exec_decodeCtrl s w
      exact ⟨t, (hostStep_write_ctrl hw s w).trans ht⟩
    · exact ⟨_, hostStep_write_other hw s w⟩
  | writeIn a v =>
    cases hb : s.busy with
    | true => exact .inr ⟨rfl, a, v, .inl ⟨rfl, if_pos hb⟩⟩
    | false => exact .inl ⟨_, if_neg (by simp [hb])⟩
  | writeOut a v =>
    cases hb : s.busy with
    | true => exact .inr ⟨rfl, a, v, .inr ⟨rfl, if_pos hb⟩⟩
    | false => exact .inl ⟨_, if_neg (by simp [hb])⟩
  | read | readIn | readOut | reset => exact .inl ⟨_, rfl⟩

end

/-- Settles O3: the state after reset is the hardware reset of itself. -/
theorem invHoldsAtReset : Obligations.InvHoldsAtReset :=
  State.hardReset_inv (s := State.reset) Memory.wf_nil Memory.wf_nil (drawnOk_nil [] 0)

/-- Settles O4: the block's steps by `BlockMove`, the host's by its moves. -/
theorem stepKeepsInv : Obligations.StepKeepsInv := by
  intro s t h hs
  cases hh : s.host with
  | nil => exact blockStep_keepsInv h (step_nil hh ▸ hs)
  | cons m ms => exact hostStep_keepsInv (h.withHost ms) (step_cons hh ▸ hs)

/-- Settles O5: no token faults between B and U, and every host move but those two has a next state. -/
theorem stepStopsOnlyOnHostMemoryWrites : Obligations.StepStopsOnlyOnHostMemoryWrites := by
  intro s h
  cases hh : s.host with
  | nil =>
    rw [step_nil hh]
    exact .inl h.blockStep_next
  | cons m ms =>
    rw [step_cons hh]
    refine ((h.withHost ms).hostStep_next m).imp_right ?_
    rintro ⟨hb, a, v, ⟨rfl, hs⟩ | ⟨rfl, hs⟩⟩
    · exact ⟨hb, a, v, ms, .inl ⟨rfl, hs⟩⟩
    · exact ⟨hb, a, v, ms, .inr ⟨rfl, hs⟩⟩

end Sys2Proof.Machine

/-! SUPPORT. Single accesses and single instructions: reset, CTRL writes, registers, literals. -/
namespace Sys2Proof.Machine

/-! ## Reset and commands -/

/-- Settles O1: every piece is that of `State.hardReset`. -/
theorem hardResetGivesTheResetTable : Obligations.HardResetGivesTheResetTable := fun s ms =>
  ⟨State.hardReset { s with host := ms }, rfl, rfl, rfl, rfl, rfl, rfl, rfl, rfl, rfl, rfl, rfl, rfl, rfl, rfl, rfl,
    rfl, rfl, fun _ => rfl, rfl⟩

/-- Settles O2: offset by offset. -/
theorem resetRegistersReadZero : Obligations.ResetRegistersReadZero := by
  intro off
  unfold State.readReg
  repeat' split
  all_goals rfl

/-- Settles O7: offset 0x00 and 32 bits are a CTRL write. -/
theorem stepRunsTheCtrlWrite : Obligations.StepRunsTheCtrlWrite := by
  intro s w ms
  rw [step_cons rfl, hostStep_write_ctrl ⟨⟨rfl, rfl⟩, rfl⟩]

/-- The command depends on bits 2:0 of the word alone (R124). -/
theorem decodeCtrl_congr {v w : Word} (h : ∀ k < 3, v.getLsbD k = w.getLsbD k) : decodeCtrl v = decodeCtrl w := by
  unfold decodeCtrl
  rw [h 0 (by omega), h 1 (by omega), h 2 (by omega)]

/-- Settles O11: the command by bits 1:0, START first. -/
theorem ctrlWriteCombines : Obligations.CtrlWriteCombines := by
  intro w
  unfold decodeCtrl
  refine ⟨fun h0 => if_pos h0, fun h0 h1 => ?_, fun h0 h1 => ?_, fun v hv => decodeCtrl_congr fun k hk => ?_⟩
  · rw [if_neg (Bool.eq_false_iff.mp h0), if_pos h1]
  · rw [if_neg (Bool.eq_false_iff.mp h0), if_neg (Bool.eq_false_iff.mp h1)]
  · have hbit := congrArg (·.getLsbD k) hv
    simpa only [BitVec.getLsbD_setWidth, hk, decide_true, Bool.true_and] using hbit

/-! ## Literals -/

/-- A byte at a cursor below U goes out as a literal's does. -/
theorem State.putByte_literalResult {s : State} (v : Byte) (h : s.cur.toNat < s.cfg.outLen.toNat) :
    LiteralResult s (s.putByte v) v where
  cursor := State.putByte_cur_toNat v h
  stored := by rw [State.readOut_putByte, if_pos rfl]
  others a ha := by rw [State.readOut_putByte, if_neg ha]
  frame := rfl

theorem State.emit_of_le {s : State} (v : Byte) (h : s.cfg.outLen.toNat ≤ s.cur.toNat) :
    s.emit v = .fault .outPastEnd := if_neg (Nat.not_lt.mpr h)

theorem codeSymbol_of_entry {lut : Lut} {w : CodeWord} (h0 : w.len ≠ 0) (h : (lut.get w.bits).len.toNat = w.len) :
    codeSymbol lut w = some (lut.get w.bits).sym := if_pos ⟨h, h0⟩

/-- Settles O28: the byte goes out at a cursor below U. -/
theorem rawLiteralWritesItsByte : Obligations.RawLiteralWritesItsByte := fun s v h =>
  ⟨s.putByte v, State.emit_of_lt v h, State.putByte_literalResult v h⟩

/-- Settles O32: the entry rules NO_CODE out, and the cursor decides. -/
theorem literalsStopOutsideADecode : Obligations.LiteralsStopOutsideADecode := by
  intro s v w h0 hentry
  have hsym := codeSymbol_of_entry h0 hentry
  refine ⟨fun hU => ⟨State.emit_of_le v hU, ?_⟩, fun hB => ?_, fun hB hU => ?_⟩
  · rcases exec_litCode_cases s w with ⟨hnone, -⟩ | ⟨sym, -, e⟩
    · simp [hsym] at hnone
    · rw [e, State.emit_of_le sym hU]
  · rcases exec_litRank_cases s w with ⟨hnone, -⟩ | ⟨k, -, ⟨-, e⟩ | ⟨hle, -⟩⟩
    · simp [hsym] at hnone
    · exact e
    · exact absurd hB (Nat.not_lt.mpr hle)
  · rcases exec_litRank_cases s w with ⟨hnone, -⟩ | ⟨k, -, ⟨hlt, -⟩ | ⟨-, c, -, e⟩⟩
    · simp [hsym] at hnone
    · exact absurd hlt (Nat.not_lt.mpr hB)
    · rw [e]
      exact State.emit_of_le _ hU

/-! ## STATUS after a failure -/

/-- STATUS in ERROR: STATE 3, the cause's kind and code at their bits (R31, R131). -/
theorem State.raise_statusWord (s : State) (c : Cause) :
    (s.raise c).statusWord = BitVec.ofNat 32 (3 + 4 * c.kind.toNat + 256 * c.code.toNat) := by
  change (0 : BitVec 20) ++ c.code ++ (0 : BitVec 4) ++ c.kind ++ (3 : BitVec 2) = _
  cases c <;> rfl

/-- Settles O43: the rows are the causes' kinds and codes (R128). -/
theorem statusShowsTheCause : Obligations.StatusShowsTheCause := by
  intro s c kind code h
  obtain ⟨rfl, rfl⟩ : kind = c.kind.toNat ∧ code = c.code.toNat := by
    cases c <;> simpa [Cause.kind, Cause.code] using h
  exact s.raise_statusWord c

/-! ## Registers -/

/-- A write that is no CTRL write (R28). -/
theorem hostStep_write_of_ne {s : State} {off : BitVec 8} (h : off ≠ 0x00) (size : Nat) (w : Word) :
    s.hostStep (.write off size w) = .next (s.hostWrite off size w) :=
  hostStep_write_other (fun hw => h hw.2) s w

/-- CONFIG's word as a number (R30). -/
theorem configFields_toNat (b : Bool) (f : BitVec 4) :
    ((0 : BitVec 27) ++ BitVec.ofBool b ++ f).toNat = f.toNat + 16 * b.toNat := by
  revert b f
  decide

/-- A word's low five bits, put into CONFIG's fields and read back. -/
theorem configFields_of_word (w : Word) :
    (0 : BitVec 27) ++ BitVec.ofBool (w.getLsbD 4) ++ w.setWidth 4 = w &&& 0x1F := by
  have himage : (w.getLsbD 4).toNat = w.toNat / 16 % 2 := Nat.toNat_testBit w.toNat 4
  have hmask : (w &&& 0x1F).toNat = w.toNat % 32 := Nat.and_two_pow_sub_one_eq_mod w.toNat 5
  apply BitVec.eq_of_toNat_eq
  rw [configFields_toNat, BitVec.toNat_setWidth, himage, hmask]
  omega

/-- Settles O54: each offset's write, then its read. -/
theorem parametersReadBack : Obligations.ParametersReadBack := by
  intro s w hb
  have hwrite : ∀ off : BitVec 8, off ≠ 0x00 → off.toNat % 4 = 0 →
      s.hostStep (.write off 4 w) = .next (s.writeParam off w) := fun off h0 ha => by
    rw [hostStep_write_of_ne h0, State.hostWrite_aligned hb ha]
  refine ⟨hwrite 0x08 (by decide) rfl, hwrite 0x0C (by decide) rfl, hwrite 0x10 (by decide) rfl,
    hwrite 0x14 (by decide) rfl, hwrite 0x18 (by decide) rfl, ?_, ?_, ?_, ?_, ?_⟩
  all_goals rw [State.hostWrite_aligned hb rfl]
  · exact configFields_of_word w
  all_goals rfl

/-- Settles O55: no CTRL write, and no other write acts while BUSY. -/
theorem busyParameterWritesAreIgnored : Obligations.BusyParameterWritesAreIgnored := fun s off size w hb h0 => by
  rw [hostStep_write_of_ne h0, State.hostWrite_of_busy hb]

/-- The five parameter offsets are the only ones that a write acts on (R29 to R34). -/
theorem State.writeParam_of_not_param (s : State) {off : BitVec 8} (w : Word)
    (h : off ∉ [(0x08 : BitVec 8), 0x0C, 0x10, 0x14, 0x18]) : s.writeParam off w = s := by
  simp only [List.mem_cons, List.not_mem_nil, or_false, not_or] at h
  obtain ⟨h1, h2, h3, h4, h5⟩ := h
  rw [State.writeParam, if_neg h1, if_neg h2, if_neg h3, if_neg h4, if_neg h5]

theorem State.hostWrite_of_not_param (s : State) {off : BitVec 8} (size : Nat) (w : Word)
    (h : off ∉ [(0x08 : BitVec 8), 0x0C, 0x10, 0x14, 0x18]) : s.hostWrite off size w = s := by
  unfold State.hostWrite
  split
  · exact s.writeParam_of_not_param w h
  · rfl

/-- A reserved offset reads 0 (R34). -/
theorem State.readReg_of_reserved (s : State) {off : BitVec 8} (h : 0x28 ≤ off) : s.readReg off = 0 := by
  have ne (k : BitVec 8) (hk : k < 0x28) : off ≠ k := by
    rintro rfl
    exact absurd hk (BitVec.not_lt.mpr h)
  rw [State.readReg]
  repeat rw [if_neg (ne _ (by decide))]

/-- Settles O57: none of the offsets is CTRL or a parameter's. -/
theorem readOnlyAndReservedOffsets : Obligations.ReadOnlyAndReservedOffsets := by
  refine ⟨fun s off w h => ?_, fun s off h => s.readReg_of_reserved h⟩
  have hoff : off ≠ 0x00 ∧ off ∉ [(0x08 : BitVec 8), 0x0C, 0x10, 0x14, 0x18] := by
    revert off
    decide
  rw [hostStep_write_of_ne hoff.1, State.hostWrite_of_not_param s 4 w hoff.2]

/-! ## Fields of the registers -/

section
open BitVec (extractLsb'_append_eq_of_le extractLsb'_append_eq_left extractLsb'_append_eq_right)
variable (s : State)

/-- STATUS (R31): STATE 1:0, ERR_KIND 3:2, ERR_CAUSE 11:8, the reserved bits 0. -/
theorem State.statusWord_fields :
    s.statusWord.extractLsb' 0 2 = s.phase.code ∧ s.statusWord.extractLsb' 2 2 = s.errKind ∧
    s.statusWord.extractLsb' 8 4 = s.errCause ∧ s.statusWord.extractLsb' 4 4 = 0 ∧
    s.statusWord.extractLsb' 12 20 = 0 := by
  unfold State.statusWord
  refine ⟨extractLsb'_append_eq_right, ?_, ?_, ?_, ?_⟩
  · rw [extractLsb'_append_eq_of_le (by decide)]
    exact extractLsb'_append_eq_right
  · rw [extractLsb'_append_eq_of_le (by decide), extractLsb'_append_eq_of_le (by decide),
      extractLsb'_append_eq_of_le (by decide)]
    exact extractLsb'_append_eq_right
  · rw [extractLsb'_append_eq_of_le (by decide), extractLsb'_append_eq_of_le (by decide)]
    exact extractLsb'_append_eq_right
  · rw [extractLsb'_append_eq_of_le (by decide), extractLsb'_append_eq_of_le (by decide),
      extractLsb'_append_eq_of_le (by decide)]
    exact extractLsb'_append_eq_left

/-- CONFIG (R30): FORMAT 3:0, IMAGE 4, the reserved bits 0. -/
theorem State.configWord_fields :
    s.configWord.extractLsb' 0 4 = s.format ∧ s.configWord.getLsbD 4 = s.image ∧
    s.configWord.extractLsb' 5 27 = 0 := by
  unfold State.configWord
  refine ⟨extractLsb'_append_eq_right, ?_, ?_⟩
  · rw [BitVec.getLsbD_append, if_neg (by decide), BitVec.getLsbD_append, if_pos (by decide)]
    cases s.image <;> rfl
  · rw [extractLsb'_append_eq_of_le (by decide)]
    exact extractLsb'_append_eq_left

/-- BITBUF (R33): BUF 7:0, CNT 11:8, `ip[32]` 16, the reserved bits 0. -/
theorem State.bitbufWord_fields :
    s.bitbufWord.extractLsb' 0 8 = s.rd.buf ∧ s.bitbufWord.extractLsb' 8 4 = s.rd.cnt ∧
    s.bitbufWord.extractLsb' 12 4 = 0 ∧ s.bitbufWord.getLsbD 16 = s.rd.ip.getLsbD 32 ∧
    s.bitbufWord.extractLsb' 17 15 = 0 := by
  unfold State.bitbufWord
  refine ⟨extractLsb'_append_eq_right, ?_, ?_, ?_, ?_⟩
  · rw [extractLsb'_append_eq_of_le (by decide)]
    exact extractLsb'_append_eq_right
  · rw [extractLsb'_append_eq_of_le (by decide), extractLsb'_append_eq_of_le (by decide)]
    exact extractLsb'_append_eq_right
  · rw [BitVec.getLsbD_append, if_neg (by decide), BitVec.getLsbD_append, if_neg (by decide), BitVec.getLsbD_append,
      if_neg (by decide), BitVec.getLsbD_append, if_pos (by decide), BitVec.getLsbD_extractLsb']
    rfl
  · rw [extractLsb'_append_eq_of_le (by decide), extractLsb'_append_eq_of_le (by decide),
      extractLsb'_append_eq_of_le (by decide)]
    exact extractLsb'_append_eq_left

/-- CTRL (R28): IE at bit 2, the other bits 0. -/
theorem State.ctrlWord_getLsbD (k : Nat) : s.ctrlWord.getLsbD k = (decide (k = 2) && s.ie) := by
  unfold State.ctrlWord
  cases s.ie with
  | false => simp
  | true =>
    have hbit : BitVec.ofNat 32 (4 * true.toNat) = BitVec.twoPow 32 2 := rfl
    rw [hbit, BitVec.getLsbD_twoPow, Bool.and_true]
    simp [eq_comm]

end

/-- A position read outside BUSY is specified (R32, R33). -/
theorem State.unlessBusy_of_not_busy {s : State} (h : s.busy = false) (w : Word) : s.unlessBusy w = w :=
  if_neg (by simp [h])

/-- An aligned 32-bit read returns the register, and changes the read data and the count of free values alone. -/
theorem State.hostRead_aligned (s : State) {off : BitVec 8} (h : off.toNat % 4 = 0) :
    s.hostRead off 4 = { s with
      rdata := s.readReg off, draws := if s.busy && isPosition off then s.draws + 1 else s.draws } := if_pos ⟨rfl, h⟩

/-- Settles O58: the read itself, then the registers by their fields. -/
theorem registerFieldsStandAtTheirBits : Obligations.RegisterFieldsStandAtTheirBits := by
  intro s
  obtain ⟨state, kind, cause, statusLow, statusHigh⟩ := s.statusWord_fields
  obtain ⟨format, image, configHigh⟩ := s.configWord_fields
  refine ⟨fun off ha => ⟨s.hostRead off 4, rfl, ?_, ?_, ?_⟩, fun hb => ?_, ?_, fun k hk => ?_, state, kind, cause,
    statusLow, statusHigh, format, image, configHigh, fun hb => ?_⟩
  · rw [State.hostRead_aligned s ha]
  · rw [State.hostRead_aligned s ha]
  · intro hb
    simp [State.hostRead_aligned s ha, hb]
  · refine ⟨(State.unlessBusy_of_not_busy hb _).trans ?_, State.unlessBusy_of_not_busy hb _⟩
    rfl
  · exact (s.ctrlWord_getLsbD 2).trans (by simp)
  · exact (s.ctrlWord_getLsbD k).trans (by simp [hk])
  · have hread : s.readReg 0x24 = s.bitbufWord := State.unlessBusy_of_not_busy hb _
    rw [hread]
    exact s.bitbufWord_fields

/-- While BUSY, STATUS shows STATE 1 and no error (R31, R151). -/
theorem State.Running.statusWord {s : State} (h : s.Running) (hb : s.busy = true) : s.statusWord = 1 := by
  have hcode : ∀ p : Phase, p.busy = true → p.code = 1 := by
    intro p
    cases p <;> decide
  simp only [State.statusWord, State.errKind, State.errCause, h.err, hcode s.phase hb]
  rfl

/-- Settles O59: STATUS from the phase and the empty error record, the positions drawn. -/
theorem readsWhileBusy : Obligations.ReadsWhileBusy := by
  intro s h hb
  have draw : ∀ w, s.unlessBusy w = Config.draw s.draws := fun w => if_pos hb
  have config : s.configWord = BitVec.ofNat 32 (s.format.toNat + 16 * s.image.toNat) := by
    apply BitVec.eq_of_toNat_eq
    rw [State.configWord, configFields_toNat, BitVec.toNat_ofNat, Nat.mod_eq_of_lt]
    have := s.image.toNat_le
    omega
  exact ⟨(h.running hb).statusWord hb, rfl, config, rfl, rfl, rfl, rfl, draw _, draw _, draw _⟩

end Sys2Proof.Machine

/-! SUPPORT. Host accesses: narrow and misaligned ones, the memories, and what none of them can change while BUSY. -/
namespace Sys2Proof.Machine

section
variable {s : State}

/-! ## Accesses of REG -/

/-- An access that is not 32 bits wide at a multiple of 4 reads 0 (R43). -/
theorem State.hostRead_unaligned (s : State) {off : BitVec 8} {size : Nat} (h : ¬aligned off size) :
    s.hostRead off size = { s with rdata := 0 } := if_neg h

/-- An access that is not 32 bits wide at a multiple of 4 writes nothing (R43). -/
theorem State.hostWrite_unaligned (s : State) {off : BitVec 8} {size : Nat} (h : ¬aligned off size) (w : Word) :
    s.hostWrite off size w = s := if_neg fun hw => h hw.1

/-- A read of REG changes the read data and the count of free values alone (R45). -/
theorem State.hostRead_frame (s : State) (off : BitVec 8) (size : Nat) :
    ∃ data draws, s.hostRead off size = { s with rdata := data, draws := draws } := by
  by_cases h : aligned off size
  · exact ⟨_, _, if_pos h⟩
  · exact ⟨_, s.draws, s.hostRead_unaligned h⟩

/-- While BUSY a command changes IE alone (R122 to R124). -/
theorem exec_decodeCtrl_of_busy (h : s.busy = true) (w : Word) :
    exec (decodeCtrl w) s = .next { s with ie := w.getLsbD 2 } := by
  rcases decodeCtrl_cases w with ⟨-, e⟩ | ⟨-, -, e⟩ | ⟨-, -, e⟩ <;> rw [e]
  · exact congrArg Host.Outcome.next (if_pos h)
  · refine congrArg Host.Outcome.next (if_neg ?_)
    rintro (hp | hp)
    all_goals
      change s.phase = _ at hp
      simp [State.busy, hp, Phase.busy] at h
  · rfl

/-- While BUSY a write of REG changes IE at most (R152). -/
theorem hostStep_write_of_busy (h : s.busy = true) (off : BitVec 8) (size : Nat) (w : Word) :
    ∃ ie, s.hostStep (.write off size w) = .next { s with ie := ie } := by
  by_cases hw : isCtrlWrite off size
  · exact ⟨_, (hostStep_write_ctrl hw s w).trans (exec_decodeCtrl_of_busy h w)⟩
  · exact ⟨s.ie, by rw [hostStep_write_other hw, State.hostWrite_of_busy h]⟩

end

/-- Settles O56: neither the read, the command nor the parameter write takes an access that is not aligned. -/
theorem unalignedAccessesDoNothing : Obligations.UnalignedAccessesDoNothing := by
  intro s off size w h
  refine ⟨congrArg Host.Outcome.next (s.hostRead_unaligned h), ?_⟩
  rw [hostStep_write_other (fun hw => h hw.1), s.hostWrite_unaligned h]

/-! ## Accesses of IN and OUT -/

section
variable {s : State}

theorem State.hostReadOut_of_busy (h : s.busy = true) (a : Word) :
    s.hostReadOut a = { s with rdata := ((Config.draw s.draws).setWidth 8).setWidth 32, draws := s.draws + 1 } :=
  if_pos h

theorem State.hostReadOut_of_not_busy (h : s.busy = false) (a : Word) :
    s.hostReadOut a = { s with rdata := (s.readOut a.toNat).setWidth 32 } := if_neg (by simp [h])

theorem State.hostWriteIn_of_not_busy (h : s.busy = false) (a : Word) (v : Byte) :
    s.hostWriteIn a v = .next { s with inMem := Memory.write s.inMem a.toNat v } := if_neg (by simp [h])

theorem State.hostWriteOut_of_not_busy (h : s.busy = false) (a : Word) (v : Byte) :
    s.hostWriteOut a v = .next (s.writeOut a.toNat v) := if_neg (by simp [h])

/-- A read of OUT changes the read data and the count of free values alone. -/
theorem State.hostReadOut_frame (s : State) (a : Word) :
    ∃ data draws, s.hostReadOut a = { s with rdata := data, draws := draws } := by
  cases hb : s.busy with
  | true => exact ⟨_, _, State.hostReadOut_of_busy hb a⟩
  | false => exact ⟨_, s.draws, State.hostReadOut_of_not_busy hb a⟩

end

/-- Settles O60: a write outside BUSY, then its read; while BUSY the refusals. -/
theorem hostMemoryAccesses : Obligations.HostMemoryAccesses := by
  refine fun s a v => ⟨fun hb => ⟨?_, ?_⟩, fun hb => ⟨if_pos hb, if_pos hb, ?_⟩⟩
  · refine ⟨_, State.hostWriteIn_of_not_busy hb a v, ?_, fun b hne => Memory.read_write_other s.inMem v hne, rfl⟩
    simp only [State.hostStep, State.hostReadIn, Memory.read_write_same]
  · refine ⟨_, State.hostWriteOut_of_not_busy hb a v, ?_, fun b hne => ?_, rfl⟩
    · have hread : (s.writeOut a.toNat v).readOut a.toNat = v := by rw [State.readOut_writeOut, if_pos rfl]
      have hidle : (s.writeOut a.toNat v).busy = false := hb
      simp only [State.hostStep]
      rw [State.hostReadOut_of_not_busy hidle, hread]
    · rw [State.readOut_writeOut, if_neg hne]
  · exact congrArg Host.Outcome.next (State.hostReadOut_of_busy hb a)

/-- Settles O53: the four accesses one by one. -/
theorem hostAccessesCannotChangeADecode : Obligations.HostAccessesCannotChangeADecode := by
  intro s off size w a hb m hm
  simp only [List.mem_cons, List.not_mem_nil, or_false] at hm
  rcases hm with rfl | rfl | rfl | rfl
  · obtain ⟨data, draws, e⟩ := s.hostRead_frame off size
    exact ⟨_, congrArg Host.Outcome.next e, rfl⟩
  · obtain ⟨ie, h⟩ := hostStep_write_of_busy hb off size w
    exact ⟨_, h, rfl⟩
  · exact ⟨_, rfl, rfl⟩
  · obtain ⟨data, draws, e⟩ := s.hostReadOut_frame a
    exact ⟨_, congrArg Host.Outcome.next e, rfl⟩

end Sys2Proof.Machine

/-! SUPPORT. What the reads of the stream depend on: IN below INLEN alone (R39); under LAZY, the bits of the buffer. -/
namespace Sys2Proof.Machine

/-! ## Streams that differ past their end -/

section
variable {st st' : Stream}

theorem SameStream.hasByte_iff (h : SameStream st st') (r : Reader) : st.hasByte r ↔ st'.hasByte r := by
  unfold Stream.hasByte
  rw [h.len]

theorem SameStream.loadBuf_eq (h : SameStream st st') {r : Reader} (hr : st.hasByte r) :
    loadBuf st r = loadBuf st' r := by
  unfold loadBuf
  rw [h.bytes _ hr]

theorem SameStream.eagerRefill_eq (h : SameStream st st') (r : Reader) : eagerRefill st r = eagerRefill st' r := by
  unfold eagerRefill
  rw [← h.refill]
  simp only [← h.hasByte_iff r]
  split
  · rename_i hr
    exact h.loadBuf_eq hr.2.2
  · rfl

theorem SameStream.takeBit_eq (h : SameStream st st') (r : Reader) : takeBit st r = takeBit st' r := by
  unfold takeBit
  rw [h.eagerRefill_eq]

theorem SameStream.readByte_eq (h : SameStream st st') : readByte st = readByte st' := by
  funext c r
  rcases readByte_cases st c r with ⟨hr, e⟩ | ⟨hr, e⟩ <;> rw [e]
  · rw [h.bytes _ hr]
    exact (if_pos ((h.hasByte_iff r).mp hr)).symm
  · exact (if_neg (mt (h.hasByte_iff r).mpr hr)).symm

theorem SameStream.reseed_eq (h : SameStream st st') : reseed st = reseed st' := by
  funext r
  rcases reseed_cases st r with ⟨hr, e⟩ | ⟨hr, e⟩ <;> rw [e]
  · rw [h.loadBuf_eq hr]
    exact (if_pos ((h.hasByte_iff r).mp hr)).symm
  · exact (if_neg (mt (h.hasByte_iff r).mpr hr)).symm

theorem SameStream.readBit_eq (h : SameStream st st') : readBit st = readBit st' := by
  funext r
  unfold readBit
  simp only [← h.hasByte_iff r, h.takeBit_eq]
  split
  · split
    · rw [h.loadBuf_eq (by assumption)]
    · rfl
  · rfl

theorem SameStream.readBitsOnto_eq (h : SameStream st st') (n v : Nat) :
    readBitsOnto st n v = readBitsOnto st' n v := by
  induction n generalizing v with
  | zero => rfl
  | succ n ih => simp only [readBitsOnto, h.readBit_eq, ih]

theorem SameStream.countZeros_eq (h : SameStream st st') (n z : Nat) : countZeros st n z = countZeros st' n z := by
  induction n generalizing z with
  | zero => rfl
  | succ n ih => simp only [countZeros, h.readBit_eq, ih]

theorem SameStream.walkCode_eq (h : SameStream st st') (lut : Lut) (fuel n : Nat) (acc : BitVec 15) :
    walkCode st lut fuel n acc = walkCode st' lut fuel n acc := by
  induction fuel generalizing n acc with
  | zero => rfl
  | succ fuel ih => simp only [walkCode, h.readBit_eq, ih]

theorem SameStream.lengthPart_eq (h : SameStream st st') : lengthPart st = lengthPart st' := by
  simp only [lengthPart, gammaField, h.readBit_eq, h.countZeros_eq, h.readBitsOnto_eq]

theorem SameStream.explicitOffset_eq (h : SameStream st st') (par : Params) (c : Latched) :
    explicitOffset par c st = explicitOffset par c st' := by
  simp only [explicitOffset, offsetBytes, reseedIf, h.readByte_eq, h.readBit_eq, h.reseed_eq]

theorem SameStream.decodeLiteral_eq (h : SameStream st st') (par : Params) (c : Latched) (lut : Lut) :
    decodeLiteral par c lut st = decodeLiteral par c lut st' := by
  simp only [decodeLiteral, readCodeWord, reseedIf, h.walkCode_eq, h.readByte_eq, h.reseed_eq]

theorem SameStream.decodeMatch_eq (h : SameStream st st') (par : Params) (c : Latched) :
    decodeMatch par c st = decodeMatch par c st' := by
  simp only [decodeMatch, decodePlain, decodeBranched, decodeCtx, readSelector, readBits, h.explicitOffset_eq,
    h.lengthPart_eq, h.readBitsOnto_eq, h.readBit_eq]

theorem SameStream.decodeToken_eq (h : SameStream st st') (par : Params) (c : Latched) (lut : Lut) :
    decodeToken par c lut st = decodeToken par c lut st' := by
  simp only [decodeToken, h.readBit_eq, h.decodeLiteral_eq, h.decodeMatch_eq]

end

/-- Settles O16: part by part, down to the bit, the raw byte and the re-seed. -/
theorem decodeIgnoresInputPastItsEnd : Obligations.DecodeIgnoresInputPastItsEnd := fun par c lut _ _ r h =>
  congrFun (h.decodeToken_eq par c lut) r

/-! ## Bits under LAZY -/

section
variable {st : Stream} {r : Reader}

/-- A read whose first part does not tell two readers apart. -/
theorem Fetch.bind_congr {α β : Type} {f : Fetch α} {g : α → Fetch β} {q : Reader} (h : f r = f q) :
    (f >>= g) r = (f >>= g) q := by
  change EStateM.bind f g r = EStateM.bind f g q
  unfold EStateM.bind
  rw [h]

/-- A bit from an empty buffer is one from a freshly loaded buffer (R72). -/
theorem readBit_of_empty (hc : r.cnt = 0) (hb : st.hasByte r) : readBit st r = readBit st (loadBuf st r) := by
  unfold readBit
  rw [if_pos hc, if_pos hb]
  rfl

/-- Bits from an empty buffer are those from a freshly loaded buffer (R72, R73). -/
theorem readBitsOnto_of_empty (hc : r.cnt = 0) (hb : st.hasByte r) (n v : Nat) :
    readBitsOnto st (n + 1) v r = readBitsOnto st (n + 1) v (loadBuf st r) := by
  rw [readBitsOnto]
  exact Fetch.bind_congr (readBit_of_empty hc hb)

/-- Under LAZY a bit from a buffer that holds one drops the top bit and fetches nothing (R72). -/
theorem readBit_of_lazy (hlazy : st.refill = .lazy) (hc : r.cnt ≠ 0) :
    readBit st r = .ok r.buf.msb { r with buf := r.buf <<< 1, cnt := r.cnt - 1 } := by
  unfold readBit takeBit eagerRefill
  rw [if_neg hc, if_neg (by simp [hlazy])]

/-- The top `n + 1` bits of a byte are its top bit, then the top `n` bits of the byte shifted left. -/
theorem topBits_succ (b : Byte) {n : Nat} (hn : n < 8) :
    b.toNat / 2 ^ (8 - (n + 1)) = 2 ^ n * b.msb.toNat + (b <<< 1).toNat / 2 ^ (8 - n) := by
  have hmsb : b.msb.toNat = b.toNat / 128 % 2 := by
    rw [BitVec.msb_eq_getLsbD_last]
    exact Nat.toNat_testBit b.toNat 7
  have hshift : (b <<< 1).toNat = 2 * b.toNat % 256 := by
    rw [BitVec.toNat_shiftLeft, Nat.shiftLeft_eq, Nat.mul_comm]
  rw [hmsb, hshift]
  interval_cases n <;> omega

/-- Under LAZY, reading out a buffer that holds `n` bits gives its top `n` bits, MSB first (R41, R73). -/
theorem readBitsOnto_of_lazy (hlazy : st.refill = .lazy) {n : Nat} (hn : n ≤ 8) (hc : r.cnt.toNat = n) (v : Nat) :
    readBitsOnto st n v r = .ok (2 ^ n * v + r.buf.toNat / 2 ^ (8 - n)) ⟨r.buf <<< n, 0, r.ip⟩ := by
  induction n generalizing r v with
  | zero =>
    have hcnt : r.cnt = 0 := BitVec.eq_of_toNat_eq hc
    have htop : r.buf.toNat / 2 ^ (8 - 0) = 0 := Nat.div_eq_of_lt r.buf.isLt
    rw [htop, ← hcnt]
    simp [readBitsOnto]
  | succ n ih =>
    have hne : r.cnt ≠ 0 := by bv_omega
    have hcnt : (r.cnt - 1).toNat = n := by bv_omega
    rw [readBitsOnto, Fetch.bind_eq (readBit_of_lazy hlazy hne), ih (by omega) hcnt, topBits_succ r.buf (by omega)]
    simp only [← BitVec.shiftLeft_add]
    congr 1
    · ring
    · rw [Nat.add_comm]

end

/-- Settles O19: the byte is loaded, then read out. -/
theorem eightBitsAreAByteMsbFirst : Obligations.EightBitsAreAByteMsbFirst := by
  intro st r hlazy hc hb
  have hempty : st.byteAt r.ip.toNat <<< 8 = 0 := BitVec.shiftLeft_eq_zero (le_refl 8)
  rw [readBits, readBitsOnto_of_empty hc hb, readBitsOnto_of_lazy hlazy (le_refl 8) rfl 0]
  simp [hempty]

end Sys2Proof.Machine

/-! SUPPORT. Two decodes that agree (`Agree`) go on agreeing while bytes go out, in PREFIX and in a token. -/
namespace Sys2Proof.Machine

section
variable {s t : State}

/-! ## The updates that keep agreement -/

/-- Both states read the same stream up to its end. -/
theorem Agree.sameStream (h : Agree s t) : SameStream s.stream t.stream where
  len := congrArg Latched.inLen h.cfg
  refill := congrArg Params.refill h.par
  bytes := h.input

theorem Agree.withReader (h : Agree s t) (r : Reader) : Agree (s.withReader r) (t.withReader r) :=
  { h with rd := rfl }

theorem Agree.withRanks (h : Agree s t) (rt : Sparse (List Byte)) : Agree (s.withRanks rt) (t.withRanks rt) :=
  { h with rt := rfl }

/-- LEN is not compared outside TABLE and BUILD. -/
theorem Agree.goto (h : Agree s t) (hne : s.phase ≠ .error) {p : Phase} (htable : p ≠ .table) (hbuild : p ≠ .build) :
    Agree (s.goto p) (t.goto p) :=
  { h with
    phase := rfl
    lensTable := fun e => absurd e htable
    lensBuild := fun e => absurd e hbuild
    output := fun _ => h.output hne }

/-- OUT is not compared in ERROR. -/
theorem Agree.raise (h : Agree s t) (c : Cause) : Agree (s.raise c) (t.raise c) :=
  { h with
    phase := rfl
    err := rfl
    lensTable := nofun
    lensBuild := nofun
    output := fun e => absurd rfl e }

/-- The same byte goes out. -/
theorem Agree.putByte (h : Agree s t) (hne : s.phase ≠ .error) (v : Byte) : Agree (s.putByte v) (t.putByte v) :=
  { h with
    cur := by rw [State.putByte_cur, State.putByte_cur, h.cur]
    output := fun _ a ha => by
      rw [State.readOut_putByte, State.readOut_putByte, ← h.cur]
      split
      · rfl
      · have hle : (s.putByte v).cur.toNat ≤ s.cur.toNat + 1 := by
          rw [State.putByte_cur]
          bv_omega
        exact h.output hne a (by omega) }

/-- A copy reads behind the cursor alone (R119, R120). -/
theorem Agree.copyBytes (h : Agree s t) (hne : s.phase ≠ .error) {n offset : Nat} (hpos : offset ≠ 0)
    (hle : offset ≤ s.cur.toNat) (hfit : s.cur.toNat + n ≤ s.cfg.outLen.toNat) :
    Agree (copyBytes n offset s) (copyBytes n offset t) := by
  induction n generalizing s t with
  | zero => exact h
  | succ n ih =>
    have hread : s.readOut (s.cur.toNat - offset) = t.readOut (t.cur.toNat - offset) := by
      rw [← h.cur]
      exact h.output hne _ (by omega)
    have hcur := State.putByte_cur_toNat (s := s) (s.readOut (s.cur.toNat - offset)) (by omega)
    rw [Machine.copyBytes, Machine.copyBytes, ← hread]
    exact ih (h.putByte hne _) hne (by omega) (by rw [hcur, State.putByte_cfg]; omega)

/-- A read of the stream gives both the same value, or the same failure. -/
theorem Agree.fetch {α : Type} (h : Agree s t) {f : Fetch α} {k : α → State → State}
    (hk : ∀ a r, Agree (k a (s.withReader r)) (k a (t.withReader r))) : Agree (s.fetch f k) (t.fetch f k) := by
  unfold State.fetch
  rw [← h.rd]
  split
  · exact hk _ _
  · exact (h.withReader _).raise _

/-- A byte or the end of PREFIX (R105, R106). -/
theorem Agree.prefixStep (h : Agree s t) (hne : s.phase ≠ .error) : Agree s.prefixStep t.prefixStep := by
  unfold State.prefixStep
  rw [← h.cur, ← h.cfg, ← h.sameStream.readByte_eq]
  split
  · exact h.fetch fun v r => (h.withReader r).putByte hne v
  · split
    · exact h.goto hne nofun nofun
    · exact h.goto hne nofun nofun

/-! ## Tokens -/

/-- The next states of two outcomes agree, or both stop for the same reason. -/
inductive OutcomesAgree : Host.Outcome State Fault Refusal → Host.Outcome State Fault Refusal → Prop where
  | next {s t : State} (h : Agree s t) : OutcomesAgree (.next s) (.next t)
  | fault (r : Fault) : OutcomesAgree (.fault r) (.fault r)
  | refused (r : Refusal) : OutcomesAgree (.refused r) (.refused r)

theorem OutcomesAgree.mapNext {o o' : Host.Outcome State Fault Refusal} {f : State → State} (h : OutcomesAgree o o')
    (hf : ∀ s t, Agree s t → Agree (f s) (f t)) : OutcomesAgree (mapNext f o) (mapNext f o') := by
  cases h with
  | next h => exact .next (hf _ _ h)
  | fault r => exact .fault r
  | refused r => exact .refused r

theorem OutcomesAgree.exists_next {o : Host.Outcome State Fault Refusal} (h : OutcomesAgree (.next s) o) :
    ∃ u, o = .next u ∧ Agree s u := by
  cases h with
  | next h => exact ⟨_, rfl, h⟩

theorem Agree.emit (h : Agree s t) (hne : s.phase ≠ .error) (v : Byte) : OutcomesAgree (s.emit v) (t.emit v) := by
  unfold State.emit
  rw [← h.cur, ← h.cfg]
  split
  · exact .next (h.putByte hne v)
  · exact .fault _

theorem Agree.checkMatch_eq (h : Agree s t) (offset length : Nat) :
    checkMatch s offset length = checkMatch t offset length := by
  unfold checkMatch
  rw [h.cur, h.cfg]

theorem Agree.matchOperands_eq (h : Agree s t) (i : Instr) : matchOperands s i = matchOperands t i := by
  have hsel (sel : BitVec 3) : s.offsetOfSelector sel = t.offsetOfSelector sel := by
    unfold State.offsetOfSelector
    rw [h.cfg]
    simp only [h.oct]
  cases i with
  | matchCtx sel x | matchCtxSingle sel x => simp only [matchOperands, hsel]
  | _ => rfl

theorem Agree.runMatch (h : Agree s t) (hne : s.phase ≠ .error) (hcur : s.cur.toNat ≤ s.cfg.outLen.toNat)
    (m : MatchOffset) (x : LenPart) : Agree (s.runMatch m x) (t.runMatch m x) := by
  unfold State.runMatch
  cases matchLength m.base x with
  | none => exact h.raise .gammaOverflow
  | some n =>
    simp only [← h.checkMatch_eq]
    cases hc : checkMatch s m.offset n with
    | some c => exact h.raise c
    | none =>
      obtain ⟨hpos, hle, hfit⟩ := checkMatch_none.mp hc
      exact h.copyBytes hne hpos hle (by omega)

theorem Agree.execLitCode (h : Agree s t) (hne : s.phase ≠ .error) (w : CodeWord) :
    OutcomesAgree (execLitCode w s) (execLitCode w t) := by
  unfold Machine.execLitCode
  rw [← h.lut]
  cases codeSymbol s.lut w with
  | none => exact .next (h.raise .noCode)
  | some sym => exact h.emit hne sym

/-- The rank context lies behind the cursor (R94, R111). -/
theorem Agree.execLitRank (h : Agree s t) (hne : s.phase ≠ .error) (hbase : s.cfg.base ≠ 0) (w : CodeWord) :
    OutcomesAgree (execLitRank w s) (execLitRank w t) := by
  have hsym : codeSymbol t.lut w = codeSymbol s.lut w := by rw [h.lut]
  unfold Machine.execLitRank
  cases hk : codeSymbol s.lut w with
  | none =>
    simp only [hsym, hk]
    exact .next (h.raise .noCode)
  | some k =>
    by_cases hB : s.cur.toNat < s.cfg.base.toNat
    · have hB' : t.cur.toNat < t.cfg.base.toNat := h.cur ▸ h.cfg ▸ hB
      simp only [hsym, hk, if_pos hB, if_pos hB']
      exact .fault _
    · have hB' : ¬t.cur.toNat < t.cfg.base.toNat := h.cur ▸ h.cfg ▸ hB
      have hread : t.readOut (t.cur.toNat - t.cfg.base.toNat) = s.readOut (s.cur.toNat - s.cfg.base.toNat) := by
        rw [← h.cur, ← h.cfg]
        exact (h.output hne _ (by bv_omega)).symm
      simp only [hsym, hk, if_neg hB, if_neg hB', hread, ← h.rt]
      exact (h.withRanks (lookupAndPromote s.rt (s.readOut (s.cur.toNat - s.cfg.base.toNat)) k).2).emit hne _

/-- Agreement is kept by the meaning of every token. -/
theorem Agree.exec (h : Agree s t) (hne : s.phase ≠ .error) (hbase : s.cfg.base ≠ 0)
    (hcur : s.cur.toNat ≤ s.cfg.outLen.toNat) {i : Instr} (hi : i.isCommand = false) :
    OutcomesAgree (exec i s) (exec i t) := by
  rcases token_cases s hi with ⟨v, rfl⟩ | ⟨w, rfl⟩ | ⟨w, rfl⟩ | ⟨m, x, hm⟩
  · exact h.emit hne v
  · exact h.execLitCode hne w
  · exact h.execLitRank hne hbase w
  · rw [exec_match hm, exec_match (h.matchOperands_eq i ▸ hm)]
    exact .next (h.runMatch hne hcur m x)

theorem Agree.settle (h : Agree s t) : Agree s.settle t.settle := by
  unfold State.settle
  by_cases hU : s.phase = .token ∧ s.cur = s.cfg.outLen
  · have hU' : t.phase = .token ∧ t.cur = t.cfg.outLen := h.phase ▸ h.cur ▸ h.cfg ▸ hU
    rw [if_pos hU, if_pos hU']
    exact h.goto (by simp [hU.1]) nofun nofun
  · have hU' : ¬(t.phase = .token ∧ t.cur = t.cfg.outLen) := h.phase ▸ h.cur ▸ h.cfg ▸ hU
    rw [if_neg hU, if_neg hU']
    exact h

/-- Agreement is kept by a token, from its bits to the end of its copy. -/
theorem Agree.tokenStep (h : Agree s t) (hne : s.phase ≠ .error) (hbase : s.cfg.base ≠ 0) :
    OutcomesAgree s.tokenStep t.tokenStep := by
  unfold State.tokenStep
  rw [← h.cur, ← h.cfg, ← h.par, ← h.lut, ← h.rd, ← h.sameStream.decodeToken_eq]
  split
  · rename_i hcur
    split
    · rename_i i r hd
      have hi := decodeToken_isToken s.par s.cfg s.lut s.stream s.rd i r hd
      exact ((h.withReader r).exec hne hbase hcur.le hi).mapNext fun _ _ => Agree.settle
    · exact .next ((h.withReader _).raise _)
  · exact .next (h.goto hne nofun nofun)

/-! ## The step into DONE -/

/-- DONE is entered from PREFIX and from TOKEN alone (R121). -/
theorem BlockMove.of_done (h : BlockMove s t) (hb : s.busy = true) (hd : t.phase = .done) :
    s.phase = .prefixCopy ∨ s.phase = .token := by
  have rows : ∀ p : Phase, p.busy = true → (p, Phase.done) ∈ phaseTable → p = .prefixCopy ∨ p = .token := by
    intro p
    cases p <;> decide
  exact rows s.phase hb (hd ▸ h.mem_phaseTable)

/-- A decode that agrees with one about to end ends with it. -/
theorem Agree.blockStep_done {s' : State} (h : Agree s s') (hinv : s.Inv) (hb : s.busy = true)
    (hs : s.blockStep = .next t) (hd : t.phase = .done) : ∃ t', s'.blockStep = .next t' ∧ Agree t t' := by
  rcases (blockStep_move hs).of_done hb hd with hp | hp
  · have hp' : s'.phase = .prefixCopy := h.phase ▸ hp
    simp only [State.blockStep, hp] at hs
    simp only [State.blockStep, hp']
    cases hs
    exact ⟨_, rfl, h.prefixStep (by simp [hp])⟩
  · have hp' : s'.phase = .token := h.phase ▸ hp
    have hstep := h.tokenStep (by simp [hp]) (hinv.at_phase hp).2.base
    simp only [State.blockStep, hp] at hs
    simp only [State.blockStep, hp']
    exact (hs ▸ hstep).exists_next

/-- A decode is determined by OUT behind the cursor: what OUT holds from there on is not compared. -/
theorem Agree.withOut {m : Memory} {d : List DrawnRange}
    (h : ∀ a < s.cur.toNat, State.readOut { s with outMem := m, outDrawn := d } a = s.readOut a) :
    Agree s { s with outMem := m, outDrawn := d } :=
  ⟨rfl, rfl, rfl, rfl, rfl, rfl, rfl, rfl, rfl, rfl, rfl, fun _ _ _ => rfl, fun _ _ _ => rfl, fun _ _ => rfl,
    fun _ a ha => (h a ha).symm⟩

/-- STATUS in DONE: STATE 2 and no error (R31, R108). -/
theorem State.statusWord_of_done (hp : s.phase = .done) (he : s.err = none) : s.statusWord = 2 := by
  simp only [State.statusWord, State.errKind, State.errCause, he, hp]
  rfl

end

/-- Settles O48: the registers from the invariant in DONE, OUT below U by agreement, OUT from U on by the frame. -/
theorem doneMeansTheWholeOutput : Obligations.DoneMeansTheWholeOutput := by
  intro s t h hb hs hd
  have hmove := blockStep_move hs
  obtain ⟨err, inside, cur, known⟩ := (hmove.keepsInv h).at_phase hd
  have idle : t.busy = false := by rw [State.busy, hd]; rfl
  have hcfg : t.cfg = s.cfg := by rw [hmove.frame]
  refine ⟨(State.unlessBusy_of_not_busy idle _).trans cur, State.unlessBusy_of_not_busy idle _, inside,
    State.statusWord_of_done hd err, State.unlessBusy_of_not_busy idle _, fun a ha => known a (cur ▸ ha),
    fun m d hout => ?_, fun a ha => hmove.readOut_of_le (hcfg ▸ ha)⟩
  obtain ⟨t', ht', agree⟩ := (Agree.withOut hout).blockStep_done h hb hs hd
  exact ⟨t', ht', agree.phase ▸ hd, fun a ha => (agree.output (by simp [hd]) a (cur ▸ ha)).symm⟩

end Sys2Proof.Machine

/-! SUPPORT. Copies (O33 to O35), the failure entry after a token that is cut off (O42), the sample words (O12). -/
namespace Sys2Proof.Machine

/-! ## Sample words -/

/-- Settles O12, by running the decoder on each word. -/
theorem sampleWordsDecode : Obligations.SampleWordsDecode := by
  unfold Obligations.SampleWordsDecode
  decide

/-! ## Failure entry -/

/-- The failure entry leaves what R131 and R132 say. -/
theorem State.raise_failureResult (s : State) (c : Cause) : FailureResult s (s.raise c) c where
  record := rfl
  phase := rfl
  free a ha := by rw [State.readOut_raise, if_pos ha]
  others a ha := by rw [State.readOut_raise, if_neg (Nat.not_lt.mpr ha)]
  frame := rfl

/-- In TOKEN with `cur < U` a token that the decoder cuts off is a failure (R68, R131). -/
theorem State.blockStep_of_cutOff {s : State} {c : Cause} {r : Reader} (hp : s.phase = .token)
    (hcur : s.cur.toNat < s.cfg.outLen.toNat) (hd : decodeToken s.par s.cfg s.lut s.stream s.rd = .error c r) :
    s.blockStep = .next ((s.withReader r).raise c) := by
  simp only [State.blockStep, hp, State.tokenStep, if_pos hcur, hd]

/-- Settles O42: the step raises the decoder's cause, and the failure entry does the rest. -/
theorem cutOffTokenEntersError : Obligations.CutOffTokenEntersError := fun _ c _ hp hcur hd =>
  ⟨_, State.blockStep_of_cutOff hp hcur hd, State.raise_failureResult _ c⟩

/-! ## Copies -/

/-- The step of a remainder: it goes up by one, or back to 0 at the modulus. -/
theorem succ_mod_cases {m : Nat} (hm : m ≠ 0) (j : Nat) :
    (j % m + 1 = m ∧ (j + 1) % m = 0) ∨ (j % m + 1 < m ∧ (j + 1) % m = j % m + 1) := by
  have hlt : j % m < m := Nat.mod_lt j (Nat.pos_of_ne_zero hm)
  have hstep : (j + 1) % m = (j % m + 1) % m := (Nat.mod_add_mod j m 1).symm
  rcases (show j % m + 1 ≤ m from hlt).lt_or_eq with h | h
  · exact .inr ⟨h, by rw [hstep, Nat.mod_eq_of_lt h]⟩
  · exact .inl ⟨h, by rw [hstep, h, Nat.mod_self]⟩

/-- A copy's bytes repeat the `offset` bytes behind the cursor (R120): each is read after the one before
it was written. -/
theorem copyBytes_copyResult {s : State} {offset n : Nat} (h0 : offset ≠ 0) (hle : offset ≤ s.cur.toNat)
    (hfit : s.cur.toNat + n ≤ s.cfg.outLen.toNat) : CopyResult s (copyBytes n offset s) offset n := by
  induction n generalizing s with
  | zero => exact ⟨rfl, nofun, fun _ _ => rfl, rfl⟩
  | succ n ih =>
    have hcur := State.putByte_cur_toNat (s := s) (s.readOut (s.cur.toNat - offset)) (by omega)
    obtain ⟨cursor, copied, others, frame⟩ :=
      ih (s := s.putByte (s.readOut (s.cur.toNat - offset))) (by omega) (by rw [hcur, State.putByte_cfg]; omega)
    rw [hcur] at cursor copied others
    refine ⟨by rw [copyBytes, cursor]; omega, fun j hj => ?_, fun a ha => ?_, frame⟩
    · cases j with
      | zero =>
        rw [copyBytes, others _ (by omega), State.readOut_putByte, if_pos (by omega), Nat.zero_mod, Nat.add_zero]
      | succ j =>
        rw [copyBytes, ← Nat.add_assoc, Nat.add_right_comm _ j 1, copied j (by omega), State.readOut_putByte]
        rcases succ_mod_cases h0 j with ⟨hwrap, e⟩ | ⟨hlt, e⟩ <;> rw [e]
        · rw [if_pos (by omega), Nat.add_zero]
        · rw [if_neg (by omega)]
          congr 1
          omega
    · rw [copyBytes, others a (by omega), State.readOut_putByte, if_neg (by omega)]

/-- A match whose offset and length pass the checks of R119 completes with its copy. -/
theorem exec_match_copyResult {s : State} {i : Instr} {m : MatchOffset} {x : LenPart} {n : Nat}
    (hi : matchOperands s i = some (m, x)) (hn : LengthIs m.base x n) (h0 : m.offset ≠ 0)
    (hle : m.offset ≤ s.cur.toNat) (hfit : s.cur.toNat + n ≤ s.cfg.outLen.toNat) :
    ∃ t, exec i s = .next t ∧ CopyResult s t m.offset n := by
  have hcheck : checkMatch s m.offset n = none := checkMatch_none.mpr ⟨h0, hle, by omega⟩
  have hrun : s.runMatch m x = copyBytes n m.offset s := by
    simp only [State.runMatch, matchLength_eq_some.mpr hn, hcheck]
  exact ⟨_, hrun ▸ exec_match hi, copyBytes_copyResult h0 hle hfit⟩

/-- Settles O33: the four forms have the operands of `offsetOfByte`. -/
theorem byteOffsetMatchesCopy : Obligations.ByteOffsetMatchesCopy := by
  intro s o x n hn h0 hle hfit
  have copies {i : Instr} (hi : matchOperands s i = some (offsetOfByte o, x)) :
      ∃ t, exec i s = .next t ∧ CopyResult s t o.toNat n :=
    exec_match_copyResult hi hn (BitVec.toNat_ne.mp h0) hle hfit
  exact ⟨copies rfl, copies rfl, copies rfl, copies rfl⟩

/-- Settles O34: the two forms have the operands of `offsetOfWord`. -/
theorem wordOffsetMatchesCopy : Obligations.WordOffsetMatchesCopy := by
  intro s o x n hn h0 hle hfit
  have copies {i : Instr} (hi : matchOperands s i = some (offsetOfWord o, x)) :
      ∃ t, exec i s = .next t ∧ CopyResult s t o.toNat n :=
    exec_match_copyResult hi hn (BitVec.toNat_ne.mp h0) hle hfit
  exact ⟨copies rfl, copies rfl⟩

/-- Settles O35: the two forms have the operands that the offset table gives for the selector. -/
theorem contextualMatchesCopy : Obligations.ContextualMatchesCopy := fun s sel _ _ hn h0 hle hfit =>
  ⟨exec_match_copyResult (m := s.offsetOfSelector sel) rfl hn h0 hle hfit,
   exec_match_copyResult (m := s.offsetOfSelector sel) rfl hn h0 hle hfit⟩

end Sys2Proof.Machine

/-! SUPPORT. Where a reader stands in a stream of fields (O8): each read of the bit reader takes its field, and the
reads of the decoder take the fields of the encoder. -/
namespace Sys2Proof.Machine

/-! ## The encoder's functions -/

@[simp] theorem layOut_nil (p : Refill) (n : Nat) : layOut p n [] = [] := by
  cases n <;> rfl

@[simp] theorem layOut_raw (p : Refill) (n : Nat) (v : Byte) (fs : List Field) :
    layOut p n (.raw v :: fs) = v :: layOut p n fs := by
  cases n <;> rfl

@[simp] theorem layOut_reseed (p : Refill) (n : Nat) (fs : List Field) :
    layOut p n (.reseed :: fs) = bitByte fs :: layOut p 8 fs := by
  cases n <;> rfl

/-- A bit from an empty buffer is laid out as one from the byte that is loaded for it. -/
theorem layOut_zero_bit (p : Refill) (b : Bool) (fs : List Field) :
    layOut p 0 (.bit b :: fs) = bitByte (.bit b :: fs) :: layOut p 8 (.bit b :: fs) := by
  simp [layOut]

theorem layOut_succ_bit (p : Refill) (n : Nat) (b : Bool) (fs : List Field) :
    layOut p (n + 1) (.bit b :: fs) =
      if p = .eager ∧ n = 0 then bitByte fs :: layOut p 8 fs else layOut p n fs := rfl

@[simp] theorem nextBits_raw (n : Nat) (v : Byte) (fs : List Field) : nextBits n (.raw v :: fs) = nextBits n fs := by
  cases n <;> simp [nextBits]

theorem nextBits_length_le (n : Nat) (fs : List Field) : (nextBits n fs).length ≤ n := by
  fun_induction nextBits n fs with
  | case4 n v fs ih => exact ih
  | case5 n b fs ih => exact Nat.succ_le_succ ih
  | _ => exact Nat.zero_le _

theorem packBits_lt (n : Nat) (l : List Bool) : packBits n l < 2 ^ n := by
  fun_induction packBits n l with
  | case1 l => exact Nat.one_pos
  | case2 n => exact Nat.two_pow_pos _
  | case3 n b l ih =>
    have := b.toNat_le
    rw [pow_succ]
    nlinarith

/-- One more place than there are bits is a zero at the end. -/
theorem packBits_succ_of_length_le {n : Nat} {l : List Bool} (h : l.length ≤ n) :
    packBits (n + 1) l = 2 * packBits n l := by
  induction n generalizing l with
  | zero => rw [List.length_eq_zero_iff.mp (Nat.le_zero.mp h)]; rfl
  | succ n ih =>
    cases l with
    | nil => rfl
    | cons b l =>
      rw [packBits, packBits, ih (Nat.le_of_succ_le_succ h)]
      ring

theorem bitByte_toNat (fs : List Field) : (bitByte fs).toNat = packBits 8 (nextBits 8 fs) :=
  BitVec.toNat_ofNat .. ▸ Nat.mod_eq_of_lt (packBits_lt 8 _)

/-- The top bit of a packed byte is its first bit, and the byte shifted left packs the others. -/
theorem msb_and_shift_of_packBits {v : Byte} {b : Bool} {l : List Bool} (hv : v.toNat = packBits 8 (b :: l))
    (hl : l.length ≤ 7) : v.msb = b ∧ (v <<< 1).toNat = packBits 8 l := by
  have hlt : packBits 7 l < 128 := packBits_lt 7 l
  have hcons : v.toNat = b.toNat * 128 + packBits 7 l := hv
  rw [BitVec.msb_eq_decide, BitVec.toNat_shiftLeft, packBits_succ_of_length_le hl, Nat.shiftLeft_eq, hcons]
  cases b with
  | false => exact ⟨decide_eq_false (by simp only [Bool.toNat_false]; omega), by simp only [Bool.toNat_false]; omega⟩
  | true => exact ⟨decide_eq_true (by simp only [Bool.toNat_true]; omega), by simp only [Bool.toNat_true]; omega⟩

/-! ## Bytes at an address -/

/-- The bytes stand in IN from `a` on, inside the input. -/
def Stream.Holds (st : Stream) (a : Nat) (bs : List Byte) : Prop :=
  a + bs.length ≤ st.len.toNat ∧ ∀ j < bs.length, st.byteAt (a + j) = bs.getD j 0

theorem Stream.holds_cons {st : Stream} {a : Nat} {b : Byte} {bs : List Byte} (h : st.Holds a (b :: bs)) :
    a < st.len.toNat ∧ st.byteAt a = b ∧ st.Holds (a + 1) bs := by
  obtain ⟨hlen, hbytes⟩ := h
  rw [List.length_cons] at hlen hbytes
  refine ⟨by omega, hbytes 0 (Nat.succ_pos _), by omega, fun j hj => ?_⟩
  rw [Nat.add_assoc, Nat.add_comm 1 j]
  exact hbytes (j + 1) (Nat.succ_lt_succ hj)

/-! ## The reader before its fields -/

/-- The reader stands where `fs` follow (`AtFields`), and the bytes that are laid out for them end at address `e`. -/
structure Reader.Before (st : Stream) (r : Reader) (fs : List Field) (e : Nat) : Prop where
  cntLe : r.cnt.toNat ≤ 8
  held : r.buf.toNat = packBits 8 (nextBits r.cnt.toNat fs)
  bytes : st.Holds r.ip.toNat (layOut st.refill r.cnt.toNat fs)
  stop : r.ip.toNat + (layOut st.refill r.cnt.toNat fs).length = e

theorem Reader.Before.atFields {st : Stream} {r : Reader} {fs : List Field} {e : Nat} (h : r.Before st fs e) :
    AtFields st r fs := ⟨h.cntLe, h.held, h.bytes.1, h.bytes.2⟩

theorem AtFields.before {st : Stream} {r : Reader} {fs : List Field} (h : AtFields st r fs) :
    r.Before st fs (r.ip.toNat + (layOut st.refill r.cnt.toNat fs).length) :=
  ⟨h.cntLe, h.held, ⟨h.inside, h.bytes⟩, rfl⟩

section
variable {st : Stream} {r : Reader} {fs : List Field} {e : Nat}

/-- With no field left the reader is at the end of the bytes. -/
theorem Reader.Before.ip_of_nil (h : r.Before st [] e) : r.ip.toNat = e := by
  simpa using h.stop

/-- Loading the byte that begins with the fields' bits (R72, R74). -/
theorem Reader.Before.loadBuf (hbytes : st.Holds r.ip.toNat (bitByte fs :: layOut st.refill 8 fs))
    (hstop : r.ip.toNat + (bitByte fs :: layOut st.refill 8 fs).length = e) :
    st.hasByte r ∧ (loadBuf st r).Before st fs e := by
  obtain ⟨hlt, hbyte, hrest⟩ := Stream.holds_cons hbytes
  have hip : (r.ip + 1).toNat = r.ip.toNat + 1 := Stream.hasByte_next hlt
  refine ⟨hlt, le_refl 8, ?_, ?_, ?_⟩
  · rw [loadBuf_buf, hbyte, bitByte_toNat]
    rfl
  · rw [loadBuf_ip, hip]
    exact hrest
  · rw [loadBuf_ip, hip, ← hstop, List.length_cons, Nat.add_right_comm]
    rfl

/-- A raw byte at `ip` (R71). -/
theorem Reader.Before.readByte {v : Byte} (h : r.Before st (.raw v :: fs) e) (c : Cause) :
    ∃ r', readByte st c r = .ok v r' ∧ r'.Before st fs e := by
  obtain ⟨cntLe, held, bytes, stop⟩ := h
  rw [nextBits_raw] at held
  rw [layOut_raw] at bytes stop
  obtain ⟨hlt, hbyte, hrest⟩ := Stream.holds_cons bytes
  have hip : (r.ip + 1).toNat = r.ip.toNat + 1 := Stream.hasByte_next hlt
  refine ⟨{ r with ip := r.ip + 1 }, ?_, cntLe, held, ?_, ?_⟩
  · rw [← hbyte]
    exact if_pos hlt
  · rw [← hip] at hrest
    exact hrest
  · rw [← stop, List.length_cons, hip, Nat.add_right_comm]
    rfl

/-- A re-seed point (R74). -/
theorem Reader.Before.reseed (h : r.Before st (.reseed :: fs) e) :
    ∃ r', reseed st r = .ok () r' ∧ r'.Before st fs e := by
  obtain ⟨-, -, bytes, stop⟩ := h
  rw [layOut_reseed] at bytes stop
  obtain ⟨hb, hload⟩ := Reader.Before.loadBuf bytes stop
  exact ⟨_, if_pos hb, hload⟩

/-- A bit from a buffer that holds one, and the byte after it under EAGER (R72). -/
theorem Reader.Before.takeBit {b : Bool} (h : r.Before st (.bit b :: fs) e) (hc : r.cnt ≠ 0) :
    (takeBit st r).1 = b ∧ (takeBit st r).2.Before st fs e := by
  obtain ⟨n, hn⟩ : ∃ n, r.cnt.toNat = n + 1 := ⟨r.cnt.toNat - 1, by bv_omega⟩
  have hcnt : (r.cnt - 1).toNat = n := by bv_omega
  obtain ⟨cntLe, held, bytes, stop⟩ := h
  rw [hn] at cntLe held bytes stop
  have hlen := nextBits_length_le n fs
  obtain ⟨hmsb, hshift⟩ := msb_and_shift_of_packBits held (by omega)
  refine ⟨hmsb, ?_⟩
  rw [layOut_succ_bit] at bytes stop
  change (eagerRefill st { r with buf := r.buf <<< 1, cnt := r.cnt - 1 }).Before st fs e
  by_cases hlast : st.refill = .eager ∧ n = 0
  · rw [if_pos hlast] at bytes stop
    obtain ⟨hb, hload⟩ := Reader.Before.loadBuf (r := { r with buf := r.buf <<< 1, cnt := r.cnt - 1 }) bytes stop
    have hempty : r.cnt - 1 = 0 := BitVec.eq_of_toNat_eq (hcnt.trans hlast.2)
    rw [eagerRefill, if_pos ⟨hlast.1, hempty, hb⟩]
    exact hload
  · rw [if_neg hlast] at bytes stop
    have hkeep : ¬(st.refill = .eager ∧ r.cnt - 1 = 0 ∧ st.hasByte { r with buf := r.buf <<< 1, cnt := r.cnt - 1 }) :=
      fun ⟨heager, hempty, _⟩ => hlast ⟨heager, by rw [← hcnt, hempty]; rfl⟩
    rw [eagerRefill, if_neg hkeep]
    exact ⟨by simp only [hcnt]; omega, by simp only [hcnt, hshift], by simpa only [hcnt] using bytes,
      by simpa only [hcnt] using stop⟩

/-- A bit, its byte loaded first where the buffer is empty (R72). -/
theorem Reader.Before.readBit {b : Bool} (h : r.Before st (.bit b :: fs) e) :
    ∃ r', readBit st r = .ok b r' ∧ r'.Before st fs e := by
  by_cases hc : r.cnt = 0
  · obtain ⟨-, -, bytes, stop⟩ := h
    have hzero : r.cnt.toNat = 0 := congrArg BitVec.toNat hc
    rw [hzero, layOut_zero_bit] at bytes stop
    obtain ⟨hb, hload⟩ := Reader.Before.loadBuf bytes stop
    obtain ⟨hbit, hrest⟩ := hload.takeBit (by simp)
    exact ⟨_, by rw [Machine.readBit, if_pos hc, if_pos hb, hbit], hrest⟩
  · obtain ⟨hbit, hrest⟩ := h.takeBit hc
    exact ⟨_, by rw [Machine.readBit, if_neg hc, hbit], hrest⟩

end

/-! ## Reads that take fields -/

/-- Wherever the fields `fs` stand next, the read gives `a` and stops after them. -/
def Fetch.Takes {α : Type} (st : Stream) (f : Fetch α) (fs : List Field) (a : α) : Prop :=
  ∀ (r : Reader) (rest : List Field) (e : Nat), r.Before st (fs ++ rest) e →
    ∃ r', f r = .ok a r' ∧ r'.Before st rest e

theorem Fetch.Takes.pure {α : Type} (st : Stream) (a : α) : Fetch.Takes st (pure a) [] a := fun r _ _ h => ⟨r, rfl, h⟩

theorem Fetch.Takes.bind {α β : Type} {st : Stream} {f : Fetch α} {g : α → Fetch β} {fs gs : List Field} {a : α} {b : β}
    (hf : f.Takes st fs a) (hg : (g a).Takes st gs b) : (f >>= g).Takes st (fs ++ gs) b := by
  intro r rest e h
  rw [List.append_assoc] at h
  obtain ⟨q, hq, h⟩ := hf r _ e h
  rw [Fetch.bind_eq hq]
  exact hg q rest e h

/-- The value of a read, put to use. -/
theorem Fetch.Takes.map {α β : Type} {st : Stream} {f : Fetch α} {fs : List Field} {a : α} (hf : f.Takes st fs a)
    (k : α → β) : Fetch.Takes st (f >>= fun x => Pure.pure (k x)) fs (k a) :=
  List.append_nil fs ▸ hf.bind (.pure st (k a))

section
variable (st : Stream)

theorem readBit_takes (b : Bool) : (readBit st).Takes st [.bit b] b := fun _ _ _ h => h.readBit

theorem readByte_takes (c : Cause) (v : Byte) : (readByte st c).Takes st [.raw v] v := fun _ _ _ h => h.readByte c

theorem reseedIf_takes (p : Bool) : (reseedIf p st).Takes st (reseedFields p) () := by
  cases p with
  | false => exact .pure st ()
  | true => exact fun _ _ _ h => h.reseed

/-- Bits read onto `v` (R73). -/
theorem readBitsOnto_takes (n v w : Nat) : (readBitsOnto st n v).Takes st (bitFields n w) (v * 2 ^ n + w % 2 ^ n) := by
  induction n generalizing v with
  | zero => simpa [readBitsOnto, bitFields, Nat.mod_one] using Fetch.Takes.pure st v
  | succ n ih =>
    have hvalue : v * 2 ^ (n + 1) + w % 2 ^ (n + 1) = (2 * v + (w.testBit n).toNat) * 2 ^ n + w % 2 ^ n := by
      rw [Nat.mod_pow_succ, Nat.toNat_testBit]
      ring
    rw [hvalue]
    exact (readBit_takes st _).bind (ih _)

theorem readSelector_takes (sel : BitVec 3) : (readSelector st).Takes st (bitFields 3 sel.toNat) sel := by
  have hvalue : 0 * 2 ^ 3 + sel.toNat % 2 ^ 3 = sel.toNat := by
    rw [Nat.zero_mul, Nat.zero_add, Nat.mod_eq_of_lt sel.isLt]
  have hread := (readBitsOnto_takes st 3 0 sel.toNat).map (BitVec.ofNat 3)
  rw [hvalue, BitVec.ofNat_toNat, BitVec.setWidth_eq] at hread
  exact hread

/-! ## The gamma field and the length part (R61, R80) -/

/-- 32 zeros are the invalid gamma field (R81). -/
theorem countZeros_takes_none (n z : Nat) : (countZeros st n z).Takes st (List.replicate n (.bit false)) none := by
  induction n generalizing z with
  | zero => exact .pure st none
  | succ n ih => exact (readBit_takes st false).bind (ih (z + 1))

/-- `k` zeros and the stop bit. -/
theorem countZeros_takes_some {n k : Nat} (h : k < n) (z : Nat) :
    (countZeros st n z).Takes st (List.replicate k (.bit false) ++ [.bit true]) (some (z + k)) := by
  induction k generalizing n z with
  | zero =>
    obtain ⟨n, rfl⟩ := Nat.exists_eq_add_one.mpr h
    exact (readBit_takes st true).bind (.pure st (some z))
  | succ k ih =>
    obtain ⟨n, rfl⟩ := Nat.exists_eq_add_one.mpr (Nat.zero_lt_of_lt h)
    rw [show z + (k + 1) = z + 1 + k by omega]
    exact (readBit_takes st false).bind (ih (Nat.lt_of_succ_lt_succ h) (z + 1))

/-- The gamma field of `g`: the zeros, the stop bit as the top bit of `g + 1`, then its other bits. -/
theorem gammaFields_eq (g : Nat) :
    gammaFields g = (List.replicate (g + 1).log2 (.bit false) ++ [.bit true]) ++ bitFields (g + 1).log2 (g + 1) := by
  have htop : (g + 1).testBit (g + 1).log2 = true := Nat.testBit_log2 (Nat.succ_ne_zero g)
  rw [gammaFields, bitFields, htop, List.append_assoc]
  rfl

theorem gammaField_takes {g : Word} (h : g ≠ BitVec.allOnes 32) :
    (gammaField st).Takes st (gammaFields g.toNat) (.ext g) := by
  have hlt : g.toNat + 1 < 2 ^ 32 := by
    have := g.isLt
    have : g.toNat ≠ 2 ^ 32 - 1 := fun e => h (BitVec.eq_of_toNat_eq (e.trans (BitVec.toNat_allOnes).symm))
    omega
  have hlog : (g.toNat + 1).log2 < 32 := (Nat.log2_lt (Nat.succ_ne_zero _)).mpr hlt
  have hvalue : 1 * 2 ^ (g.toNat + 1).log2 + (g.toNat + 1) % 2 ^ (g.toNat + 1).log2 - 1 = g.toNat := by
    have hle : 2 ^ (g.toNat + 1).log2 ≤ g.toNat + 1 := Nat.log2_self_le (Nat.succ_ne_zero _)
    have hlt : g.toNat + 1 < 2 ^ ((g.toNat + 1).log2 + 1) := Nat.lt_log2_self
    rw [pow_succ] at hlt
    rw [Nat.mod_eq_sub_mod hle, Nat.mod_eq_of_lt (by omega)]
    omega
  have hbits := (readBitsOnto_takes st (g.toNat + 1).log2 1 (g.toNat + 1)).map fun v =>
    LenPart.ext (BitVec.ofNat 32 (v - 1))
  rw [hvalue, BitVec.ofNat_toNat, BitVec.setWidth_eq] at hbits
  rw [gammaFields_eq]
  refine (countZeros_takes_some st hlog 0).bind ?_
  rw [Nat.zero_add]
  exact hbits

theorem lengthPart_takes {x : LenPart} (h : x.wf = true) : (lengthPart st).Takes st x.fields x := by
  cases x with
  | base => exact (readBit_takes st true).bind (.pure st _)
  | ext g => exact (readBit_takes st false).bind (gammaField_takes st (bne_iff_ne.mp h))
  | overflow => exact (readBit_takes st false).bind ((countZeros_takes_none st 32 0).bind (.pure st LenPart.overflow))

end

end Sys2Proof.Machine

/-! SUPPORT. Code words as the walk of R89 builds them, and the tokens: decode and encode agree (O8, O9). -/
namespace Sys2Proof

open Machine

/-! ## Code words, bit by bit (R62, R89) -/

theorem CodeWord.getLsbD_pre (w : CodeWord) {n k : Nat} (hk : k < 15) :
    (w.pre n).getLsbD k = (decide (15 - n ≤ k) && w.bits.getLsbD k) := by
  by_cases h : 15 - n ≤ k
  · simp [CodeWord.pre, hk, h]
  · simp [CodeWord.pre, h]

/-- The bits below a word's own are 0 exactly when its first `len` bits are all of it. -/
theorem CodeWord.pre_len_eq_bits (w : CodeWord) : w.pre w.len = w.bits ↔ w.bits <<< w.len = 0 := by
  constructor
  · intro h
    rw [← h, CodeWord.pre, ← BitVec.shiftLeft_add]
    exact BitVec.shiftLeft_eq_zero (by omega)
  · intro h
    refine BitVec.eq_of_getLsbD_eq fun k hk => ?_
    rw [CodeWord.getLsbD_pre w hk]
    by_cases hlow : 15 - w.len ≤ k
    · simp [hlow]
    · have hzero : (w.bits <<< w.len).getLsbD (k + w.len) = false := by rw [h]; simp
      have hbit : w.bits.getLsbD k = false := by
        rw [BitVec.getLsbD_shiftLeft] at hzero
        simpa [show k + w.len < 15 by omega] using hzero
      simp [hbit]

theorem CodeWord.wf_iff {w : CodeWord} : w.wf = true ↔ 1 ≤ w.len ∧ w.len ≤ 15 ∧ w.pre w.len = w.bits := by
  rw [CodeWord.pre_len_eq_bits]
  simp [CodeWord.wf, and_assoc]

/-- R89 passes by every shorter part of the word and stops at the word. -/
theorem CodeWord.readable_iff {lut : Lut} {w : CodeWord} : w.readable lut = true ↔
    (∀ n < 15, 1 ≤ n → n < w.len → (lut.get (w.pre n)).len.toNat ≠ n) ∧
    ((lut.get w.bits).len.toNat = w.len ∨ w.len = 15) := by
  simp only [CodeWord.readable, Bool.and_eq_true, List.all_eq_true, List.mem_range, Bool.not_eq_true',
    Bool.and_eq_false_imp, decide_eq_true_eq, beq_eq_false_iff_ne, Bool.or_eq_true, beq_iff_eq, and_imp]

/-- The word with one bit more, left-justified: what one turn of R89's loop makes of the bits read. -/
def CodeWord.snoc (w : CodeWord) (b : Bool) : CodeWord :=
  ⟨w.len + 1, w.bits ||| (BitVec.ofNat 15 b.toNat <<< (14 - w.len))⟩

theorem CodeWord.getLsbD_snoc {w : CodeWord} (b : Bool) {k : Nat} (hw : w.len < 15) (hk : k < 15) :
    (w.snoc b).bits.getLsbD k = (w.bits.getLsbD k || (decide (k = 14 - w.len) && b)) := by
  have hbit : (BitVec.ofNat 15 b.toNat <<< (14 - w.len)).getLsbD k = (decide (k = 14 - w.len) && b) := by
    cases b with
    | false => simp
    | true =>
      rw [BitVec.getLsbD_shiftLeft, Bool.eq_iff_iff]
      simp only [hk, decide_true, Bool.true_and, Bool.toNat_true, BitVec.getLsbD_one, Nat.ofNat_pos,
        Bool.and_eq_true, Bool.not_eq_eq_eq_not, Bool.not_true, decide_eq_false_iff_not, decide_eq_true_eq, Bool.and_true]
      omega
  rw [CodeWord.snoc, BitVec.getLsbD_or, hbit]

/-- A bit more leaves the first bits of a word as they are. -/
theorem CodeWord.pre_snoc {w : CodeWord} (b : Bool) {n : Nat} (hw : w.len < 15) (hn : n ≤ w.len) :
    (w.snoc b).pre n = w.pre n := by
  refine BitVec.eq_of_getLsbD_eq fun k hk => ?_
  rw [CodeWord.getLsbD_pre _ hk, CodeWord.getLsbD_pre _ hk, CodeWord.getLsbD_snoc b hw hk]
  by_cases h : 15 - n ≤ k
  · simp [show k ≠ 14 - w.len by omega]
  · simp [h]

/-- A left-justified word stays one with a bit more. -/
theorem CodeWord.pre_len_snoc {w : CodeWord} (b : Bool) (hw : w.len < 15) (h : w.pre w.len = w.bits) :
    (w.snoc b).pre (w.len + 1) = (w.snoc b).bits := by
  refine BitVec.eq_of_getLsbD_eq fun k hk => ?_
  have hlow := CodeWord.getLsbD_pre w (n := w.len) hk
  rw [h] at hlow
  rw [CodeWord.getLsbD_pre _ hk, CodeWord.getLsbD_snoc b hw hk, hlow]
  by_cases hle : 15 - (w.len + 1) ≤ k
  · rw [decide_eq_true hle, Bool.true_and]
  · simp [show ¬15 - w.len ≤ k by omega, show k ≠ 14 - w.len by omega]

/-- The first `n + 1` bits of a word are its first `n` and bit `14 - n`. -/
theorem CodeWord.snoc_pre (w : CodeWord) {n : Nat} (hn : n < 15) :
    CodeWord.snoc ⟨n, w.pre n⟩ (w.bits.getLsbD (14 - n)) = ⟨n + 1, w.pre (n + 1)⟩ := by
  have hbits : (CodeWord.snoc ⟨n, w.pre n⟩ (w.bits.getLsbD (14 - n))).bits = w.pre (n + 1) := by
    refine BitVec.eq_of_getLsbD_eq fun k hk => ?_
    rw [CodeWord.getLsbD_snoc _ hn hk, CodeWord.getLsbD_pre w hk, CodeWord.getLsbD_pre w hk]
    by_cases heq : k = 14 - n
    · subst heq
      simp
    · simp [heq, show 15 - n ≤ k ↔ 15 - (n + 1) ≤ k by omega]
  exact congrArg (CodeWord.mk (n + 1)) hbits

/-- One turn of R89's loop. -/
theorem walkCode_succ (st : Stream) (lut : Lut) (fuel : Nat) (w : CodeWord) :
    walkCode st lut (fuel + 1) w.len w.bits = readBit st >>= fun b =>
      if (lut.get (w.snoc b).bits).len.toNat = (w.snoc b).len then pure (w.snoc b)
      else walkCode st lut fuel (w.snoc b).len (w.snoc b).bits := rfl

/-- R89's loop takes a bit of the word at hand, then stops or goes on. -/
theorem walkCode_takes_bit (st : Stream) {lut : Lut} {w v : CodeWord} {n : Nat} {fs : List Field} (hn : n < 15)
    (h : Fetch.Takes st (if (lut.get (w.pre (n + 1))).len.toNat = n + 1 then pure ⟨n + 1, w.pre (n + 1)⟩
      else walkCode st lut (15 - (n + 1)) (n + 1) (w.pre (n + 1))) fs v) :
    (walkCode st lut (15 - n) n (w.pre n)).Takes st (.bit (w.bits.getLsbD (14 - n)) :: fs) v := by
  rw [show 15 - n = 15 - (n + 1) + 1 by omega, walkCode_succ st lut _ ⟨n, w.pre n⟩]
  refine (readBit_takes st _).bind ?_
  rw [CodeWord.snoc_pre w hn]
  exact h

/-- R89 from `n` bits of a word on, `k + 1` of its bits left. -/
theorem walkCode_takes (st : Stream) {lut : Lut} {w : CodeWord} (hw : w.wf = true) (hr : w.readable lut = true)
    {n k : Nat} (hn : n + (k + 1) = w.len) :
    (walkCode st lut (15 - n) n (w.pre n)).Takes st (bitFields (k + 1) (w.bits.toNat >>> (15 - w.len))) w := by
  obtain ⟨-, hlen, hbits⟩ := CodeWord.wf_iff.mp hw
  obtain ⟨hpass, hstop⟩ := CodeWord.readable_iff.mp hr
  have hbit : (w.bits.toNat >>> (15 - w.len)).testBit k = w.bits.getLsbD (14 - n) := by
    rw [Nat.testBit_shiftRight, show 15 - w.len + k = 14 - n by omega]
    rfl
  rw [bitFields, hbit]
  refine walkCode_takes_bit st (by omega) ?_
  cases k with
  | zero =>
    rw [show n + 1 = w.len from hn, hbits]
    by_cases hentry : (lut.get w.bits).len.toNat = w.len
    · rw [if_pos hentry]
      exact .pure st w
    · have hfull : w.len = 15 := hstop.resolve_left hentry
      rw [if_neg hentry, show 15 - w.len = 0 by omega]
      exact .pure st w
  | succ k =>
    rw [if_neg (hpass (n + 1) (by omega) (by omega) (by omega))]
    exact walkCode_takes st hw hr (by omega)
termination_by k

theorem readCodeWord_takes (st : Stream) {lut : Lut} {w : CodeWord} (hw : w.wf = true) (hr : w.readable lut = true) :
    (readCodeWord st lut).Takes st w.fields w := by
  obtain ⟨hpos, -, -⟩ := CodeWord.wf_iff.mp hw
  have hzero : w.pre 0 = 0 := BitVec.shiftLeft_eq_zero (le_refl 15)
  have hwalk := walkCode_takes st hw hr (n := 0) (k := w.len - 1) (by omega)
  rw [hzero, Nat.sub_add_cancel hpos] at hwalk
  exact hwalk

/-! ## The forms of a match -/

/-- The offset width that a form of the explicit offset belongs to (R100, R115 to R117). -/
def ExplicitOffset.mode : ExplicitOffset → OffsetMode
  | .b8 _ => .oneByte
  | .short _ => .twoByte
  | .long _ => .twoByte

/-- The fields of an explicit offset (R59). -/
def ExplicitOffset.fields (par : Params) : ExplicitOffset → List Field
  | .b8 o => [.raw o]
  | .short o => [.bit par.shortBit, .raw o]
  | .long o => [.bit (!par.shortBit), .raw (o.extractLsb' 0 8), .raw (o.extractLsb' 8 8)]

/-- The fields from an explicit offset on: the offset, its re-seed point, the length part. -/
def explicitFields (par : Params) (o : ExplicitOffset) (x : LenPart) : List Field :=
  o.fields par ++ (reseedFields par.reseedAfterOffset ++ x.fields)

theorem ExplicitOffset.fields_plain (par : Params) (o : ExplicitOffset) (x : LenPart) :
    (o.plain x).fields par = .bit false :: explicitFields par o x := by
  cases o <;> rfl

theorem ExplicitOffset.fields_branched (par : Params) (o : ExplicitOffset) (x : LenPart) :
    (o.branched x).fields par = .bit false :: .bit (!par.ctxBit) :: explicitFields par o x := by
  cases o <;> rfl

theorem ExplicitOffset.selected_plain (par : Params) (c : Latched) (o : ExplicitOffset) (x : LenPart) :
    (o.plain x).selected par c = true ↔ c.useCtx = false ∧ c.offsetMode = o.mode := by
  cases o <;> simp [ExplicitOffset.plain, Instr.selected, ExplicitOffset.mode]

theorem ExplicitOffset.selected_branched (par : Params) (c : Latched) (o : ExplicitOffset) (x : LenPart) :
    (o.branched x).selected par c = true ↔ c.useCtx = true ∧ c.twoLayer par = true ∧ c.offsetMode = o.mode := by
  cases o <;> simp [ExplicitOffset.branched, Instr.selected, ExplicitOffset.mode, and_assoc]

/-! ## Tokens -/

section
variable {par : Params} {c : Latched} (st : Stream)

theorem offsetBytes_takes {o : ExplicitOffset} (h : c.offsetMode = o.mode) :
    (offsetBytes par c st).Takes st (o.fields par) o := by
  unfold offsetBytes
  cases o with
  | b8 o =>
    rw [h]
    exact (readByte_takes st .raw o).map ExplicitOffset.b8
  | short o =>
    rw [h]
    refine (readBit_takes st par.shortBit).bind ?_
    rw [if_pos rfl]
    exact (readByte_takes st .raw o).map ExplicitOffset.short
  | long o =>
    rw [h]
    refine (readBit_takes st (!par.shortBit)).bind ?_
    rw [if_neg (by simp)]
    have hhi := (readByte_takes st .raw (o.extractLsb' 8 8)).map fun hi => ExplicitOffset.long (hi ++ o.extractLsb' 0 8)
    rw [show o.extractLsb' 8 8 ++ o.extractLsb' 0 8 = o from BitVec.extractLsb'_append_extractLsb'] at hhi
    exact (readByte_takes st .raw (o.extractLsb' 0 8)).bind hhi

/-- The rest of a match from its explicit offset on. -/
theorem explicitMatch_takes {o : ExplicitOffset} {x : LenPart} (h : c.offsetMode = o.mode) (hx : x.wf = true)
    (k : ExplicitOffset → LenPart → Instr) :
    Fetch.Takes st (do let o ← explicitOffset par c st; let x ← lengthPart st; pure (k o x))
      (explicitFields par o x) (k o x) := by
  have hoffset : (explicitOffset par c st).Takes st (o.fields par ++ reseedFields par.reseedAfterOffset) o :=
    (offsetBytes_takes st h).bind ((reseedIf_takes st _).map fun _ => o)
  rw [explicitFields, ← List.append_assoc]
  exact hoffset.bind ((lengthPart_takes st hx).map (k o))

/-- The rest of a contextual match. -/
theorem decodeCtx_takes {x : LenPart} (hx : x.wf = true) (two : Bool) (sel : BitVec 3) :
    (decodeCtx two st).Takes st (bitFields 3 sel.toNat ++ x.fields)
      (if two then .matchCtx sel x else .matchCtxSingle sel x) :=
  (readSelector_takes st sel).bind
    ((lengthPart_takes st hx).map fun x => if two then Instr.matchCtx sel x else .matchCtxSingle sel x)

/-- A match after its flag `T = 0`. -/
theorem decodeToken_takes_match {lut : Lut} {fs : List Field} {i : Instr} (h : (decodeMatch par c st).Takes st fs i) :
    (decodeToken par c lut st).Takes st (.bit false :: fs) i := (readBit_takes st false).bind h

theorem plain_takes {lut : Lut} {o : ExplicitOffset} {x : LenPart} (hs : (o.plain x).selected par c = true)
    (hx : x.wf = true) : (decodeToken par c lut st).Takes st ((o.plain x).fields par) (o.plain x) := by
  obtain ⟨hctx, hmode⟩ := (ExplicitOffset.selected_plain par c o x).mp hs
  rw [ExplicitOffset.fields_plain]
  refine decodeToken_takes_match st ?_
  rw [decodeMatch, if_neg (by simp [hctx])]
  exact explicitMatch_takes st hmode hx ExplicitOffset.plain

theorem branched_takes {lut : Lut} {o : ExplicitOffset} {x : LenPart} (hs : (o.branched x).selected par c = true)
    (hx : x.wf = true) : (decodeToken par c lut st).Takes st ((o.branched x).fields par) (o.branched x) := by
  obtain ⟨hctx, htwo, hmode⟩ := (ExplicitOffset.selected_branched par c o x).mp hs
  rw [ExplicitOffset.fields_branched]
  refine decodeToken_takes_match st ?_
  rw [decodeMatch, if_pos hctx, if_pos htwo]
  refine (readBit_takes st (!par.ctxBit)).bind ?_
  rw [if_neg (by simp)]
  exact explicitMatch_takes st hmode hx ExplicitOffset.branched

theorem codeLiteral_takes {lut : Lut} {w : CodeWord} (hcode : c.useCode = true) (hw : w.wf = true)
    (hr : w.readable lut = true) :
    (decodeToken par c lut st).Takes st (.bit true :: w.fields) (if c.useRank then .litRank w else .litCode w) := by
  refine (readBit_takes st true).bind ?_
  rw [if_pos rfl, decodeLiteral, if_pos hcode]
  exact (readCodeWord_takes st hw hr).map fun w => if c.useRank then Instr.litRank w else .litCode w

theorem rawLiteral_takes {lut : Lut} (hcode : c.useCode = false) (v : Byte) :
    (decodeToken par c lut st).Takes st ((Instr.litRaw v).fields par) (.litRaw v) := by
  refine (readBit_takes st true).bind ?_
  rw [if_pos rfl, decodeLiteral, if_neg (by simp [hcode])]
  exact (readByte_takes st .raw v).bind ((reseedIf_takes st _).map fun _ => Instr.litRaw v)

/-- The decoder takes the fields of every token of the variant. -/
theorem decodeToken_takes {lut : Lut} {i : Instr} (hw : i.wf = true) (hs : i.selected par c = true)
    (hr : i.readable lut = true) : (decodeToken par c lut st).Takes st (i.fields par) i := by
  cases i with
  | litRaw v => exact rawLiteral_takes st (by simpa [Instr.selected] using hs) v
  | litCode w =>
    obtain ⟨hcode, hrank⟩ : c.useCode = true ∧ c.useRank = false := by simpa [Instr.selected] using hs
    have h := codeLiteral_takes (par := par) st hcode hw hr
    rw [if_neg (by simp [hrank])] at h
    exact h
  | litRank w =>
    obtain ⟨hcode, hrank⟩ : c.useCode = true ∧ c.useRank = true := by simpa [Instr.selected] using hs
    have h := codeLiteral_takes (par := par) st hcode hw hr
    rw [if_pos hrank] at h
    exact h
  | matchB8 o x => exact plain_takes st (o := .b8 o) hs hw
  | matchS o x => exact plain_takes st (o := .short o) hs hw
  | matchL o x => exact plain_takes st (o := .long o) hs hw
  | matchXB8 o x => exact branched_takes st (o := .b8 o) hs hw
  | matchXS o x => exact branched_takes st (o := .short o) hs hw
  | matchXL o x => exact branched_takes st (o := .long o) hs hw
  | matchCtx sel x =>
    obtain ⟨hctx, htwo⟩ : c.useCtx = true ∧ c.twoLayer par = true := by simpa [Instr.selected] using hs
    refine decodeToken_takes_match st ?_
    rw [decodeMatch, if_pos hctx, if_pos htwo]
    refine (readBit_takes st par.ctxBit).bind ?_
    rw [if_pos rfl]
    exact decodeCtx_takes st hw true sel
  | matchCtxSingle sel x =>
    obtain ⟨hctx, htwo⟩ : c.useCtx = true ∧ c.twoLayer par = false := by simpa [Instr.selected] using hs
    refine decodeToken_takes_match st ?_
    rw [decodeMatch, if_pos hctx, if_neg (by simp [htwo])]
    exact decodeCtx_takes st hw false sel
  | cmdStart | cmdClear | cmdNop => cases hs

end

/-- Settles O8: the decoder takes the token's fields and stops before the rest. -/
theorem decodeReadsBackTheEncodedFields : Obligations.DecodeReadsBackTheEncodedFields := by
  intro par c lut st r i rest hw hs hr hat
  obtain ⟨r', hdecode, hrest⟩ := decodeToken_takes st hw hs hr r rest _ hat.before
  exact ⟨r', hdecode, hrest.atFields⟩

theorem encode_eq_stream {par : Params} {i : Instr} {bs : List Byte} (h : encode par i = .stream bs) :
    bs = layOut par.refill 0 (i.fields par) := by
  unfold encode at h
  split at h
  · cases h
  · injection h with h
    exact h.symm

/-- Settles O9: with an empty buffer the fields stand next as their bytes, and the reader stops where these end. -/
theorem decodeReadsBackTheEncodedBytes : Obligations.DecodeReadsBackTheEncodedBytes := by
  intro par c lut st r i bs hw hs hr henc hrefill hcnt hbuf hlen hbytes
  have hlay : layOut st.refill r.cnt.toNat (i.fields par ++ []) = bs := by
    rw [List.append_nil, hrefill, hcnt, encode_eq_stream henc]
    rfl
  have hbefore : r.Before st (i.fields par ++ []) (r.ip.toNat + bs.length) := by
    refine ⟨by simp [hcnt], ?_, ?_, ?_⟩
    · rw [hcnt, hbuf]
      simp [nextBits, packBits]
    · rw [hlay]
      exact ⟨hlen, hbytes⟩
    · rw [hlay]
  obtain ⟨r', hdecode, hrest⟩ := decodeToken_takes st hw hs hr r [] _ hbefore
  exact ⟨r', hdecode, hrest.ip_of_nil⟩

end Sys2Proof

/-! SUPPORT. What the decoder can answer: only tokens of the variant (O13), and only the causes of a TruncatedStream
(O14). -/
namespace Sys2Proof.Machine

/-! ## The causes that a token raises (R68, R71, R72, R74) -/

/-- Every cause that the read raises meets `P`. -/
def Fetch.Raises {α : Type} (P : Cause → Prop) (f : Fetch α) : Prop := ∀ r e r', f r = .error e r' → P e

theorem Fetch.Raises.pure {α : Type} {P : Cause → Prop} (a : α) : Fetch.Raises P (pure a) := nofun

theorem Fetch.Raises.bind {α β : Type} {P : Cause → Prop} {f : Fetch α} {g : α → Fetch β} (hf : f.Raises P)
    (hg : ∀ a, (g a).Raises P) : (f >>= g).Raises P := by
  intro r e r' h
  rcases Fetch.bind_error h with h | ⟨a, q, -, h⟩
  · exact hf r e r' h
  · exact hg a q e r' h

theorem Fetch.Raises.ite {α : Type} {P : Cause → Prop} {p : Prop} [Decidable p] {f g : Fetch α} (hf : f.Raises P)
    (hg : g.Raises P) : (if p then f else g).Raises P := by
  split
  · exact hf
  · exact hg

section
variable {P : Cause → Prop} (st : Stream)

theorem readByte_raises {c : Cause} (hc : P c) : (readByte st c).Raises P := by
  intro r e r' h
  rcases readByte_cases st c r with ⟨-, e⟩ | ⟨-, e⟩ <;> rw [e] at h <;> cases h
  exact hc

theorem readBit_raises (hrefill : P .refill) : (readBit st).Raises P := by
  intro r e r' h
  rcases readBit_cases st r with ⟨-, e⟩ | ⟨-, -, e⟩ | ⟨-, -, e⟩ <;> rw [e] at h <;> cases h
  exact hrefill

theorem reseedIf_raises {p : Bool} (hreseed : p = true → P .reseed) : (reseedIf p st).Raises P := by
  cases p with
  | false => exact .pure ()
  | true =>
    intro r e r' h
    rcases reseed_cases st r with ⟨-, e⟩ | ⟨-, e⟩ <;> simp only [reseedIf, if_true, e] at h <;> cases h
    exact hreseed rfl

theorem readBitsOnto_raises (hrefill : P .refill) (n v : Nat) : (readBitsOnto st n v).Raises P := by
  induction n generalizing v with
  | zero => exact .pure v
  | succ n ih => exact (readBit_raises st hrefill).bind fun b => ih _

theorem countZeros_raises (hrefill : P .refill) (n z : Nat) : (countZeros st n z).Raises P := by
  induction n generalizing z with
  | zero => exact .pure none
  | succ n ih => exact (readBit_raises st hrefill).bind fun b => .ite (.pure (some z)) (ih (z + 1))

theorem walkCode_raises (hrefill : P .refill) (lut : Lut) (fuel n : Nat) (acc : BitVec 15) :
    (walkCode st lut fuel n acc).Raises P := by
  induction fuel generalizing n acc with
  | zero => exact .pure _
  | succ fuel ih => exact (readBit_raises st hrefill).bind fun b => .ite (.pure _) (ih _ _)

theorem gammaField_raises (hrefill : P .refill) : (gammaField st).Raises P := by
  refine (countZeros_raises st hrefill 32 0).bind fun z => ?_
  cases z with
  | none => exact .pure _
  | some z => exact (readBitsOnto_raises st hrefill z 1).bind fun v => .pure _

theorem lengthPart_raises (hrefill : P .refill) : (lengthPart st).Raises P :=
  (readBit_raises st hrefill).bind fun _ => .ite (.pure _) (gammaField_raises st hrefill)

theorem offsetBytes_raises (hrefill : P .refill) (hraw : P .raw) (par : Params) (c : Latched) :
    (offsetBytes par c st).Raises P := by
  unfold offsetBytes
  cases c.offsetMode with
  | oneByte => exact (readByte_raises st hraw).bind fun o => .pure _
  | twoByte =>
    refine (readBit_raises st hrefill).bind fun f => .ite ?_ ?_
    · exact (readByte_raises st hraw).bind fun o => .pure _
    · exact (readByte_raises st hraw).bind fun lo => (readByte_raises st hraw).bind fun hi => .pure _

end

/-- A cause that a token may be cut off with (R68, R75): RESEED only at an extra re-seed point. -/
def CutOff (par : Params) (e : Cause) : Prop :=
  e = .raw ∨ e = .refill ∨ (e = .reseed ∧ (par.reseedAfterOffset = true ∨ par.reseedAfterLiteral = true))

section
variable (par : Params) (c : Latched) (st : Stream)

theorem decodeLiteral_raises (lut : Lut) : (decodeLiteral par c lut st).Raises (CutOff par) :=
  .ite ((walkCode_raises st (.inr (.inl rfl)) lut 15 0 0).bind fun _ => .pure _)
    ((readByte_raises st (.inl rfl)).bind fun _ =>
      (reseedIf_raises st fun h => .inr (.inr ⟨rfl, .inr h⟩)).bind fun _ => .pure _)

theorem explicitMatch_raises (k : ExplicitOffset → LenPart → Instr) :
    Fetch.Raises (CutOff par) (do let o ← explicitOffset par c st; let x ← lengthPart st; pure (k o x)) := by
  have hoffset : (explicitOffset par c st).Raises (CutOff par) :=
    (offsetBytes_raises st (.inr (.inl rfl)) (.inl rfl) par c).bind fun o =>
      (reseedIf_raises st fun h => .inr (.inr ⟨rfl, .inl h⟩)).bind fun _ => .pure o
  exact hoffset.bind fun o => (lengthPart_raises st (.inr (.inl rfl))).bind fun x => .pure _

theorem decodeCtx_raises (two : Bool) : (decodeCtx two st).Raises (CutOff par) := by
  have hselector : (readSelector st).Raises (CutOff par) :=
    (readBitsOnto_raises st (.inr (.inl rfl)) 3 0).bind fun _ => .pure _
  exact hselector.bind fun sel => (lengthPart_raises st (.inr (.inl rfl))).bind fun x => .pure _

theorem decodeMatch_raises : (decodeMatch par c st).Raises (CutOff par) :=
  .ite
    (.ite ((readBit_raises st (.inr (.inl rfl))).bind fun _ =>
        .ite (decodeCtx_raises par st true) (explicitMatch_raises par c st _))
      (decodeCtx_raises par st false))
    (explicitMatch_raises par c st _)

end

/-- Settles O14: bits raise REFILL, raw bytes RAW, re-seeds RESEED. -/
theorem decodeRaisesOnlyTruncation : Obligations.DecodeRaisesOnlyTruncation := by
  intro par c lut st r r' e h
  have htoken : (decodeToken par c lut st).Raises (CutOff par) :=
    (readBit_raises st (.inr (.inl rfl))).bind fun _ =>
      .ite (decodeLiteral_raises par c st lut) (decodeMatch_raises par c st)
  exact htoken r e r' h

/-! ## The tokens that the decoder gives (R66, R89) -/

/-- What the first part of a read gives may be used for what its last part gives. -/
theorem Fetch.Gives.bindOf {α β : Type} {Q : α → Prop} {P : β → Prop} {f : Fetch α} {g : α → Fetch β}
    (hf : f.Gives Q) (hg : ∀ a, Q a → (g a).Gives P) : (f >>= g).Gives P := by
  intro r b r' h
  obtain ⟨a, q, ha, hb⟩ := Fetch.bind_ok h
  exact hg a (hf r a q ha) q b r' hb

section
variable (st : Stream)

/-- `n` bits read onto `v` stay below `v + 1` shifted by `n`, and `v` shifted is their least value. -/
theorem readBitsOnto_gives (n v : Nat) : (readBitsOnto st n v).Gives fun x => v * 2 ^ n ≤ x ∧ x < (v + 1) * 2 ^ n := by
  induction n generalizing v with
  | zero => exact .pure (by omega)
  | succ n ih =>
    refine .bind fun b r x r' hx => ?_
    obtain ⟨hlow, hhigh⟩ := ih (2 * v + b.toNat) r x r' hx
    have hb : b.toNat ≤ 1 := b.toNat_le
    rw [pow_succ]
    constructor <;> nlinarith [Nat.two_pow_pos n]

/-- Fewer zeros than allowed stand before a stop bit. -/
theorem countZeros_gives (n z : Nat) : (countZeros st n z).Gives fun k => ∀ m ∈ k, m < z + n := by
  induction n generalizing z with
  | zero => exact .pure nofun
  | succ n ih =>
    refine .bind fun b => .ite (.pure fun m hm => ?_) ?_
    · rw [Option.mem_some_iff] at hm
      omega
    · rw [show z + (n + 1) = z + 1 + n by omega]
      exact ih (z + 1)

theorem gammaField_gives : (gammaField st).Gives (·.wf = true) := by
  refine .bindOf (countZeros_gives st 32 0) fun k hk => ?_
  cases k with
  | none => exact .pure rfl
  | some z =>
    refine .bindOf (readBitsOnto_gives st z 1) fun v hv => .pure ?_
    have hz : z ≤ 31 := by
      have := hk z rfl
      omega
    have hlt : v < 2 ^ 32 := hv.2.trans_le (by
      rw [← pow_succ']
      exact Nat.pow_le_pow_right (by omega) (by omega))
    have hpos : 0 < v := (Nat.two_pow_pos z).trans_le (by omega)
    refine bne_iff_ne.mpr fun h => ?_
    have := congrArg BitVec.toNat h
    rw [BitVec.toNat_ofNat, BitVec.toNat_allOnes] at this
    omega

theorem lengthPart_gives : (lengthPart st).Gives (·.wf = true) :=
  .bind fun _ => .ite (.pure rfl) (gammaField_gives st)

/-- R89 from a left-justified word on that it has passed by with all its parts. -/
theorem walkCode_gives {lut : Lut} {fuel : Nat} {w : CodeWord} (hfuel : w.len + fuel = 15)
    (hbits : w.pre w.len = w.bits) (hpass : ∀ n, 1 ≤ n → n ≤ w.len → (lut.get (w.pre n)).len.toNat ≠ n) :
    (walkCode st lut fuel w.len w.bits).Gives fun v => v.wf = true ∧ v.readable lut = true := by
  induction fuel generalizing w with
  | zero =>
    have hlen : w.len = 15 := hfuel
    exact .pure (a := w) ⟨CodeWord.wf_iff.mpr ⟨by omega, by omega, hbits⟩,
      CodeWord.readable_iff.mpr ⟨fun n _ h1 hn => hpass n h1 hn.le, .inr hlen⟩⟩
  | succ fuel ih =>
    rw [walkCode_succ]
    refine .bind fun b => ?_
    have hlt : w.len < 15 := by omega
    have hsnoc : (w.snoc b).pre (w.snoc b).len = (w.snoc b).bits := CodeWord.pre_len_snoc b hlt hbits
    have hparts : ∀ n, 1 ≤ n → n ≤ w.len → (lut.get ((w.snoc b).pre n)).len.toNat ≠ n := fun n h1 hn => by
      rw [CodeWord.pre_snoc b hlt hn]
      exact hpass n h1 hn
    have hnext : (w.snoc b).len = w.len + 1 := rfl
    split
    · rename_i hentry
      exact .pure ⟨CodeWord.wf_iff.mpr ⟨by omega, by omega, hsnoc⟩,
        CodeWord.readable_iff.mpr ⟨fun n _ h1 hn => hparts n h1 (by omega), .inl hentry⟩⟩
    · rename_i hentry
      refine ih (by omega) hsnoc fun n h1 hn => ?_
      rcases Nat.lt_or_eq_of_le hn with hn | rfl
      · exact hparts n h1 (by omega)
      · rw [hsnoc]
        exact hentry

theorem readCodeWord_gives (lut : Lut) : (readCodeWord st lut).Gives fun w => w.wf = true ∧ w.readable lut = true :=
  walkCode_gives st (w := ⟨0, 0⟩) rfl rfl fun _ h1 hn => absurd (h1.trans hn) (Nat.not_succ_le_zero 0)

end

/-- A token of the variant, its operands in range, its code word one at which R89 stops. -/
def Belongs (par : Params) (c : Latched) (lut : Lut) (i : Instr) : Prop :=
  i.selected par c = true ∧ i.wf = true ∧ i.readable lut = true

section
variable {par : Params} {c : Latched} {lut : Lut} (st : Stream)

theorem belongs_plain {o : ExplicitOffset} {x : LenPart} (hctx : c.useCtx = false) (ho : c.offsetMode = o.mode)
    (hx : x.wf = true) : Belongs par c lut (o.plain x) :=
  ⟨(ExplicitOffset.selected_plain par c o x).mpr ⟨hctx, ho⟩, by cases o <;> exact hx, by cases o <;> rfl⟩

theorem belongs_branched {o : ExplicitOffset} {x : LenPart} (hctx : c.useCtx = true) (htwo : c.twoLayer par = true)
    (ho : c.offsetMode = o.mode) (hx : x.wf = true) : Belongs par c lut (o.branched x) :=
  ⟨(ExplicitOffset.selected_branched par c o x).mpr ⟨hctx, htwo, ho⟩, by cases o <;> exact hx, by cases o <;> rfl⟩

/-- The offset's form is one of the configuration's width. -/
theorem explicitOffset_gives : (explicitOffset par c st).Gives (c.offsetMode = ·.mode) := by
  have hbytes : (offsetBytes par c st).Gives (c.offsetMode = ·.mode) := by
    unfold offsetBytes
    cases c.offsetMode with
    | oneByte => exact .bind fun _ => .pure rfl
    | twoByte => exact .bind fun _ => .ite (.bind fun _ => .pure rfl) (.bind fun _ => .bind fun _ => .pure rfl)
  exact .bindOf hbytes fun o ho => .bind fun _ => .pure ho

theorem explicitMatch_gives {k : ExplicitOffset → LenPart → Instr}
    (hk : ∀ o x, c.offsetMode = o.mode → x.wf = true → Belongs par c lut (k o x)) :
    Fetch.Gives (Belongs par c lut) (do let o ← explicitOffset par c st; let x ← lengthPart st; pure (k o x)) :=
  .bindOf (explicitOffset_gives st) fun o ho => .bindOf (lengthPart_gives st) fun x hx => .pure (hk o x ho hx)

theorem decodeCtx_gives (hctx : c.useCtx = true) : (decodeCtx (c.twoLayer par) st).Gives (Belongs par c lut) := by
  refine .bind fun sel => .bindOf (lengthPart_gives st) fun x hx => .pure ?_
  cases htwo : c.twoLayer par with
  | false => exact ⟨by simp [Instr.selected, hctx, htwo], hx, rfl⟩
  | true => exact ⟨by simp [Instr.selected, hctx, htwo], hx, rfl⟩

theorem decodeLiteral_gives : (decodeLiteral par c lut st).Gives (Belongs par c lut) := by
  unfold decodeLiteral
  cases hcode : c.useCode with
  | true =>
    refine .bindOf (readCodeWord_gives st lut) fun w ⟨hw, hr⟩ => .pure ?_
    cases hrank : c.useRank with
    | false => exact ⟨by simp [Instr.selected, hcode, hrank], hw, hr⟩
    | true => exact ⟨by simp [Instr.selected, hcode, hrank], hw, hr⟩
  | false => exact .bind fun v => .bind fun _ => .pure ⟨by simp [Instr.selected, hcode], rfl, rfl⟩

theorem decodeMatch_gives : (decodeMatch par c st).Gives (Belongs par c lut) := by
  unfold decodeMatch
  cases hctx : c.useCtx with
  | false => exact explicitMatch_gives st fun o x ho hx => belongs_plain hctx ho hx
  | true =>
    have hsel := decodeCtx_gives (par := par) (lut := lut) st hctx
    cases htwo : c.twoLayer par with
    | false =>
      rw [htwo] at hsel
      exact hsel
    | true =>
      rw [htwo] at hsel
      exact .bind fun k => .ite hsel (explicitMatch_gives st fun o x ho hx => belongs_branched hctx htwo ho hx)

end

/-- Settles O13: literal and match, each from what its parts give. -/
theorem decodedTokensBelongToTheVariant : Obligations.DecodedTokensBelongToTheVariant := by
  intro par c lut st r r' i h
  have htoken : (decodeToken par c lut st).Gives (Belongs par c lut) :=
    .bind fun _ => .ite (decodeLiteral_gives st) (decodeMatch_gives st)
  exact htoken r i r' h

end Sys2Proof.Machine

/-! SUPPORT. The bit reader's reads where a byte is left and where none is (O17, O18, O20), and the phases of the block that
end with a re-seed (O22) and with the skip of ALIGN (O46). -/
namespace Sys2Proof.Machine

/-! ## Raw bytes, bits and re-seeds (R71, R72, R74) -/

section
variable {st : Stream} {r : Reader}

theorem readByte_of_hasByte (hb : st.hasByte r) (c : Cause) :
    readByte st c r = .ok (st.byteAt r.ip.toNat) { r with ip := r.ip + 1 } := if_pos hb

theorem readByte_of_not_hasByte (hb : ¬st.hasByte r) (c : Cause) : readByte st c r = .error c r := if_neg hb

theorem reseed_of_hasByte (hb : st.hasByte r) : reseed st r = .ok () (loadBuf st r) := if_pos hb

theorem reseed_of_not_hasByte (hb : ¬st.hasByte r) : reseed st r = .error .reseed r := if_neg hb

theorem readBit_of_not_hasByte (hc : r.cnt = 0) (hb : ¬st.hasByte r) : readBit st r = .error .refill r := by
  rw [readBit, if_pos hc, if_neg hb]

/-- A bit of a buffer that holds one is its bit 7; the refill comes after the shift (R72). -/
theorem readBit_of_filled (hc : r.cnt ≠ 0) :
    readBit st r = .ok (r.buf.getLsbD 7) (eagerRefill st ⟨r.buf <<< 1, r.cnt - 1, r.ip⟩) := by
  rw [readBit, if_neg hc]
  simp only [takeBit, BitVec.msb_eq_getLsbD_last]

end

/-- Settles O17: the byte at `ip`, which moves without wrapping, or the cause. -/
theorem rawReadTakesTheByteAtIp : Obligations.RawReadTakesTheByteAtIp := fun _ c _ =>
  ⟨fun hb => ⟨_, readByte_of_hasByte hb c, Stream.hasByte_next hb, rfl, rfl⟩,
    fun hend => readByte_of_not_hasByte (Nat.not_lt.mpr hend) c⟩

/-- Settles O20: the fresh buffer of `loadBuf`, or the cause. -/
theorem reseedLoadsAFreshByte : Obligations.ReseedLoadsAFreshByte := fun _ _ =>
  ⟨fun hb => ⟨_, reseed_of_hasByte hb, rfl, rfl, Stream.hasByte_next hb⟩,
    fun hend => reseed_of_not_hasByte (Nat.not_lt.mpr hend)⟩

/-- Settles O18: an empty buffer by whether a byte is left, a filled one by whether the eager refill acts after the bit. -/
theorem readBitTakesTheTopBit : Obligations.ReadBitTakesTheTopBit := by
  intro st r
  refine ⟨fun hc hend => readBit_of_not_hasByte hc (Nat.not_lt.mpr hend), fun hc hb => readBit_of_empty hc hb, ?_, ?_⟩
  · intro hc hno
    have hlast : r.cnt - 1 = 0 → r.cnt = 1 := by bv_omega
    rw [readBit_of_filled hc, eagerRefill, if_neg fun ⟨he, h0, hb⟩ => hno ⟨he, hlast h0, hb⟩]
  · intro hc he hb
    have hne : r.cnt ≠ 0 := by bv_omega
    have hlast : r.cnt - 1 = 0 := by bv_omega
    rw [readBit_of_filled hne, eagerRefill, if_pos ⟨he, hlast, hb⟩]
    rfl

/-! ## The end of TABLE (R84, R104) -/

section
variable {s : State}

/-- A read that goes on hands its value to the rest of the step. -/
theorem State.fetch_of_ok {α : Type} {f : Fetch α} {a : α} {r : Reader} (h : f s.rd = .ok a r)
    (k : α → State → State) : s.fetch f k = k a (s.withReader r) := by
  simp only [State.fetch, h]

/-- A read that raises makes the step the failure entry (R131). -/
theorem State.fetch_of_error {α : Type} {f : Fetch α} {c : Cause} {r : Reader} (h : f s.rd = .error c r)
    (k : α → State → State) : s.fetch f k = (s.withReader r).raise c := by
  simp only [State.fetch, h]

theorem State.blockStep_of_table (hp : s.phase = .table) : s.blockStep = .next s.tableStep := by
  simp only [State.blockStep, hp]

theorem State.blockStep_of_align (hp : s.phase = .align) : s.blockStep = .next s.alignStep := by
  simp only [State.blockStep, hp]

/-- After the last length byte the table's step is a re-seed (R84). -/
theorem State.tableStep_of_le (htix : 128 ≤ s.tix) :
    s.tableStep = s.fetch (reseed s.stream) fun _ t => { t with phase := .build, tix := 0 } :=
  if_neg (Nat.not_lt.mpr htix)

end

/-- Settles O22: the step is the re-seed, which loads the byte at `ip` or raises RESEED with nothing moved. -/
theorem tableEndsWithAReseed : Obligations.TableEndsWithAReseed := by
  intro s hp htix
  rw [State.blockStep_of_table hp, State.tableStep_of_le htix]
  constructor
  · intro hb
    rw [State.fetch_of_ok (reseed_of_hasByte hb)]
    exact ⟨_, rfl, rfl, rfl, rfl, Stream.hasByte_next (st := s.stream) hb, rfl⟩
  · intro hend
    rw [State.fetch_of_error (reseed_of_not_hasByte (Nat.not_lt.mpr hend))]
    exact ⟨_, rfl, s.raise_failureResult .reseed⟩

/-! ## The skip of ALIGN (R76) -/

/-- Up to 2^32 the rounded cursor fits the 33 bits of `ip` (R17). -/
theorem align4_ip_toNat {r : Reader} (h : r.ip.toNat ≤ 2 ^ 32) : (align4 r).ip.toNat = roundup4 r.ip.toNat := by
  obtain ⟨-, -, hlt⟩ := roundup4_spec r.ip.toNat
  exact (BitVec.toNat_ofNat _ 33).trans (Nat.mod_eq_of_lt (by omega))

/-- Settles O46: the step is `align4` on the reader and the phase of the variant. -/
theorem alignRoundsTheCursorUp : Obligations.AlignRoundsTheCursorUp := by
  intro s hp hle
  have hip : s.alignStep.rd.ip.toNat = roundup4 s.rd.ip.toNat := align4_ip_toNat hle
  obtain ⟨hmod, hge, hlt⟩ := roundup4_spec s.rd.ip.toNat
  rw [← hip] at hmod hge hlt
  exact ⟨_, State.blockStep_of_align hp, hmod, hge, hlt, rfl⟩

end Sys2Proof.Machine

/-! SUPPORT. The failures of a match (O36): the cause that each of its checks raises, and the failure entry that follows. -/
namespace Sys2Proof.Machine

section
variable {s : State} {i : Instr} {m : MatchOffset} {x : LenPart}

/-! ## The causes of the checks, in their order (R119) -/

theorem checkMatch_of_zero (n : Nat) : checkMatch s 0 n = some .offsetZero := if_pos rfl

theorem checkMatch_of_cur_lt {offset : Nat} (h0 : offset ≠ 0) (hlt : s.cur.toNat < offset) (n : Nat) :
    checkMatch s offset n = some .offsetBeforeStart := by
  rw [checkMatch, if_neg h0, if_pos hlt]

theorem checkMatch_of_overrun {offset n : Nat} (h0 : offset ≠ 0) (hle : offset ≤ s.cur.toNat)
    (hover : s.cfg.outLen.toNat - s.cur.toNat < n) : checkMatch s offset n = some .lengthOverrun := by
  rw [checkMatch, if_neg h0, if_neg (Nat.not_lt.mpr hle), if_pos hover]

/-! ## The failures of a match -/

/-- The invalid gamma field fails before any check is made (R81). -/
theorem State.runMatch_of_overflow (s : State) (m : MatchOffset) : s.runMatch m .overflow = s.raise .gammaOverflow := rfl

/-- A check that does not pass makes the match its failure entry, nothing copied (R119, R131). -/
theorem State.runMatch_of_checkMatch {n : Nat} {c : Cause} (hn : LengthIs m.base x n)
    (hc : checkMatch s m.offset n = some c) : s.runMatch m x = s.raise c := by
  simp only [State.runMatch, matchLength_eq_some.mpr hn, hc]

/-- A match token whose common part raises leaves the failure entry's state. -/
theorem exec_match_failureResult {c : Cause} (hi : matchOperands s i = some (m, x)) (hrun : s.runMatch m x = s.raise c) :
    ∃ t, exec i s = .next t ∧ FailureResult s t c :=
  ⟨_, hrun ▸ exec_match hi, s.raise_failureResult c⟩

end

/-- Settles O36: the invalid gamma field has no length to check; with a length, each premise picks the first check that
does not pass. -/
theorem matchChecksRunInOrder : Obligations.MatchChecksRunInOrder := by
  intro s i m x hi
  constructor
  · rintro rfl
    exact exec_match_failureResult hi (s.runMatch_of_overflow m)
  · intro n hn
    have fails {c : Cause} (hc : checkMatch s m.offset n = some c) : ∃ t, exec i s = .next t ∧ FailureResult s t c :=
      exec_match_failureResult hi (State.runMatch_of_checkMatch hn hc)
    refine ⟨fun hzero => ?_, fun h0 hlt => ?_, fun h0 hle hover => ?_⟩
    · exact fails (hzero ▸ checkMatch_of_zero n)
    · exact fails (checkMatch_of_cur_lt h0 hlt n)
    · exact fails (checkMatch_of_overrun h0 hle hover)

end Sys2Proof.Machine

/-! SUPPORT. The code table (O21, O23, O24): a length byte and its two entries of LEN, and one symbol of each code build. -/
namespace Sys2Proof.Machine

/-! ## Entries of LEN and LUT (R21, R22) -/

/-- An entry of LEN after an update. -/
theorem State.len_setLen (s : State) (k : Nat) (v : BitVec 4) (j : Nat) :
    (s.setLen k v).len j = if j = k then v else s.len j :=
  Sparse.get_set s.lens k j v

/-- An entry of LUT after an update. -/
theorem Lut.get_set (lut : Lut) (i j : BitVec 15) (e : LutEntry) :
    (lut.set i e).get j = if j = i then e else lut.get j := by
  rw [Lut.get, Lut.set, Sparse.get_set]
  simp only [BitVec.toNat_inj, Lut.get]

theorem leaf_eq_shiftLeft (w L : Nat) : leaf w L = BitVec.ofNat 15 (w <<< (15 - L)) := by
  rw [leaf, Nat.shiftLeft_eq]

/-- The leaf of a word that fits its length fits the 15 bits of the index (R86). -/
theorem leaf_toNat {w L : Nat} (hL : L ≤ 15) (hw : w < 2 ^ L) : (leaf w L).toNat = w <<< (15 - L) := by
  have hlt : w <<< (15 - L) < 2 ^ 15 := by
    calc w <<< (15 - L) = w * 2 ^ (15 - L) := Nat.shiftLeft_eq _ _
      _ < 2 ^ L * 2 ^ (15 - L) := Nat.mul_lt_mul_of_pos_right hw (Nat.two_pow_pos _)
      _ = 2 ^ 15 := by rw [← pow_add, Nat.add_sub_cancel' hL]
  rw [leaf_eq_shiftLeft, BitVec.toNat_ofNat, Nat.mod_eq_of_lt hlt]

section
variable {s : State}

/-! ## The length bytes (R84, R85) -/

/-- The state after a length byte: its two entries of LEN, and the loop one further. -/
def State.withLengths (s : State) (x y : BitVec 4) : State :=
  { (s.setLen (2 * s.tix) x).setLen (2 * s.tix + 1) y with tix := s.tix + 1 }

theorem State.len_withLengths (s : State) (x y : BitVec 4) (k : Nat) :
    (s.withLengths x y).len k = if k = 2 * s.tix + 1 then y else if k = 2 * s.tix then x else s.len k := by
  change ((s.setLen (2 * s.tix) x).setLen (2 * s.tix + 1) y).len k = _
  rw [State.len_setLen, State.len_setLen]

/-- Before its end the table's step reads a byte and unpacks it into LEN (R84, R85). -/
theorem State.tableStep_of_lt (htix : s.tix < 128) :
    s.tableStep = s.fetch (readByte s.stream .table) fun b t =>
      t.withLengths (unpack t.par.nibble b).1 (unpack t.par.nibble b).2 :=
  if_pos htix

/-! ## The explicit build (R87) -/

theorem State.blockStep_of_explicit (hp : s.phase = .build) (hc : s.par.codes = .explicit) :
    s.blockStep = .next s.explicitStep := by
  simp only [State.blockStep, State.buildStep, hp, hc]

/-- A symbol without a length is passed over. -/
theorem State.explicitStep_of_noLength (htix : s.tix < 256) (h0 : s.len s.tix = 0) :
    s.explicitStep = { s with tix := s.tix + 1 } := by
  rw [State.explicitStep, if_pos htix, if_pos h0]

/-- A symbol with a length reads its code word and stores its leaf. -/
theorem State.explicitStep_of_length (htix : s.tix < 256) (h0 : s.len s.tix ≠ 0) :
    s.explicitStep = s.fetch (readBits s.stream (s.len s.tix).toNat) fun w t =>
      { t.setLeaf w (t.len t.tix).toNat t.tix with tix := t.tix + 1 } := by
  rw [State.explicitStep, if_pos htix, if_neg h0]

theorem State.explicitStep_of_le (htix : 256 ≤ s.tix) : s.explicitStep = s.goto .token :=
  if_neg (Nat.not_lt.mpr htix)

/-! ## The canonical build (R88) -/

theorem State.blockStep_of_canonical (hp : s.phase = .build) (hc : s.par.codes = .canonical) :
    s.blockStep = .next s.canonicalStep := by
  simp only [State.blockStep, State.buildStep, hp, hc]

/-- A symbol of another length than the one at hand is passed over. -/
theorem State.canonicalStep_of_otherLength (htix : s.tix < 15 * 256)
    (hne : (s.len (s.tix % 256)).toNat ≠ s.tix / 256 + 1) :
    s.canonicalStep = { s with tix := s.tix + 1, code := nextCode s.tix s.code } := by
  rw [State.canonicalStep, if_pos htix, if_neg hne]

/-- A code that its length cannot hold is a failure. -/
theorem State.canonicalStep_of_tooLong (htix : s.tix < 15 * 256)
    (hlen : (s.len (s.tix % 256)).toNat = s.tix / 256 + 1) (hcode : 2 ^ (s.tix / 256 + 1) ≤ s.code) :
    s.canonicalStep = s.raise .kraft := by
  rw [State.canonicalStep, if_pos htix, if_pos hlen, if_pos hcode]

/-- A symbol of the length at hand takes the next code. -/
theorem State.canonicalStep_of_code (htix : s.tix < 15 * 256)
    (hlen : (s.len (s.tix % 256)).toNat = s.tix / 256 + 1) (hcode : s.code < 2 ^ (s.tix / 256 + 1)) :
    s.canonicalStep = { s.setLeaf s.code (s.tix / 256 + 1) (s.tix % 256) with
      tix := s.tix + 1, code := nextCode s.tix (s.code + 1) } := by
  rw [State.canonicalStep, if_pos htix, if_pos hlen, if_neg (Nat.not_le.mpr hcode)]

theorem State.canonicalStep_of_le (htix : 15 * 256 ≤ s.tix) : s.canonicalStep = s.goto .token :=
  if_neg (Nat.not_lt.mpr htix)

end

/-- Settles O21: the step is a raw read, whose byte `unpack` splits in the order of `P_NIBBLE`. -/
theorem lengthByteFillsTwoEntries : Obligations.LengthByteFillsTwoEntries := by
  intro s hp htix
  rw [State.blockStep_of_table hp, State.tableStep_of_lt htix]
  constructor
  · intro hb
    rw [State.fetch_of_ok (readByte_of_hasByte hb _)]
    refine ⟨_, rfl, rfl, Stream.hasByte_next (st := s.stream) hb, fun hhigh => ?_, fun hlow => ?_,
      fun k hx hy => ?_, rfl⟩
    · simp [State.len_withLengths, unpack, hhigh, State.stream, Stream.byteAt]
    · simp [State.len_withLengths, unpack, hlow, State.stream, Stream.byteAt]
    · exact (State.len_withLengths ..).trans ((if_neg hy).trans (if_neg hx))
  · intro hend
    rw [State.fetch_of_error (readByte_of_not_hasByte (Nat.not_lt.mpr hend) _)]
    exact ⟨_, rfl, s.raise_failureResult .table⟩

/-- Settles O23: one clause for each case of the build's step. -/
theorem explicitBuildStoresTheLeaf : Obligations.ExplicitBuildStoresTheLeaf := by
  intro s hp hc
  rw [State.blockStep_of_explicit hp hc]
  refine ⟨fun htix h0 => ?_, fun w r htix h0 hread => ?_, fun e r htix h0 hread => ?_, fun htix => ?_⟩
  · rw [State.explicitStep_of_noLength htix h0]
  · rw [State.explicitStep_of_length htix h0, State.fetch_of_ok hread, ← leaf_eq_shiftLeft]
    have hlut (i : BitVec 15) :
        (s.lut.set (leaf w (s.len s.tix).toNat) ⟨BitVec.ofNat 4 (s.len s.tix).toNat, BitVec.ofNat 8 s.tix⟩).get i =
          if i = leaf w (s.len s.tix).toNat then ⟨s.len s.tix, BitVec.ofNat 8 s.tix⟩ else s.lut.get i := by
      rw [Lut.get_set, BitVec.ofNat_toNat, BitVec.setWidth_eq]
    exact ⟨_, rfl, (hlut _).trans (if_pos rfl), fun i hi => (hlut i).trans (if_neg hi), rfl⟩
  · rw [State.explicitStep_of_length htix h0, State.fetch_of_error hread]
    exact ⟨_, rfl, State.raise_failureResult _ e⟩
  · rw [State.explicitStep_of_le htix]
    rfl

/-- Settles O24: one clause for each case of the build's step; a code below `2^L` has its leaf inside LUT. -/
theorem canonicalBuildAssignsTheNextCode : Obligations.CanonicalBuildAssignsTheNextCode := by
  intro s hp hc L sym
  rw [State.blockStep_of_canonical hp hc]
  refine ⟨fun htix hne => ?_, fun htix hlen hcode => ?_, fun htix hlen hcode => ?_, fun htix => ?_⟩
  · exact ⟨_, congrArg _ (State.canonicalStep_of_otherLength htix hne), rfl⟩
  · exact ⟨_, congrArg _ (State.canonicalStep_of_tooLong htix hlen hcode), s.raise_failureResult .kraft⟩
  · have hleaf : (leaf s.code L).toNat = s.code <<< (15 - L) := leaf_toNat (by omega) hcode
    refine ⟨_, congrArg _ (State.canonicalStep_of_code htix hlen hcode), fun i => ?_, rfl⟩
    rw [← hleaf]
    simp only [State.setLeaf_lut, Lut.get_set, BitVec.toNat_inj]
    rfl
  · rw [State.canonicalStep_of_le htix]
    rfl

end Sys2Proof.Machine

/-! SUPPORT. Single instructions of the code table's variants: LIT.CODE (O29), the word without an entry (O31), START (O37). -/
namespace Sys2Proof.Machine

/-! ## Code words in literals (R89, R110) -/

theorem codeSymbol_of_noEntry {lut : Lut} {w : CodeWord} (h : (lut.get w.bits).len.toNat ≠ w.len ∨ w.len = 0) :
    codeSymbol lut w = none :=
  if_neg fun ⟨hlen, h0⟩ => h.elim (· hlen) h0

/-- Settles O29: the entry's symbol goes out at a cursor below U. -/
theorem codeLiteralWritesItsSymbol : Obligations.CodeLiteralWritesItsSymbol := by
  intro s w hcur h0 hentry
  have hsym := codeSymbol_of_entry h0 hentry
  rcases exec_litCode_cases s w with ⟨hnone, -⟩ | ⟨sym, hsome, e⟩
  · simp [hsym] at hnone
  · obtain rfl : (s.lut.get w.bits).sym = sym := Option.some_inj.mp (hsym.symm.trans hsome)
    exact ⟨_, e.trans (State.emit_of_lt _ hcur), State.putByte_literalResult _ hcur⟩

/-- Settles O31: without an entry both literals raise NO_CODE before anything else. -/
theorem literalWithoutAnEntryFails : Obligations.LiteralWithoutAnEntryFails := by
  intro s w h
  have hnone := codeSymbol_of_noEntry h
  constructor
  · rcases exec_litCode_cases s w with ⟨-, e⟩ | ⟨sym, hsome, -⟩
    · exact ⟨_, e, s.raise_failureResult .noCode⟩
    · simp [hnone] at hsome
  · rcases exec_litRank_cases s w with ⟨-, e⟩ | ⟨k, hsome, -⟩
    · exact ⟨_, e, s.raise_failureResult .noCode⟩
    · simp [hnone] at hsome

/-! ## START (R103) -/

/-- A fresh context holds `0xFF - r` at rank `r` (R92). -/
theorem rankRow_getD {r : Nat} (hr : r < 256) : rankRow.getD r 0 = 0xFF - BitVec.ofNat 8 r := by
  have hrow : rankRow.getD r 0 = BitVec.ofNat 8 (255 - r) := by
    simp [rankRow, List.getD_eq_getElem?_getD, hr]
  rw [hrow]
  bv_omega

/-- Outside BUSY START takes IE and then initialises a decode (R122). -/
theorem exec_cmdStart_of_not_busy {s : State} (hb : s.busy = false) (clear ie : Bool) :
    exec (.cmdStart clear ie) s = .next { s with ie := ie }.startInit :=
  congrArg _ (if_neg (Bool.eq_false_iff.mp hb))

/-- Settles O37: every piece is that of `State.startInit`; the rows of an empty rank table are fresh ones. -/
theorem startInitialisesADecode : Obligations.StartInitialisesADecode := fun _ clear ie hb =>
  ⟨_, exec_cmdStart_of_not_busy hb clear ie, rfl, rfl, rfl, rfl, rfl, rfl, rfl, rfl, rfl, rfl, rfl, rfl, fun _ => rfl,
    fun _ _ => rankRow_getD, rfl, rfl⟩

end Sys2Proof.Machine

/-! SUPPORT. Every decode ends (O50): each token moves the cursor, and a count of the steps ahead falls with every step of the
block. -/
namespace Sys2Proof.Machine

section
variable {s t : State}

/-! ## Tokens move the cursor (R107, R125) -/

/-- Every match form has a baseline of at least 1 (R112). -/
theorem matchOperands_base_pos {i : Instr} {m : MatchOffset} {x : LenPart} (h : matchOperands s i = some (m, x)) :
    0 < m.base := by
  cases i <;> cases h
  case matchCtx | matchCtxSingle =>
    unfold State.offsetOfSelector
    split <;> exact Nat.succ_pos _
  all_goals exact Nat.succ_pos _

theorem State.emit_cur_lt {v : Byte} (h : s.emit v = .next t) : s.cur.toNat < t.cur.toNat := by
  obtain ⟨hlt, rfl⟩ := State.emit_next h
  rw [State.putByte_cur_toNat v hlt]
  exact Nat.lt_succ_self _

/-- A match fails or copies at least its baseline. -/
theorem State.runMatch_cur_lt {m : MatchOffset} (x : LenPart) (hbase : 0 < m.base)
    (hcur : s.cur.toNat ≤ s.cfg.outLen.toNat) :
    (s.runMatch m x).phase = .error ∨ s.cur.toNat < (s.runMatch m x).cur.toNat := by
  rcases s.runMatch_cases m x with ⟨c, e, -⟩ | ⟨n, -, hn, h0, hle, hfit, e⟩ <;> rw [e]
  · exact .inl rfl
  · right
    rw [(copyBytes_copyResult h0 hle (by omega : s.cur.toNat + n ≤ s.cfg.outLen.toNat)).cursor]
    omega

/-- The meaning of a token fails or moves the cursor forward. -/
theorem exec_token_cur_lt {i : Instr} (hi : i.isCommand = false) (hcur : s.cur.toNat ≤ s.cfg.outLen.toNat)
    (h : exec i s = .next t) : t.phase = .error ∨ s.cur.toNat < t.cur.toNat := by
  rcases token_cases s hi with ⟨v, rfl⟩ | ⟨w, rfl⟩ | ⟨w, rfl⟩ | ⟨m, x, hm⟩
  · exact .inr (State.emit_cur_lt h)
  · rcases exec_litCode_cases s w with ⟨-, e⟩ | ⟨sym, -, e⟩ <;> rw [e] at h
    · cases h
      exact .inl rfl
    · exact .inr (State.emit_cur_lt h)
  · rcases exec_litRank_cases s w with ⟨-, e⟩ | ⟨k, -, ⟨-, e⟩ | ⟨-, c, -, e⟩⟩ <;> rw [e] at h
    · cases h
      exact .inl rfl
    · cases h
    · exact .inr (State.emit_cur_lt (s := s.withRanks (lookupAndPromote s.rt c k).2) h)
  · rw [exec_match hm] at h
    cases h
    exact State.runMatch_cur_lt x (matchOperands_base_pos hm) hcur

/-- In TOKEN with `cur < U` a token that decodes runs its meaning, and `settle` looks at the cursor (R104, R121). -/
theorem State.blockStep_of_decoded {i : Instr} {r : Reader} (hp : s.phase = .token)
    (hcur : s.cur.toNat < s.cfg.outLen.toNat) (hd : decodeToken s.par s.cfg s.lut s.stream s.rd = .ok i r) :
    s.blockStep = mapNext State.settle (exec i (s.withReader r)) := by
  simp only [State.blockStep, hp, State.tokenStep, if_pos hcur, hd]

theorem State.settle_cur (s : State) : s.settle.cur = s.cur := by
  rw [State.settle_frame]

theorem State.settle_of_error (h : s.phase = .error) : s.settle = s := if_neg (by simp [h])

/-- A step in TOKEN with `cur < U` fails or moves the cursor forward. -/
theorem State.blockStep_token_cur_lt (hp : s.phase = .token) (hcur : s.cur.toNat < s.cfg.outLen.toNat)
    (hs : s.blockStep = .next t) : t.phase = .error ∨ s.cur.toNat < t.cur.toNat := by
  cases hd : decodeToken s.par s.cfg s.lut s.stream s.rd with
  | error c r =>
    rw [State.blockStep_of_cutOff hp hcur hd] at hs
    cases hs
    exact .inl rfl
  | ok i r =>
    rw [State.blockStep_of_decoded hp hcur hd] at hs
    obtain ⟨u, hu, rfl⟩ := mapNext_next hs
    have hi := decodeToken_isToken s.par s.cfg s.lut s.stream s.rd i r hd
    rcases exec_token_cur_lt (s := s.withReader r) hi hcur.le hu with herr | hlt
    · exact .inl ((State.settle_of_error herr).symm ▸ herr)
    · exact .inr (u.settle_cur.symm ▸ hlt)

/-! ## The steps ahead -/

/-- The most steps that lie ahead before the tokens, the verbatim bytes not counted, at the loop count `tix`: three phases of
one step more each, 128 length bytes and a re-seed, the passes of the canonical build (the explicit one has fewer) and its
end. -/
def Phase.stepsToTokens (tix : Nat) : Phase → Nat
  | .init => 3973
  | .prefixCopy => 3972
  | .align => 3971
  | .table => 128 - tix + 3842
  | .build => 15 * 256 - tix + 1
  | .token => 0
  | .idle => 0
  | .done => 0
  | .error => 0

/-- A bound on the steps ahead of a decode: one for each byte still to come, and those before the tokens. -/
def State.stepsAhead (s : State) : Nat := s.cfg.outLen.toNat - s.cur.toNat + s.phase.stepsToTokens s.tix

theorem Phase.stepsToTokens_le (tix : Nat) (p : Phase) : p.stepsToTokens tix ≤ 3973 := by
  cases p <;> simp only [Phase.stepsToTokens] <;> omega

theorem State.stepsAhead_le (s : State) : s.stepsAhead ≤ s.cfg.outLen.toNat + 3973 :=
  Nat.add_le_add (Nat.sub_le _ _) (Phase.stepsToTokens_le _ _)

/-- A step that leaves the cursor goes on towards the tokens. -/
theorem State.stepsAhead_lt_of_phase (hcfg : t.cfg = s.cfg) (hcur : t.cur = s.cur)
    (h : t.phase.stepsToTokens t.tix < s.phase.stepsToTokens s.tix) : t.stepsAhead < s.stepsAhead := by
  unfold State.stepsAhead
  rw [hcfg, hcur]
  exact Nat.add_lt_add_left h _

/-- A step that moves the cursor, from below U, may leave the phase and the loop. -/
theorem State.stepsAhead_lt_of_cur (hcfg : t.cfg = s.cfg) (hU : s.cur.toNat < s.cfg.outLen.toNat)
    (hcur : s.cur.toNat < t.cur.toNat) (h : t.phase.stepsToTokens t.tix ≤ s.phase.stepsToTokens s.tix) :
    t.stepsAhead < s.stepsAhead := by
  unfold State.stepsAhead
  rw [hcfg]
  omega

/-- A token that neither fails nor ends the decode leaves fewer bytes to come. -/
theorem State.stepsAhead_lt_of_token (hp : s.phase = .token) (hcur : s.cur.toNat < s.cfg.outLen.toNat)
    (hs : s.blockStep = .next t) (ht : t.busy = true) : t.stepsAhead < s.stepsAhead := by
  have hrow : ∀ q : Phase, (Phase.token, q) ∈ phaseTable → q.busy = true → q = .token := by
    intro q
    cases q <;> decide
  have hmove := blockStep_move hs
  have hcfg : t.cfg = s.cfg := by rw [hmove.frame]
  have htoken : t.phase = .token := hrow _ (hp ▸ hmove.mem_phaseTable) ht
  have hlt : s.cur.toNat < t.cur.toNat :=
    (State.blockStep_token_cur_lt hp hcur hs).resolve_left (by simp [htoken])
  exact State.stepsAhead_lt_of_cur hcfg hcur hlt (by rw [htoken]; exact Nat.zero_le _)

/-- While the decode goes on, every step of the block leaves fewer steps ahead. -/
theorem State.Inv.stepsAhead_lt (h : s.Inv) (hs : s.blockStep = .next t) (ht : t.busy = true) :
    t.stepsAhead < s.stepsAhead := by
  cases blockStep_move hs with
  | still hb => exact absurd (hb.symm.trans ht) nofun
  | fail | prefixDone | tokensEnd => cases ht
  | initPass hp | prefixEnd hp => exact State.stepsAhead_lt_of_phase rfl rfl (by rw [hp]; exact Nat.lt_succ_self _)
  | prefixByte v hp hcur hin =>
    have hU : s.cur.toNat < s.cfg.outLen.toNat := hcur.trans_le (min_le_right _ _)
    have hlt := State.putByte_cur_toNat (s := s.withReader { s.rd with ip := s.rd.ip + 1 }) v hU
    exact State.stepsAhead_lt_of_cur rfl hU (hlt ▸ Nat.lt_succ_self _) le_rfl
  | align hp =>
    refine State.stepsAhead_lt_of_phase rfl rfl ?_
    change Phase.stepsToTokens s.tix (if s.cfg.useCode then .table else .token) < _
    rw [hp]
    split <;> simp only [Phase.stepsToTokens] <;> omega
  | lengthByte x y hp htix | buildSkip code hp htix | buildLeaf r w L sym code hp htix =>
    refine State.stepsAhead_lt_of_phase rfl rfl ?_
    change Phase.stepsToTokens (s.tix + 1) s.phase < _
    rw [hp]
    simp only [Phase.stepsToTokens]
    omega
  | tableEnd hp | buildEnd hp =>
    refine State.stepsAhead_lt_of_phase rfl rfl ?_
    rw [hp]
    simp only [Phase.stepsToTokens, State.goto_phase]
    omega
  | token r rt vs hp => exact State.stepsAhead_lt_of_token hp (h.at_phase hp).2.curLt hs ht

/-! ## The end of a run -/

theorem blockRun_succ (hs : s.blockStep = .next t) (n : Nat) : blockRun (n + 1) s = blockRun n t := by
  rw [blockRun, hs]

/-- A BUSY phase is left for DONE or ERROR alone (R121). -/
theorem State.blockStep_ends (hs : s.blockStep = .next t) (hb : s.busy = true) (ht : t.busy = false) :
    t.phase = .done ∨ t.phase = .error := by
  have hrow : ∀ p q : Phase, (p, q) ∈ phaseTable → p.busy = true → q.busy = false → q = .done ∨ q = .error := by
    intro p q
    cases p <;> cases q <;> decide
  exact hrow _ _ (blockStep_move hs).mem_phaseTable hb ht

/-- From the invariant a decode ends after at most one step more than lie ahead. -/
theorem State.Inv.blockRun_ends (h : s.Inv) (hb : s.busy = true) :
    ∃ n t, n ≤ s.stepsAhead + 1 ∧ blockRun n s = .next t ∧ (t.phase = .done ∨ t.phase = .error) := by
  induction hk : s.stepsAhead using Nat.strong_induction_on generalizing s with
  | _ k ih =>
    obtain ⟨u, hu⟩ := h.blockStep_next
    cases hbu : u.busy with
    | false => exact ⟨1, u, by omega, blockRun_succ hu 0, State.blockStep_ends hu hb hbu⟩
    | true =>
      have hlt := h.stepsAhead_lt hu hbu
      obtain ⟨n, t, hn, hrun, hend⟩ := ih _ (hk ▸ hlt) (blockStep_keepsInv h hu) hbu rfl
      exact ⟨n + 1, t, by omega, (blockRun_succ hu n).trans hrun, hend⟩

end

/-- Settles O50: the steps ahead are at most U + 3973. -/
theorem everyDecodeEnds : Obligations.EveryDecodeEnds := by
  intro s h hb
  obtain ⟨n, t, hn, hrun, hend⟩ := h.blockRun_ends hb
  have hle := s.stepsAhead_le
  exact ⟨n, t, by omega, hrun, hend⟩

end Sys2Proof.Machine

/-! SUPPORT. The rank table: what a promotion puts at each rank (O25), that it keeps the rows permutations (O26), and LIT.RANK,
which runs it (O30). -/
namespace Sys2Proof.Machine

/-! ## One row (R93) -/

@[simp] theorem promote_zero (row : List Byte) : promote row 0 = row := if_pos rfl

/-- The promoted byte is at rank 0. -/
theorem promote_getD_zero (row : List Byte) (k : Nat) : (promote row k).getD 0 0 = row.getD k 0 := by
  unfold promote
  split
  · next hk => rw [hk]
  · rfl

/-- The ranks below the promoted one move up by one. -/
theorem promote_getD_succ_of_lt {row : List Byte} {k j : Nat} (hk : k < row.length) (hj : j < k) :
    (promote row k).getD (j + 1) 0 = row.getD j 0 := by
  have hlen : j < (row.take k).length := by rw [List.length_take]; omega
  rw [promote, if_neg (by omega), List.getD_cons_succ, List.getD_append _ _ _ _ hlen]
  simp [List.getD_eq_getElem?_getD, hj]

/-- The ranks above the promoted one stay. -/
theorem promote_getD_of_gt {row : List Byte} {k j : Nat} (hk : k < row.length) (hj : k < j) :
    (promote row k).getD j 0 = row.getD j 0 := by
  obtain ⟨i, rfl⟩ := Nat.exists_eq_add_of_lt hj
  unfold promote
  split
  · rfl
  · have hlen : (row.take k).length = k := List.length_take_of_le hk.le
    rw [List.getD_cons_succ, List.getD_append_right _ _ _ _ (by omega), hlen]
    simp [List.getD_eq_getElem?_getD, Nat.add_right_comm]

/-- Every rank after a promotion. -/
theorem promote_getD {row : List Byte} {k : Nat} (hk : k < row.length) (j : Nat) :
    (promote row k).getD j 0 =
      if k < j then row.getD j 0 else if j = 0 then row.getD k 0 else row.getD (j - 1) 0 := by
  split
  · next hj => exact promote_getD_of_gt hk hj
  · next hj =>
    cases j with
    | zero => exact promote_getD_zero row k
    | succ j => exact promote_getD_succ_of_lt hk (by omega)

/-! ## The table (R93, R95) -/

section
variable (rt : Sparse (List Byte)) (c k : Byte)

theorem lookupAndPromote_value :
    (lookupAndPromote rt c k).1 = (Sparse.get rankRow rt c.toNat).getD k.toNat 0 := rfl

/-- The context's row is promoted. -/
theorem lookupAndPromote_row_same :
    Sparse.get rankRow (lookupAndPromote rt c k).2 c.toNat = promote (Sparse.get rankRow rt c.toNat) k.toNat := by
  rw [lookupAndPromote_rows, if_pos rfl]

/-- The other rows stay. -/
theorem lookupAndPromote_row_other {d : Nat} (hd : d ≠ c.toNat) :
    Sparse.get rankRow (lookupAndPromote rt c k).2 d = Sparse.get rankRow rt d := by
  rw [lookupAndPromote_rows, if_neg hd]

/-- A lookup at rank 0 moves nothing. -/
theorem lookupAndPromote_zero_row (d : Nat) :
    Sparse.get rankRow (lookupAndPromote rt c 0).2 d = Sparse.get rankRow rt d := by
  by_cases hd : d = c.toNat
  · rw [hd, lookupAndPromote_row_same]
    exact promote_zero _
  · exact lookupAndPromote_row_other rt c 0 hd

/-- A row that holds every byte once holds them after a promotion: a byte is a rank of it. -/
theorem lookupAndPromote_row_perm (h : ∀ d, (Sparse.get rankRow rt d).Perm rankRow) (d : Nat) :
    (Sparse.get rankRow (lookupAndPromote rt c k).2 d).Perm rankRow := by
  by_cases hd : d = c.toNat
  · have hk : k.toNat < (Sparse.get rankRow rt c.toNat).length := by
      rw [(h _).length_eq, rankRow_length]
      exact k.isLt
    rw [hd, lookupAndPromote_row_same]
    exact (promote_perm _ hk).trans (h _)
  · rw [lookupAndPromote_row_other rt c k hd]
    exact h d

end

/-- Settles O25: rank by rank in the context's row; the table's other rows stay. -/
theorem promotionMovesTheByteToTheFront : Obligations.PromotionMovesTheByteToTheFront := by
  intro rt c k hlen row row'
  have hrow : row' = promote row k.toNat := lookupAndPromote_row_same rt c k
  have hk : k.toNat < row.length := hlen.symm ▸ k.isLt
  refine ⟨lookupAndPromote_value rt c k, fun j _ => ?_, fun d hd => lookupAndPromote_row_other rt c k hd⟩
  rw [hrow, promote_getD hk]

/-- Settles O26: the second lookup reads rank 0 of the promoted row, and moves nothing. -/
theorem rankRowsStayPermutations : Obligations.RankRowsStayPermutations := by
  intro rt c k h
  refine ⟨lookupAndPromote_row_perm rt c k h, ?_, lookupAndPromote_zero_row _ c⟩
  rw [lookupAndPromote_value, lookupAndPromote_row_same]
  exact promote_getD_zero _ _

/-! ## LIT.RANK (R111) -/

/-- Settles O30: the entry and a context exist, so the byte at the rank goes out from the state with the promoted table. -/
theorem rankLiteralWritesAndPromotes : Obligations.RankLiteralWritesAndPromotes := by
  intro s w hcur hbase h0 hentry c k
  have hsym : codeSymbol s.lut w = some k := codeSymbol_of_entry h0 hentry
  rcases exec_litRank_cases s w with ⟨hnone, -⟩ | ⟨k', hsome, ⟨hlt, -⟩ | ⟨-, c', rfl, e⟩⟩
  · simp [hsym] at hnone
  · exact absurd hlt (Nat.not_lt.mpr hbase)
  · obtain rfl : k = k' := Option.some_inj.mp (hsym.symm.trans hsome)
    exact ⟨_, e.trans (State.emit_of_lt _ hcur), State.putByte_literalResult _ hcur⟩

end Sys2Proof.Machine

/-! SUPPORT. The offset table (O27): its entries in each branch, and the bounds that hold in both. -/
namespace Sys2Proof.Machine

/-! ## The branches (R97) -/

section
variable {b s : Nat}

/-- The stride branch, past `S = 5B`. -/
theorem offsetTable_of_lt (h : 5 * b < s) :
    offsetTable b s = #v[b, 2 * b, 3 * b, s - b, s, s + b, s + 2 * b, 2 * s] := if_pos h

/-- The multiples branch, `S = 5B` included. -/
theorem offsetTable_of_le (h : s ≤ 5 * b) :
    offsetTable b s = #v[b, 2 * b, 3 * b, 4 * b, 5 * b, 6 * b, 7 * b, 8 * b] := if_neg (Nat.not_lt.mpr h)

theorem offsetTable_getElem_of_le (h : s ≤ 5 * b) (k : Fin 8) : (offsetTable b s)[k] = (k.val + 1) * b := by
  rw [offsetTable_of_le h]
  fin_cases k <;> simp

/-! ## Both branches -/

variable (b s)

/-- The distances on the same row do not depend on the stride. -/
theorem offsetTable_getElem_of_lt_three {k : Fin 8} (hk : k.val < 3) : (offsetTable b s)[k] = (k.val + 1) * b := by
  rcases Nat.lt_or_ge (5 * b) s with h | h
  · rw [offsetTable_of_lt h]
    match k, hk with
    | 0, _ | 1, _ | 2, _ => simp
  · exact offsetTable_getElem_of_le h k

/-- No entry is below one element, and none is past eight elements and past two rows. -/
theorem offsetTable_getElem_bounds (k : Fin 8) :
    b ≤ (offsetTable b s)[k] ∧ (offsetTable b s)[k] ≤ max (8 * b) (2 * s) := by
  rcases Nat.lt_or_ge (5 * b) s with h | h
  · rw [offsetTable_of_lt h]
    fin_cases k <;> simp <;> omega
  · rw [offsetTable_getElem_of_le h]
    have hk : (k.val + 1) * b ≤ 8 * b := Nat.mul_le_mul_right b k.isLt
    exact ⟨Nat.le_mul_of_pos_left b k.val.succ_pos, hk.trans (Nat.le_max_left _ _)⟩

end

/-- Settles O27: branch by branch; 35 bits hold eight elements and two rows. -/
theorem offsetTableDistances : Obligations.OffsetTableDistances := by
  intro b s
  refine ⟨fun _ => offsetTable_getElem_of_lt_three b s, offsetTable_getElem_of_le, fun h => ?_,
    fun k => (offsetTable_getElem_bounds b s k).1, fun hb hs k => ?_⟩
  · rw [offsetTable_of_lt h]
    have hsub : s - b + b = s := Nat.sub_add_cancel (by omega)
    exact ⟨hsub, rfl, rfl, rfl, rfl⟩
  · have hle := (offsetTable_getElem_bounds b s k).2
    omega

end Sys2Proof.Machine

/-! SUPPORT. Two decodes that agree go on agreeing in every phase, so a decode depends on its inputs alone (O52). -/
namespace Sys2Proof.Machine

section
variable {s t u : State}

/-! ## The phases before the tokens -/

/-- The parameter check looks at the latched record alone (R102). -/
theorem Agree.initStep (h : Agree s t) (hp : s.phase = .init) : Agree s.initStep t.initStep := by
  unfold State.initStep
  rw [← h.cfg]
  split
  · exact h.raise .badParam
  · exact h.goto (by simp [hp]) nofun nofun

/-- No entry of LEN is compared when TABLE is entered: the loop has not begun. -/
theorem Agree.alignStep (h : Agree s t) (hp : s.phase = .align) (htix : s.tix = 0) :
    Agree s.alignStep t.alignStep :=
  { h with
    rd := congrArg align4 h.rd
    phase := congrArg (fun c : Latched => if c.useCode then Phase.table else .token) h.cfg
    lensTable := fun _ k hk => by
      change k < 2 * s.tix at hk
      omega
    lensBuild := fun e => by
      change (if s.cfg.useCode then Phase.table else .token) = .build at e
      split at e <;> cases e
    output := fun _ => h.output (by simp [hp]) }

/-- A length byte makes the entries of LEN agree two further (R84). -/
theorem Agree.withLengths (h : Agree s t) (hp : s.phase = .table) (x y : BitVec 4) :
    Agree (s.withLengths x y) (t.withLengths x y) :=
  { h with
    tix := congrArg (· + 1) h.tix
    lensTable := fun _ k (hk : k < 2 * (s.tix + 1)) => by
      rw [State.len_withLengths, State.len_withLengths, ← h.tix]
      split
      · rfl
      · split
        · rfl
        · exact h.lensTable hp k (by omega)
    lensBuild := fun e => absurd (hp.symm.trans e) nofun }

/-- BUILD is entered with all 256 lengths read (R84). -/
theorem Agree.enterBuild (h : Agree s t) (hp : s.phase = .table) (htix : 128 ≤ s.tix) :
    Agree { s with phase := .build, tix := 0 } { t with phase := .build, tix := 0 } :=
  { h with
    phase := rfl
    tix := rfl
    lensTable := nofun
    lensBuild := fun _ k hk => h.lensTable hp k (by omega)
    output := fun _ => h.output (by simp [hp]) }

/-- A length byte, or the re-seed after the last. -/
theorem Agree.tableStep (h : Agree s t) (hp : s.phase = .table) : Agree s.tableStep t.tableStep := by
  rcases Nat.lt_or_ge s.tix 128 with htix | htix
  · rw [State.tableStep_of_lt htix, State.tableStep_of_lt (h.tix ▸ htix), ← h.sameStream.readByte_eq]
    refine h.fetch fun b r => ?_
    simp only [State.withReader_par, ← h.par]
    exact (h.withReader r).withLengths hp _ _
  · rw [State.tableStep_of_le htix, State.tableStep_of_le (h.tix ▸ htix), ← h.sameStream.reseed_eq]
    exact h.fetch fun _ r => (h.withReader r).enterBuild hp htix

/-- The build's loop goes on with the same count and code. -/
theorem Agree.withLoop (h : Agree s t) (hp : s.phase = .build) {n n' code code' : Nat} (hn : n = n')
    (hcode : code = code') : Agree { s with tix := n, code := code } { t with tix := n', code := code' } :=
  { h with
    tix := hn
    code := hcode
    lensTable := fun e => absurd (hp.symm.trans e) nofun }

theorem Agree.setLeaf (h : Agree s t) (w L sym : Nat) : Agree (s.setLeaf w L sym) (t.setLeaf w L sym) :=
  { h with lut := congrArg (fun lut : Lut => lut.set _ _) h.lut }

/-- One symbol of the explicit build reads its own length alone (R87). -/
theorem Agree.explicitStep (h : Agree s t) (hp : s.phase = .build) : Agree s.explicitStep t.explicitStep := by
  rcases Nat.lt_or_ge s.tix 256 with htix | htix
  · have hlen : s.len s.tix = t.len t.tix := h.tix ▸ h.lensBuild hp s.tix htix
    by_cases h0 : s.len s.tix = 0
    · rw [State.explicitStep_of_noLength htix h0, State.explicitStep_of_noLength (h.tix ▸ htix) (hlen ▸ h0)]
      exact h.withLoop hp (congrArg (· + 1) h.tix) h.code
    · rw [State.explicitStep_of_length htix h0, State.explicitStep_of_length (h.tix ▸ htix) (hlen ▸ h0), ← hlen,
        readBits, h.sameStream.readBitsOnto_eq]
      refine h.fetch fun w r => ?_
      change Agree { (s.withReader r).setLeaf w (s.len s.tix).toNat s.tix with tix := s.tix + 1 }
        { (t.withReader r).setLeaf w (t.len t.tix).toNat t.tix with tix := t.tix + 1 }
      rw [← hlen, ← h.tix]
      exact ((h.withReader r).setLeaf w (s.len s.tix).toNat s.tix).withLoop hp rfl h.code
  · rw [State.explicitStep_of_le htix, State.explicitStep_of_le (h.tix ▸ htix)]
    exact h.goto (by simp [hp]) nofun nofun

/-- One pass of the canonical build reads one length alone (R88). -/
theorem Agree.canonicalStep (h : Agree s t) (hp : s.phase = .build) : Agree s.canonicalStep t.canonicalStep := by
  have hlen : s.len (s.tix % 256) = t.len (s.tix % 256) := h.lensBuild hp _ (Nat.mod_lt _ (by decide))
  unfold State.canonicalStep
  rw [← h.tix, ← h.code, ← hlen]
  split
  · split
    · split
      · exact h.raise .kraft
      · exact (h.setLeaf s.code (s.tix / 256 + 1) (s.tix % 256)).withLoop hp rfl rfl
    · exact h.withLoop hp rfl rfl
  · exact h.goto (by simp [hp]) nofun nofun

theorem Agree.buildStep (h : Agree s t) (hp : s.phase = .build) : Agree s.buildStep t.buildStep := by
  unfold State.buildStep
  rw [← h.par]
  cases s.par.codes with
  | explicit => exact h.explicitStep hp
  | canonical => exact h.canonicalStep hp

/-! ## Steps and runs of the block -/

/-- Agreement is kept by one step of the block in every phase. The invariant gives the two facts that agreement does not
hold: the table's loop has not begun in ALIGN, and `B` is not 0 in TOKEN. -/
theorem Agree.blockStep (h : Agree s t) (hinv : s.Inv) : OutcomesAgree s.blockStep t.blockStep := by
  have hp' := h.phase
  cases hp : s.phase <;> rw [hp] at hp' <;> simp only [State.blockStep, hp, ← hp']
  case idle | done | error => exact .next h
  case init => exact .next (h.initStep hp)
  case prefixCopy => exact .next (h.prefixStep (by simp [hp]))
  case align =>
    obtain ⟨-, -, -, htix⟩ := hinv.at_phase hp
    exact .next (h.alignStep hp htix)
  case table => exact .next (h.tableStep hp)
  case build => exact .next (h.buildStep hp)
  case token => exact h.tokenStep (by simp [hp]) (hinv.at_phase hp).2.base

theorem Agree.blockStep_next (h : Agree s t) (hinv : s.Inv) (hs : s.blockStep = .next u) :
    ∃ u', t.blockStep = .next u' ∧ Agree u u' :=
  (hs ▸ h.blockStep hinv).exists_next

/-- A run begins with a step. -/
theorem blockRun_succ_next {n : Nat} (hrun : blockRun (n + 1) s = .next t) :
    ∃ u, s.blockStep = .next u ∧ blockRun n u = .next t := by
  rw [blockRun] at hrun
  split at hrun
  · exact ⟨_, by assumption, hrun⟩
  · cases hrun
  · cases hrun

/-- Two decodes that agree run alike, step for step. -/
theorem Agree.blockRun {n : Nat} (h : Agree s t) (hinv : s.Inv) (hrun : blockRun n s = .next u) :
    ∃ u', blockRun n t = .next u' ∧ Agree u u' := by
  induction n generalizing s t with
  | zero =>
    cases hrun
    exact ⟨t, rfl, h⟩
  | succ n ih =>
    obtain ⟨v, hstep, hrest⟩ := blockRun_succ_next hrun
    obtain ⟨v', hstep', hv⟩ := h.blockStep_next hinv hstep
    obtain ⟨u', hrest', hu⟩ := ih hv (blockStep_keepsInv hinv hstep) hrest
    exact ⟨u', (blockRun_succ hstep' n).trans hrest', hu⟩

/-! ## START (R103, R144) -/

theorem SameInputs.latch_eq (h : SameInputs s t) : s.latch = t.latch := by
  simp only [State.latch, h.format, h.image, h.baseLen, h.stride, h.inLen, h.outLen]

/-- IE is no input of a decode. -/
theorem SameInputs.withIe (h : SameInputs s t) (ie ie' : Bool) :
    SameInputs { s with ie := ie } { t with ie := ie' } := { h with }

/-- START gives every piece that a decode reads a fixed value or one of the inputs; no byte of OUT is behind the cursor,
and LEN has not been written. -/
theorem SameInputs.startInit (h : SameInputs s t) : Agree s.startInit t.startInit where
  par := h.par
  rd := rfl
  cur := rfl
  cfg := h.latch_eq
  phase := rfl
  lut := rfl
  rt := rfl
  oct := by rw [State.startInit_oct, State.startInit_oct, h.latch_eq]
  err := rfl
  tix := rfl
  code := rfl
  lensTable := nofun
  lensBuild := nofun
  input := h.input
  output := fun _ _ => nofun

end

/-- Settles O52: agreement is kept in every phase and established by START; a run is then an induction on its steps. -/
theorem decodeDependsOnItsInputsOnly : Obligations.DecodeDependsOnItsInputsOnly := by
  refine ⟨fun s s' t h _ hagree hs => hagree.blockStep_next h hs, fun s s' clear ie clear' ie' hb hb' hin => ?_,
    fun s s' clear ie clear' ie' n t h _ hb hb' hin => ?_⟩
  · exact ⟨_, _, exec_cmdStart_of_not_busy hb clear ie, exec_cmdStart_of_not_busy hb' clear' ie',
      (hin.withIe ie ie').startInit⟩
  · rintro ⟨u, hu, hrun⟩
    rw [exec_cmdStart_of_not_busy hb] at hu
    cases hu
    obtain ⟨t', hrun', hagree⟩ := (hin.withIe ie ie').startInit.blockRun (h.withIe ie).core.startInit hrun
    exact ⟨_, t', exec_cmdStart_of_not_busy hb' clear' ie', hrun', hagree⟩

end Sys2Proof.Machine

/-! SUPPORT. The FSM around the tokens: progress (O49), which step runs (O6), the commands (O10, O38 to O40), INIT (O44)
and PREFIX (O45). -/
namespace Sys2Proof.Machine

section
variable {s t : State}

/-! ## The cursor stays at most at U (R18, R47) -/

/-- No step of the block takes the cursor past U. -/
theorem BlockMove.cur_le (h : BlockMove s t) (hcur : s.cur.toNat ≤ s.cfg.outLen.toNat) :
    t.cur.toNat ≤ s.cfg.outLen.toNat := by
  cases h with
  | prefixByte v _ hlt _ =>
    have hU : s.cur.toNat < s.cfg.outLen.toNat := hlt.trans_le (min_le_right _ _)
    exact (State.putByte_cur_toNat (s := s.withReader { s.rd with ip := s.rd.ip + 1 }) v hU).trans_le hU
  | token r rt vs _ _ _ _ hfit =>
    rw [State.settle_cur, State.putBytes_cur_toNat (s := (s.withReader r).withRanks rt) hfit]
    exact hfit
  | _ => exact hcur

/-! ## INIT and PREFIX (R102, R105, R106) -/

theorem State.blockStep_of_init (hp : s.phase = .init) : s.blockStep = .next s.initStep := by
  simp only [State.blockStep, hp]

theorem State.initStep_of_badParam (hi : s.cfg.image = true) (hB : s.cfg.base = 0) :
    s.initStep = s.raise .badParam := if_pos ⟨hi, hB⟩

theorem State.initStep_of_goodParam (h : s.cfg.image = false ∨ s.cfg.base ≠ 0) : s.initStep = s.goto .prefixCopy :=
  if_neg fun ⟨hi, hB⟩ => h.elim (fun hno => Bool.eq_false_iff.mp hno hi) (· hB)

theorem State.blockStep_of_prefix (hp : s.phase = .prefixCopy) : s.blockStep = .next s.prefixStep := by
  simp only [State.blockStep, hp]

/-- While verbatim bytes are to come the step is a raw read, whose byte goes out (R105). -/
theorem State.prefixStep_of_lt (hcur : s.cur.toNat < min s.cfg.base.toNat s.cfg.outLen.toNat) :
    s.prefixStep = s.fetch (readByte s.stream .prefixByte) fun v t => t.putByte v := if_pos hcur

/-- With the verbatim bytes out PREFIX is left (R106). -/
theorem State.prefixStep_of_le (hcur : min s.cfg.base.toNat s.cfg.outLen.toNat ≤ s.cur.toNat) :
    s.prefixStep = s.goto (if s.cur = s.cfg.outLen then .done else .align) := by
  rw [State.prefixStep, if_neg (Nat.not_lt.mpr hcur)]
  split <;> rfl

end

/-- Settles O49: the cursor moves forward by `State.blockStep_token_cur_lt`, and not past U by `BlockMove.cur_le`. -/
theorem tokensMakeProgress : Obligations.TokensMakeProgress := fun _ _ hp hcur hs =>
  (State.blockStep_token_cur_lt hp hcur hs).imp_right fun hlt => ⟨hlt, (blockStep_move hs).cur_le hcur.le⟩

/-- Settles O6: the host list decides which step runs, and in TOKEN the decoder's answer. -/
theorem stepRunsTheDecodedToken : Obligations.StepRunsTheDecodedToken := by
  refine ⟨fun _ => step_nil, fun _ _ _ => step_cons, fun _ => rfl, fun s => ⟨fun hb => if_pos hb, fun hb => ?_⟩,
    fun s i r hp hcur hd => ?_⟩
  · exact if_neg (Bool.eq_false_iff.mp hb)
  · have hblock := State.blockStep_of_decoded hp hcur hd
    refine ⟨hblock, fun hh => (step_nil hh).trans hblock, fun ms => (step_cons rfl).trans ?_⟩
    exact State.blockStep_of_decoded (s := { s with host := ms }) hp hcur hd

/-! ## Commands (R122 to R124) -/

theorem decodeCtrl_startWord (clear ie : Bool) :
    decodeCtrl (BitVec.ofNat 32 (1 + 2 * clear.toNat + 4 * ie.toNat)) = .cmdStart clear ie := by
  revert clear ie
  decide

theorem decodeCtrl_clearWord (ie : Bool) : decodeCtrl (BitVec.ofNat 32 (2 + 4 * ie.toNat)) = .cmdClear ie := by
  revert ie
  decide

theorem decodeCtrl_nopWord (ie : Bool) : decodeCtrl (BitVec.ofNat 32 (4 * ie.toNat)) = .cmdNop ie := by
  revert ie
  decide

/-- Settles O10: command by command; a token is none. -/
theorem commandWordsReadBack : Obligations.CommandWordsReadBack := by
  intro i hi
  cases i with
  | cmdStart clear ie => exact ⟨_, rfl, decodeCtrl_startWord clear ie⟩
  | cmdClear ie => exact ⟨_, rfl, decodeCtrl_clearWord ie⟩
  | cmdNop ie => exact ⟨_, rfl, decodeCtrl_nopWord ie⟩
  | _ => cases hi

/-- Settles O38: while BUSY START takes IE and initialises nothing. -/
theorem busyStartSetsOnlyIe : Obligations.BusyStartSetsOnlyIe := fun _ _ _ hb => congrArg _ (if_pos hb)

/-- Settles O39: `State.acknowledge` after IE, which leaves the phase to look at as it is. -/
theorem clearAcknowledges : Obligations.ClearAcknowledges := fun _ _ =>
  ⟨fun hend => congrArg _ (if_pos hend),
    fun hdone herror => congrArg _ (if_neg fun hend => hend.elim hdone herror)⟩

/-- Settles O40: the meaning of NOP is the update itself. -/
theorem nopSetsOnlyIe : Obligations.NopSetsOnlyIe := fun _ _ => rfl

/-- Settles O44: the failure entry, or the move to PREFIX. -/
theorem initChecksBaseLength : Obligations.InitChecksBaseLength := by
  intro s hp
  rw [State.blockStep_of_init hp]
  refine ⟨fun hi hB => ?_, fun hok => ?_⟩
  · rw [State.initStep_of_badParam hi hB]
    exact ⟨_, rfl, s.raise_failureResult .badParam⟩
  · rw [State.initStep_of_goodParam hok]
    rfl

/-- Settles O45: a byte of IN goes out as a literal's does, the input ends, or the verbatim bytes are out. -/
theorem prefixCopiesVerbatim : Obligations.PrefixCopiesVerbatim := by
  intro s hp
  rw [State.blockStep_of_prefix hp]
  refine ⟨fun hcur hb => ?_, fun hcur hend => ?_, fun hcur => ?_⟩
  · have hU : s.cur.toNat < s.cfg.outLen.toNat := hcur.trans_le (min_le_right _ _)
    rw [State.prefixStep_of_lt hcur, State.fetch_of_ok (readByte_of_hasByte hb _)]
    exact ⟨_, rfl, Stream.hasByte_next (st := s.stream) hb,
      State.putByte_literalResult (s := s.withReader { s.rd with ip := s.rd.ip + 1 }) _ hU⟩
  · rw [State.prefixStep_of_lt hcur, State.fetch_of_error (readByte_of_not_hasByte (Nat.not_lt.mpr hend) _)]
    exact ⟨_, rfl, s.raise_failureResult .prefixByte⟩
  · rw [State.prefixStep_of_le hcur]
    rfl

end Sys2Proof.Machine

/-! SUPPORT. The interrupt line (O41): when it is high, and that each command of R136 leaves a state in which it is low. -/
namespace Sys2Proof.Machine

section
variable {s t : State} {clear ie : Bool}

theorem State.irq_iff : s.irq = true ↔ s.ie = true ∧ (s.phase = .done ∨ s.phase = .error) := by
  simp only [State.irq, Bool.and_eq_true, Bool.or_eq_true, beq_iff_eq]

theorem State.irq_of_not_ended (h : ¬(s.phase = .done ∨ s.phase = .error)) : s.irq = false :=
  Bool.eq_false_iff.mpr fun hirq => h (State.irq_iff.mp hirq).2

theorem State.irq_of_not_ie (h : s.ie = false) : s.irq = false :=
  Bool.eq_false_iff.mpr fun hirq => Bool.eq_false_iff.mp h (State.irq_iff.mp hirq).1

theorem State.not_ended_of_busy (h : s.busy = true) : ¬(s.phase = .done ∨ s.phase = .error) := by
  rintro (hp | hp) <;> simp [State.busy, hp, Phase.busy] at h

theorem State.acknowledge_not_ended (s : State) : ¬(s.acknowledge.phase = .done ∨ s.acknowledge.phase = .error) := by
  rcases s.acknowledge_cases with ⟨-, e⟩ | ⟨hp, e⟩ <;> rw [e]
  · simp
  · exact hp

/-- START leaves the block BUSY, whether it found it so or not (R122). -/
theorem exec_cmdStart_busy (h : exec (.cmdStart clear ie) s = .next t) : t.busy = true := by
  cases hb : s.busy with
  | true =>
    obtain rfl := Host.Outcome.next.inj ((busyStartSetsOnlyIe s clear ie hb).symm.trans h)
    exact hb
  | false =>
    obtain rfl := Host.Outcome.next.inj ((exec_cmdStart_of_not_busy hb clear ie).symm.trans h)
    exact State.startInit_busy _

theorem exec_cmdClear (s : State) (ie : Bool) : exec (.cmdClear ie) s = .next { s with ie := ie }.acknowledge := rfl

end

/-- Settles O41: neither CLEAR nor START leaves the phase in DONE or ERROR, and a NOP with a low bit 2 leaves IE low. -/
theorem irqFollowsIeAndPhase : Obligations.IrqFollowsIeAndPhase := by
  refine ⟨fun _ => State.irq_iff, fun s t ie h => ?clear, fun s t clear ie h => ?start, fun s t h => ?nop⟩
  case clear =>
    obtain rfl := Host.Outcome.next.inj ((exec_cmdClear s ie).symm.trans h)
    exact State.irq_of_not_ended (State.acknowledge_not_ended _)
  case start => exact State.irq_of_not_ended (State.not_ended_of_busy (exec_cmdStart_busy h))
  case nop =>
    obtain rfl := Host.Outcome.next.inj ((nopSetsOnlyIe s false).symm.trans h)
    exact State.irq_of_not_ie rfl

end Sys2Proof.Machine
